-- ==== Sys2Proof/Word.lean ====
section
/-! DEFINITION. Word.lean: the word types of the IOAC (spec/00_scope.md R7, R10): bytes, 16-bit port values,
32-bit configuration words, and the level of a line. -/
namespace Sys2Proof

/-- A byte: a command byte, a shadow or device register, a pin operand (R7). -/
abbrev Byte := BitVec 8

/-- A 16-bit port value, port B in bits 15:8 and port A in bits 7:0 (R7, R30); also the minute counts. -/
abbrev Half := BitVec 16

/-- A 32-bit signal parameter or configuration register (R6 `PARAM_BITS`, R42). -/
abbrev Word := BitVec 32

/-- A line level is one bit: `true` is 1, high (released); `false` is 0, low (pulled down) (R10). -/
abbrev Level := Bool

end Sys2Proof
end

