-- ==== Sys2Proof/Syntax.lean ====
section
/-! DEFINITION. Syntax.lean: the 26 operations of the opcode map (spec/30_encoding.md R91), one constructor a row of
spec/opcode_table.json. Operands are the raw operand bytes of the row's format (R92): out-of-range operands are no
illegal commands, they return INVALID_ARG (R97), so the term holds them. -/
namespace Sys2Proof

inductive Instr where
  -- U1, the bit-bang I2C master engine
  | i2cinit  (sdaPin sclPin : Byte)   -- 0x10, format P2
  | setlines (a : Byte)               -- 0x11, format L: bit 1 SDA, bit 0 SCL, bits 7:2 reserved (R94)
  | start                             -- 0x12
  | stop                              -- 0x13
  | sendbyte (v : Byte)               -- 0x14, format B
  | readack                           -- 0x15
  | sendack  (low : Byte)             -- 0x16, format B
  | ack                               -- 0x17
  | nack                              -- 0x18
  | readbyte                          -- 0x19
  -- U2, the port-expander register driver
  | begin    (sdaPin sclPin dirA dirB puA puB polA polB : Byte)  -- 0x20, format G
  | pinmode  (pin mode : Byte)        -- 0x21, format PB
  | pudctl   (pin pud : Byte)         -- 0x22, format PB
  | dread16                           -- 0x23
  | dread    (pin : Byte)             -- 0x24, format B
  | dwrite16 (value : Half)           -- 0x25, format H
  | dwrite   (pin level : Byte)       -- 0x26, format PB
  | dumpregs                          -- 0x27
  -- U3, the debounce state machine
  | sample   (raw : Byte)             -- 0x30, format B
  -- U4, the event dispatcher and actuator controller
  | post     (kind : Byte) (param : Word)  -- 0x40, format KW
  | dispatch                          -- 0x41
  | mintick                           -- 0x42
  | retrytick (slot : Byte)           -- 0x43, format B
  | leveltick                         -- 0x44
  | wrcfg    (reg : Byte) (w : Word)  -- 0x45, format KW
  | rdcfg    (reg : Byte)             -- 0x46, format B
deriving DecidableEq, Repr

end Sys2Proof
end

