-- ==== Sys2Proof/Decode.lean ====
section
/-! DEFINITION. Decode.lean: the command format (spec/30_encoding.md R90 to R99) and its encoder. A command is one opcode byte
and the operand bytes of its format; the decoder is total on any byte stream: it gives the command with the rest of
the stream, or says that the opcode byte is illegal (R97), or that the command's last byte has not arrived (R90). -/
namespace Sys2Proof

/-- What the decoder finds at the head of the command stream. -/
inductive Decoded where
  | ok (i : Instr) (rest : List Byte)
  | illegal (opcode : Byte) (rest : List Byte)  -- R97: an opcode byte outside the map, consumed alone
  | incomplete                                  -- R90: the last byte of the command has not arrived
deriving DecidableEq, Repr

/-- R30, R95: `hi ++ lo`, the 16-bit value of two bytes. -/
def pack16 (hi lo : Byte) : Half := hi ++ lo

/-- R10: the slice `v[7:0]`. -/
def loByte (v : Half) : Byte := v.extractLsb' 0 8

/-- R10: the slice `v[15:8]`. -/
def hiByte (v : Half) : Byte := v.extractLsb' 8 8

/-- R95: the 32-bit operand `byte5 ++ byte4 ++ byte3 ++ byte2`. -/
def pack32 (b3 b2 b1 b0 : Byte) : Word := b3 ++ b2 ++ b1 ++ b0

/-- The bytes of a 32-bit value, least significant first (R95, R102). -/
def bytes32 (w : Word) : List Byte :=
  [w.extractLsb' 0 8, w.extractLsb' 8 8, w.extractLsb' 16 8, w.extractLsb' 24 8]

/-- Format B (and L): one operand byte. -/
def decodeB (f : Byte → Instr) : List Byte → Decoded
  | a :: rest => .ok (f a) rest
  | [] => .incomplete

/-- Formats P2 and PB: two operand bytes. -/
def decodeP (f : Byte → Byte → Instr) : List Byte → Decoded
  | a :: b :: rest => .ok (f a b) rest
  | _ => .incomplete

/-- Format H: a 16-bit operand, low byte first. -/
def decodeH (f : Half → Instr) : List Byte → Decoded
  | lo :: hi :: rest => .ok (f (pack16 hi lo)) rest
  | _ => .incomplete

/-- Format KW: a byte and a 32-bit operand, least significant byte first. -/
def decodeKW (f : Byte → Word → Instr) : List Byte → Decoded
  | k :: b0 :: b1 :: b2 :: b3 :: rest => .ok (f k (pack32 b3 b2 b1 b0)) rest
  | _ => .incomplete

/-- Format G: BEGIN's eight operand bytes. -/
def decodeG (f : Byte → Byte → Byte → Byte → Byte → Byte → Byte → Byte → Instr) : List Byte → Decoded
  | a :: b :: c :: d :: e :: g :: h :: k :: rest => .ok (f a b c d e g h k) rest
  | _ => .incomplete

/-- The opcode map of R91. -/
def decode : List Byte → Decoded
  | [] => .incomplete
  | op :: rest =>
    match op.toNat with
    | 0x10 => decodeP .i2cinit rest
    | 0x11 => decodeB .setlines rest
    | 0x12 => .ok .start rest
    | 0x13 => .ok .stop rest
    | 0x14 => decodeB .sendbyte rest
    | 0x15 => .ok .readack rest
    | 0x16 => decodeB .sendack rest
    | 0x17 => .ok .ack rest
    | 0x18 => .ok .nack rest
    | 0x19 => .ok .readbyte rest
    | 0x20 => decodeG .begin rest
    | 0x21 => decodeP .pinmode rest
    | 0x22 => decodeP .pudctl rest
    | 0x23 => .ok .dread16 rest
    | 0x24 => decodeB .dread rest
    | 0x25 => decodeH .dwrite16 rest
    | 0x26 => decodeP .dwrite rest
    | 0x27 => .ok .dumpregs rest
    | 0x30 => decodeB .sample rest
    | 0x40 => decodeKW .post rest
    | 0x41 => .ok .dispatch rest
    | 0x42 => .ok .mintick rest
    | 0x43 => decodeB .retrytick rest
    | 0x44 => .ok .leveltick rest
    | 0x45 => decodeKW .wrcfg rest
    | 0x46 => decodeB .rdcfg rest
    | _ => .illegal op rest

/-- The length column of R91: how many bytes the command with this opcode byte has; an illegal opcode byte is one
byte long (R97, R99). -/
def commandLength (op : Byte) : Nat :=
  match op.toNat with
  | 0x10 | 0x21 | 0x22 | 0x25 | 0x26 => 3
  | 0x11 | 0x14 | 0x16 | 0x24 | 0x30 | 0x43 | 0x46 => 2
  | 0x20 => 9
  | 0x40 | 0x45 => 6
  | _ => 1

/-- The encoder: the bytes of R91 and R92 for each operation. -/
def encode : Instr → List Byte
  | .i2cinit sdaPin sclPin => [0x10, sdaPin, sclPin]
  | .setlines a => [0x11, a]
  | .start => [0x12]
  | .stop => [0x13]
  | .sendbyte v => [0x14, v]
  | .readack => [0x15]
  | .sendack low => [0x16, low]
  | .ack => [0x17]
  | .nack => [0x18]
  | .readbyte => [0x19]
  | .begin sdaPin sclPin dirA dirB puA puB polA polB => [0x20, sdaPin, sclPin, dirA, dirB, puA, puB, polA, polB]
  | .pinmode pin mode => [0x21, pin, mode]
  | .pudctl pin pud => [0x22, pin, pud]
  | .dread16 => [0x23]
  | .dread pin => [0x24, pin]
  | .dwrite16 value => [0x25, loByte value, hiByte value]
  | .dwrite pin level => [0x26, pin, level]
  | .dumpregs => [0x27]
  | .sample raw => [0x30, raw]
  | .post kind param => [0x40, kind] ++ bytes32 param
  | .dispatch => [0x41]
  | .mintick => [0x42]
  | .retrytick slot => [0x43, slot]
  | .leveltick => [0x44]
  | .wrcfg reg w => [0x45, reg] ++ bytes32 w
  | .rdcfg reg => [0x46, reg]

/-- The first `k` bytes of a number whose bit 0 is the least significant bit of the first byte. -/
def wordBytes : Nat → Nat → List Byte
  | 0, _ => []
  | k + 1, w => BitVec.ofNat 8 w :: wordBytes k (w / 256)

/-- The command stream of a table word: the nine bytes of the longest command (R90), every bit above `nbits` zero, cut to
the length its opcode byte decides (R99). -/
def tableBytes (nbits w : Nat) : List Byte :=
  (wordBytes 9 (w % 2 ^ nbits)).take (commandLength (BitVec.ofNat 8 (w % 2 ^ nbits)))

/-- The instruction the decoder reads from a word of spec/opcode_table.json. -/
def decodeTableWord (nbits w : Nat) : Option Instr :=
  match decode (tableBytes nbits w) with
  | .ok i _ => some i
  | .illegal _ _ => none
  | .incomplete => none

end Sys2Proof
end

