-- ==== Sys2Proof/Config.lean ====
section
/-! DEFINITION. Config.lean: what an implementation fixes (spec/00_scope.md R6, spec/10_state.md R32) and the values
the spec leaves free (spec/93_implementation_defined.md).
"A model takes the open parameters as arguments" (R6): the parameters are one record, `Config`, that State carries in a
field no step writes, so that a statement over all states is a statement over all values of the parameters. -/
namespace Sys2Proof

/-- The four kinds of a signal (R36). -/
inductive SigKind where
  | actSet       -- ACTSET, kind 1
  | levelSample  -- LEVELSAMPLE, kind 2
  | doorEdge     -- DOOREDGE, kind 3
  | upgrade      -- UPGRADE, kind 4
deriving DecidableEq, Repr

/-- A Pending Signal: "signal kind + at most one integer parameter" (R36). -/
structure Signal where
  kind  : SigKind
  param : Word
deriving DecidableEq, Repr

/-- R36 and R96: the parameter of ACTSET and DOOREDGE is 0 or 1, that of the other two kinds is stored as 0. -/
def Signal.wf (g : Signal) : Bool :=
  match g.kind with
  | .actSet | .doorEdge => decide (g.param.toNat ≤ 1)
  | .levelSample | .upgrade => decide (g.param = 0)

/-- The configuration record of one debounce channel, `dbn_cfg[c]` (R32). -/
structure ChannelCfg where
  activeLevel  : Level
  emitActive   : Bool
  emitInactive : Bool
  sigActive    : Signal
  sigInactive  : Signal
deriving DecidableEq, Repr

/-- What the channels of a build post are signals of R36. -/
def ChannelCfg.wf (c : ChannelCfg) : Bool := c.sigActive.wf && c.sigInactive.wf

/-- The parameters of R6. The number of channels `NCH` is the length of State's channel list; the periods
(`tSampleMs`, `tRetryMs`, `tMinuteMs`, `tLevelMs`) are timing only and no rule reads them (R231). -/
structure Config where
  nDeb       : Nat        -- N_DEB, the debounce threshold N
  qcap       : Nat        -- QCAP, the queue capacity
  devAddr7   : BitVec 7   -- DEV_ADDR7
  regBase    : Byte       -- REG_BASE, device address of register index 0
  pumpPin    : BitVec 4   -- PUMP_PIN
  pumpActive : Level      -- PUMP_ACTIVE
  lvlPin     : BitVec 4   -- LVL_PIN
  lvlActive  : Level      -- LVL_ACTIVE
  lvlShift   : Nat        -- LVL_SHIFT
  lvlInvert  : BitVec 10  -- LVL_INVERT
  nameAct    : String     -- NAME_ACT
  nameLevel  : String     -- NAME_LEVEL
  nameDoor   : String     -- NAME_DOOR
  valOn      : String     -- VAL_ON
  valOff     : String     -- VAL_OFF
  valOpen    : String     -- VAL_OPEN
  valClosed  : String     -- VAL_CLOSED
  tSettleMs  : Nat        -- T_SETTLE_MS, what HandleLevelSample asks DELAY for
  tHalfNs    : Nat        -- T_HALF, the duration of one slot, here in nanoseconds
  tSampleMs  : Nat        -- T_SAMPLE_MS
  tRetryMs   : Nat        -- T_RETRY_MS
  tMinuteMs  : Nat        -- T_MINUTE_MS
  tLevelMs   : Nat        -- T_LEVEL_MS
deriving DecidableEq, Repr

/-- The ranges R6 and R15 (d) give the parameters: `N_DEB ≥ 1`, `QCAP ≥ 1`, `REG_BASE ≤ 234`. -/
def Config.wf (c : Config) : Bool :=
  decide (1 ≤ c.nDeb) && decide (1 ≤ c.qcap) && decide (c.regBase.toNat ≤ 234)

/-- The reference and test values of R6 and spec/92_eei_decisions.md D23, D27, D29, D30.
DESIGN CHOICE (log entry 1): an open parameter without a value of its own in R6 takes the test configuration's;
`T_HALF` takes the usual 5 µs of R6 and `T_LEVEL_MS`, of which the spec says nothing, one minute. -/
def Config.reference : Config where
  nDeb := 5
  qcap := 1
  devAddr7 := 0x20
  regBase := 0x00
  pumpPin := 15
  pumpActive := true
  lvlPin := 14
  lvlActive := true
  lvlShift := 0
  lvlInvert := 0
  nameAct := "Cistern"
  nameLevel := "Cistern level"
  nameDoor := "Garage door"
  valOn := "1"
  valOff := "0"
  valOpen := "open"
  valClosed := "closed"
  tSettleMs := 50
  tHalfNs := 5000
  tSampleMs := 50
  tRetryMs := 100
  tMinuteMs := 60000
  tLevelMs := 60000

/-- Channel 0 of the test configuration (spec/92_eei_decisions.md D23): raw 1 is active, both polarities are emitted,
DOOREDGE(1) on active and DOOREDGE(0) on inactive. -/
def ChannelCfg.door : ChannelCfg where
  activeLevel := true
  emitActive := true
  emitInactive := true
  sigActive := ⟨.doorEdge, 1⟩
  sigInactive := ⟨.doorEdge, 0⟩

/-- `NREG`: expander registers shadowed (R6). -/
abbrev nReg : Nat := 22

/-- FREE VALUE (log entry 3; R83, U12): the slave's drive `sda_s` in the n-th sampled slot of an oracle slave. -/
opaque Config.freeSda : Nat → Level

/-- FREE VALUE (log entry 4; R44, U11): the answer on UPG_ACK to a call of `requestFirmwareUpgrade`. -/
opaque Config.freeUpgAck : Nat → Bool

/-- How a device reads one slot that changes SDA and SCL together (U5; DESIGN CHOICE, log entry 5). With `sdaFirst` and `sclFirst` R80's
decoder sees two edges in that order; with `sclAlone` it sees the SCL edge and no START or STOP, as R113 says of both lines rising
for a device that sees SCL rise first. -/
inductive EdgeOrder where
  | sdaFirst
  | sclFirst
  | sclAlone
deriving DecidableEq, Repr, Inhabited

/-- FREE VALUE (log entry 5; U5): how a device reads a slot that changes both lines. -/
opaque Config.freeEdgeOrder : Nat → EdgeOrder

end Sys2Proof
end

