-- ==== Sys2Proof/Machine/Memory.lean ====
section
/-! DEFINITION. Memory.lean: byte memory as a canonical list of (address, byte) cells. It holds the shadow space
(spec/20_memory.md R60 (1)) and the register file of the reference device (R60 (2), R80). The byte is the unit of
addressing; an unlisted address reads as 0x00, the reset content R46 gives the shadow. -/
namespace Sys2Proof.Machine

/-- A memory: cells with strictly rising addresses, none holding what an unlisted address reads as. -/
abbrev Memory := List Host.Cell

/-- What an unlisted address reads as (R46: `shadow[0..21]` is 0x00 each). -/
def Memory.unlisted : Byte := 0x00

/-- The canonical form. -/
abbrev Memory.wf (m : Memory) : Prop :=
  m.Pairwise (fun a b => a.1 < b.1) ∧ ∀ c ∈ m, c.2 ≠ Memory.unlisted

/-- Every listed address is a register index, 0 ≤ i < 22 (R25, R67). -/
abbrev Memory.inRange (m : Memory) : Prop := ∀ c ∈ m, c.1 < 22

/-- Read one byte. -/
def Memory.read : Memory → Nat → Byte
  | [], _ => Memory.unlisted
  | (b, w) :: m, a => if a = b then w else Memory.read m a

/-- Put a cell before a tail of higher addresses, unless it holds the unlisted byte. -/
def Memory.cons (a : Nat) (v : Byte) (m : Memory) : Memory :=
  if v = Memory.unlisted then m else (a, v) :: m

/-- Write one byte, keeping the canonical form. -/
def Memory.write : Memory → Nat → Byte → Memory
  | [], a, v => Memory.cons a v []
  | (b, w) :: m, a, v =>
    if a < b then Memory.cons a v ((b, w) :: m)
    else if a = b then Memory.cons a v m
    else (b, w) :: Memory.write m a v

end Sys2Proof.Machine
end

