-- ==== Sys2Proof/Machine/State.lean ====
section
/-! DEFINITION. State.lean: the block state of spec/10_state.md R20, field by field, the command and result ports
(spec/30_encoding.md R90, R102), and the environment the block is wired to (spec/00_scope.md R8 (c)): the slave on SDA, the
answers on UPG_ACK. All of it is plain data. -/
namespace Sys2Proof.Machine

/-- The I2C Bus Handle (R22); the half-cycle delay is the parameter `T_HALF`. -/
structure I2c where
  sdaPin  : Byte
  sclPin  : Byte
  lastSda : Level
  lastScl : Level
deriving DecidableEq, Repr

/-- One slot of the waveform: the levels the master drives during one half-cycle delay (R24). -/
structure Slot where
  sda : Level
  scl : Level
deriving DecidableEq, Repr

/-- The status codes of spec/60_exceptions.md R220. -/
inductive Status where
  | ok          -- 0
  | nakAddr     -- 1
  | nakPtr      -- 2
  | nakData     -- 3
  | invalidArg  -- 4
  | queueFull   -- 5
  | illegalCmd  -- 6
deriving DecidableEq, Repr

/-- The result record `S.res` (R33). -/
structure Res where
  status : Status
  index  : Byte
  value  : Half
  data   : List Byte   -- 22 bytes, written by DUMPREGS only
  word   : Word        -- written by RDCFG only
deriving DecidableEq, Repr

/-- One debounce channel: its configuration `dbn_cfg[c]` (R32), counter `cnt[c]` (R31) and retry slot `retry[DBN(c)]`
(R37). -/
structure Channel where
  cfg  : ChannelCfg
  cnt  : Int
  held : Option Signal
deriving DecidableEq, Repr

/-- The sticky record `S.dsp_err` (R40). -/
structure DspErr where
  flag   : Bool
  status : Status
  index  : Byte
deriving DecidableEq, Repr

/-- `dev.sel` of the reference device (R80). -/
inductive DevSel where
  | none
  | addr
  | write
  | read
deriving DecidableEq, Repr

/-- Where the reference device stands inside a byte: the bus decoder of R80, slot by slot. -/
inductive DevLink where
  | idle                     -- not taking part; SDA released
  | recv (n : Nat)           -- taking a byte, n bits taken
  | acking                   -- holding SDA low for the acknowledge clock
  | send (n : Nat)           -- driving bit 7-n of the byte it sends
  | awaitAck                 -- SDA released for the master's acknowledge bit
  | gotAck (low : Bool)      -- the master's acknowledge bit was taken
deriving DecidableEq, Repr

/-- The reference device of spec/20_memory.md R80, with the fault injection of R81 and the pin semantics of R82. Environment, not
part of the block. -/
structure Device where
  reg   : Memory               -- dev.reg[0..21]
  ptr   : Nat                  -- dev.ptr, 0..21
  sel   : DevSel               -- dev.sel
  first : Bool                 -- dev.first
  nakAt : Option Nat           -- R81 nak_at
  pins  : Option Half          -- R82 dev.pin; none: the plain register file of R80
  link  : DevLink              -- bus decoder: position inside the byte
  shift : Byte                 -- bus decoder: bits taken, or the byte being sent
  drive : Level                -- sda_s, the device's drive of SDA
  count : Nat                  -- bytes received since the START that opened the transaction (R81)
  inTx  : Bool                 -- a transaction is open: START seen, no STOP since (R14)
  deaf  : Bool                 -- R81: ignoring the rest of the transaction
deriving DecidableEq, Repr

/-- Who drives SDA against the master (R23, R83): nobody; an oracle, whose drive in each sampled slot is the next input bit
and, when no input bit is given, a free value; or the reference device. -/
inductive Slave where
  | absent
  | oracle (script : List Level)
  | reference (d : Device)
deriving DecidableEq, Repr

/-- The environment's side of the ports (R8 (c)): the slave, the answers waiting on UPG_ACK, and the model's own
counter of free values consumed. -/
structure Env where
  slave  : Slave
  upgAck : List Bool
  tick   : Nat
deriving DecidableEq, Repr

/-- The block state `S` (R20), the command stream not yet accepted (`cmd`), the bytes on the result port (`port`), the
parameters (`cfg`) and the environment (`env`). -/
structure State where
  cmd          : List Byte               -- command port, oldest byte first (R90)
  cfg          : Config                  -- the parameters of R6; no rule writes them
  i2c          : I2c                     -- R22
  wave         : List Slot               -- R24, oldest first
  shadow       : Memory                  -- R25, indices 0..21
  synced       : Bool                    -- R28
  res          : Res                     -- R33
  chans        : List Channel            -- cnt, dbn_cfg, retry[DBN(c)] for c in 0..NCH-1
  queue        : List Signal             -- R35, head first
  heldAct      : Option Signal           -- retry[8], the minute timer's slot (R37)
  heldLvl      : Option Signal           -- retry[9], the level timer's slot (R37)
  actOn        : Bool                    -- R38
  actCountdown : Half                    -- R38, whole minutes
  minArmed     : Bool                    -- R38
  actDuration  : Half                    -- R39
  upgVersion   : Word                    -- R39
  dspErr       : DspErr                  -- R40
  upgLast      : Bool                    -- R41
  pub          : List (String × String)  -- R43, oldest first
  delayLog     : List Nat                -- R44, milliseconds, oldest first
  upgLog       : List Word               -- R44
  port         : List Byte               -- R102, what the result port presents
  env          : Env
deriving DecidableEq, Repr

/-- The reasons a step can stop with a fault: none. "Nothing is fatal and nothing halts" and "there is no fault bit that stops
the block" (spec/60_exceptions.md R223); "the block has no exceptions" (R11), a failure is a returned status (R228). The type has
no constructor, so no step and no instruction can answer a fault. -/
inductive Fault where
deriving DecidableEq, Repr

/-- The reasons a step can be refused. -/
inductive Refusal where
  /-- Raised only by `exec` for an instruction whose meaning is not written; no arm of `exec` does so. Safe. -/
  | notModelled (mnemonic : String)
deriving DecidableEq, Repr

/-- `NCH`, the number of debounce channels of the build (R6). -/
def State.nch (s : State) : Nat := s.chans.length

/-- The output ports `sda_o` and `scl_o` (R23): the last-driven levels. -/
def State.lines (s : State) : Slot := ⟨s.i2c.lastSda, s.i2c.lastScl⟩

/-- The result record after reset: all zero (R46). -/
def Res.reset : Res := ⟨.ok, 0, 0, List.replicate 22 0, 0⟩

/-- A channel after reset: counter 0, retry slot empty (R46). -/
def Channel.reset (c : ChannelCfg) : Channel := ⟨c, 0, none⟩

/-- The state after reset (R46, R250) of a build with the parameters `c` and the channels `ch`, in the environment
`e`. -/
def State.resetWith (c : Config) (ch : List ChannelCfg) (e : Env) : State where
  cmd := []
  cfg := c
  i2c := ⟨0, 0, true, true⟩
  wave := []
  shadow := []
  synced := false
  res := Res.reset
  chans := ch.map Channel.reset
  queue := []
  heldAct := none
  heldLvl := none
  actOn := false
  actCountdown := 0
  minArmed := false
  actDuration := 0
  upgVersion := 0
  dspErr := ⟨false, .ok, 0⟩
  upgLast := false
  pub := []
  delayLog := []
  upgLog := []
  port := []
  env := e

/-- The unconstrained environment: every sampled slot and every UPG_ACK answer is a free value (R83, R251, U11,
U12). -/
def Env.free : Env := ⟨.oracle [], [], 0⟩

/-- The machine right after reset (R46, R250), with the reference parameters and the test channel (log entries 1, 2) in the
unconstrained environment. -/
def State.reset : State := State.resetWith Config.reference [ChannelCfg.door] Env.free

end Sys2Proof.Machine
end

