-- ==== Sys2Proof/Machine/Operands.lean ====
section
/-! DEFINITION. Operands.lean: the operand checks and operand assembly of spec/30_encoding.md R92 to R98, the bit fields of
spec/00_scope.md R10, and the pairs of spec/10_state.md R29 and R30. -/
namespace Sys2Proof.Machine

/-- `v[i] <- b` at width `n` (R10). -/
def setBit {n : Nat} (v : BitVec n) (i : Nat) (b : Bool) : BitVec n :=
  if b then v ||| (1#n <<< i) else v &&& ~~~(1#n <<< i)

/-- R29: pins 0..15 are accepted, 16..255 are out of range. -/
def pinOk (pin : Byte) : Bool := pin < 16

/-- R93: the modes of PINMODE. -/
inductive PinMode where
  | input
  | output
  | inputPullup
deriving DecidableEq, Repr

/-- R93: INPUT 0, OUTPUT 1, INPUT_WITH_PULLUP 2, no other. -/
def pinModeOf (mode : Byte) : Option PinMode :=
  if mode = 0 then some .input
  else if mode = 1 then some .output
  else if mode = 2 then some .inputPullup
  else none

/-- The direction bit the mode sets: 1 is input (R27, R132). -/
def PinMode.dirBit : PinMode → Bool
  | .input => true
  | .inputPullup => true
  | .output => false

/-- The pull-up bit the mode sets: 1 enables (R27, R132). -/
def PinMode.puBit : PinMode → Bool
  | .input => false
  | .inputPullup => true
  | .output => false

/-- R93: PUD_OFF 0 and PUD_UP 2; PUD_DOWN 1 is named and refused. The answer is the pull-up bit. -/
def pudBitOf (pud : Byte) : Option Bool :=
  if pud = 0 then some false
  else if pud = 2 then some true
  else none

/-- R93: a flag operand that is 0 or 1 (`level` of DWRITE, `low` of SENDACK). -/
def flagOf (b : Byte) : Option Bool :=
  if b = 0 then some false
  else if b = 1 then some true
  else none

/-- R94: the two levels of SETLINES, or none when a reserved bit is set. -/
def linesOf (a : Byte) : Option Slot :=
  if a &&& 0xFC = 0 then some ⟨a.getLsbD 1, a.getLsbD 0⟩ else none

/-- R36, R96: the number of a signal kind. -/
def kindOf (k : Byte) : Option SigKind :=
  if k = 1 then some .actSet
  else if k = 2 then some .levelSample
  else if k = 3 then some .doorEdge
  else if k = 4 then some .upgrade
  else none

/-- R96, R181: the signal a POST asks to enqueue, or none when its operands are refused. -/
def signalOf (k : Byte) (param : Word) : Option Signal :=
  match kindOf k with
  | some .actSet => if param ≤ 1 then some ⟨.actSet, param⟩ else none
  | some .levelSample => some ⟨.levelSample, 0⟩
  | some .doorEdge => if param ≤ 1 then some ⟨.doorEdge, param⟩ else none
  | some .upgrade => some ⟨.upgrade, 0⟩
  | none => none

/-- The internal producers that own a retry slot (R37). -/
inductive Producer where
  | dbn (c : Nat)
  | act
  | lvl
deriving DecidableEq, Repr

/-- R37, R93: slot numbers 0..NCH-1 are the channels, 8 the minute timer, 9 the level timer. -/
def producerOf (nch : Nat) (slot : Byte) : Option Producer :=
  if slot.toNat < nch then some (.dbn slot.toNat)
  else if slot = 8 then some .act
  else if slot = 9 then some .lvl
  else none

/-- The register indices of R25 the driver uses by name. -/
abbrev regDirA : Nat := 0
abbrev regDirB : Nat := 1
abbrev regPolA : Nat := 2
abbrev regPolB : Nat := 3
abbrev regPullupA : Nat := 12
abbrev regPullupB : Nat := 13
abbrev regGpioA : Nat := 18
abbrev regGpioB : Nat := 19
abbrev regLatchA : Nat := 20
abbrev regLatchB : Nat := 21

/-- R30: `Pair(i) = shadow[i+1] ++ shadow[i]`, i the index of a port-A register. -/
def pairAt (m : Memory) (i : Nat) : Half := pack16 (Memory.read m (i + 1)) (Memory.read m i)

/-- R63: a 16-bit value travels port A (low byte) first. -/
def portBytes (v : Half) : List Byte := [loByte v, hiByte v]

/-- R64: the address byte of a write, `DEV_ADDR7 ++ 0`. -/
def writeAddr (c : Config) : Byte := c.devAddr7 ++ 0#1

/-- R64: the address byte of a read, `WADDR | 1`. -/
def readAddr (c : Config) : Byte := writeAddr c ||| 1

/-- R25, R15 (d): the register-pointer byte of index `i`, `REG_BASE + i`. -/
def regPtr (c : Config) (i : Nat) : Byte := c.regBase + BitVec.ofNat 8 i

/-- R37: the retry slot of a producer. -/
def State.retry (s : State) : Producer → Option Signal
  | .dbn c => (s.chans[c]?).bind (·.held)
  | .act => s.heldAct
  | .lvl => s.heldLvl

/-- Write the retry slot of a producer. -/
def State.setRetry (s : State) (p : Producer) (v : Option Signal) : State :=
  match p with
  | .dbn c => { s with chans := s.chans.modify c (fun ch => { ch with held := v }) }
  | .act => { s with heldAct := v }
  | .lvl => { s with heldLvl := v }

/-- R31: `cnt[c]`. -/
def State.cnt (s : State) (c : Nat) : Option Int := (s.chans[c]?).map (·.cnt)

/-- R32: `dbn_cfg[c]`. -/
def State.dbnCfg (s : State) (c : Nat) : Option ChannelCfg := (s.chans[c]?).map (·.cfg)

end Sys2Proof.Machine
end

