-- ==== Sys2Proof/Machine/Flags.lean ====
section
/-! DEFINITION. Flags.lean: the results and status flags of spec/10_state.md R33, R34 and spec/60_exceptions.md R220. The block
has no condition codes; what plays the part of flags is `res.status`, `synced`, `dsp_err.flag`, `min_armed`, `upg_last` and the
occupancy of the queue and of the retry slots. -/
namespace Sys2Proof.Machine

/-- The number of a status code (R220). -/
def Status.code : Status → Byte
  | .ok => 0
  | .nakAddr => 1
  | .nakPtr => 2
  | .nakData => 3
  | .invalidArg => 4
  | .queueFull => 5
  | .illegalCmd => 6

/-- What an operation or procedure returns: `(status, index, value)` (R13, R33). -/
structure Result where
  status : Status
  index  : Byte
  value  : Half
deriving DecidableEq, Repr

/-- `return (OK)`. -/
abbrev Result.ok : Result := ⟨.ok, 0, 0⟩

/-- `return (OK, value = v)`. -/
abbrev Result.okValue (v : Half) : Result := ⟨.ok, 0, v⟩

/-- `return (OK, value = b)` for a flag, in bit 0 of value (R33). -/
abbrev Result.okFlag (b : Bool) : Result := ⟨.ok, 0, if b then 1 else 0⟩

/-- `return (INVALID_ARG, 0, value = 0)` (R130). -/
abbrev Result.invalidArg : Result := ⟨.invalidArg, 0, 0⟩

/-- `return (QUEUE_FULL, value = 0)` (R181). -/
abbrev Result.queueFull : Result := ⟨.queueFull, 0, 0⟩

/-- The result of an illegal opcode byte (R97). -/
abbrev Result.illegalCmd : Result := ⟨.illegalCmd, 0, 0⟩

/-- Every operation overwrites `status`, `index` and `value`; `data` and `word` are kept (R33). -/
def State.setResult (s : State) (r : Result) : State :=
  { s with res := { s.res with status := r.status, index := r.index, value := r.value } }

/-- R194 `NoteErr(r)`: the sticky record takes a result whose status is not OK (R40). -/
def noteErr (r : Result) (s : State) : State :=
  if r.status = .ok then s else { s with dspErr := ⟨true, r.status, r.index⟩ }

/-- One bit as a number of the result port's or configuration port's width. -/
def bit {n : Nat} (b : Bool) : BitVec n := if b then 1#n else 0#n

/-- R42 `QUEUE_STATE` bit 16+p: retry slot p is occupied. -/
def State.occupied (s : State) (p : Producer) : Bool := (s.retry p).isSome

end Sys2Proof.Machine
end

