-- ==== Sys2Proof/Machine/Slave.lean ====
section
/-! DEFINITION. Slave.lean: the environment of the bus: the reference device of spec/20_memory.md R80 to R82 as a function of the
slots the master drives, and the binding of a slave to the slots (R83, spec/10_state.md R23). -/
namespace Sys2Proof.Machine

/-! ## The register file (R80, R82) -/

/-- R82: a read of GPIO_x gives the latch bit where DIR_x is 0 and `pin XOR POL_x` where it is 1. -/
def gpioLevels (latch dir pol pin : Byte) : Byte := (latch &&& ~~~dir) ||| ((pin ^^^ pol) &&& dir)

/-- The byte the device sends for register `i`. -/
def Device.readReg (d : Device) (i : Nat) : Byte :=
  match d.pins with
  | none => Memory.read d.reg i
  | some p =>
    if i = regGpioA then
      gpioLevels (Memory.read d.reg regLatchA) (Memory.read d.reg regDirA) (Memory.read d.reg regPolA) (loByte p)
    else if i = regGpioB then
      gpioLevels (Memory.read d.reg regLatchB) (Memory.read d.reg regDirB) (Memory.read d.reg regPolB) (hiByte p)
    else Memory.read d.reg i

/-- The register file after the device stored `v` in register `i`: with the pin semantics a write to GPIO_x stores into LATCH_x
as well and writes to 14..17 are ignored (R82). -/
def Device.storeReg (d : Device) (i : Nat) (v : Byte) : Memory :=
  match d.pins with
  | none => Memory.write d.reg i v
  | some _ =>
    if i = regGpioA then Memory.write (Memory.write d.reg regGpioA v) regLatchA v
    else if i = regGpioB then Memory.write (Memory.write d.reg regGpioB v) regLatchB v
    else if 14 ≤ i ∧ i ≤ 17 then d.reg
    else Memory.write d.reg i v

/-! ## The bus events of R80 -/

/-- The device stops taking part: SDA released. -/
def Device.release (d : Device) : Device := { d with link := .idle, drive := true }

/-- on START. DESIGN CHOICE (log entry 10): a device that drives SDA low releases it at once, while SCL is high; R80 changes only `dev.sel`
here. A START inside an open transaction is a repeated START: the count of R81 goes on, and a device that ignores
the rest of the transaction stays out. -/
def Device.onStart (d : Device) : Device :=
  if d.inTx && d.deaf then Device.release { d with sel := .none }
  else
    { d with
      sel := .addr, link := .recv 0, shift := 0, drive := true
      count := if d.inTx then d.count else 0
      inTx := true, deaf := false }

/-- on STOP. DESIGN CHOICE (log entry 10): SDA is released at once, while SCL is high; R80 changes only `dev.sel` here. -/
def Device.onStop (d : Device) : Device :=
  Device.release { d with sel := .none, inTx := false, deaf := false }

/-- The device acknowledges: SDA low for the ninth clock pulse (`sda_s = 0`). -/
def Device.acknowledge (d : Device) : Device := { d with link := .acking, drive := false }

/-- R80: `(B - REG_BASE) mod 22`, on integers. -/
def ptrOf (c : Config) (b : Byte) : Nat := (((b.toNat : Int) - (c.regBase.toNat : Int)) % 22).toNat

/-- on byte B (R80), with the fault injection of R81: the byte numbered `nak_at` is not acknowledged, not stored, and ends the
device's part in the transaction. -/
def Device.onByte (c : Config) (b : Byte) (d : Device) : Device :=
  let e := { d with count := d.count + 1 }
  if d.nakAt = some d.count then Device.release { e with sel := .none, deaf := true }
  else
    match d.sel with
    | .addr =>
      if b.extractLsb' 1 7 = c.devAddr7 then
        Device.acknowledge { e with sel := if b.getLsbD 0 then .read else .write, first := true }
      else Device.release { e with sel := .none }
    | .write =>
      if d.first then Device.acknowledge { e with ptr := ptrOf c b, first := false }
      else Device.acknowledge { e with reg := d.storeReg d.ptr b, ptr := (d.ptr + 1) % 22 }
    | .read => Device.release e
    | .none => Device.release e

/-- on byte wanted (R80): drive `dev.reg[dev.ptr]`, bit 7 first, and advance the pointer. DESIGN CHOICE (log entry 10): the byte is wanted,
fetched and counted as read (R74) when SCL falls after an acknowledge, before its bit 7 is clocked, so a read broken off before or
within a byte has moved the pointer all the same; R74 and R80 do not say when the event falls. -/
def Device.onByteWanted (d : Device) : Device :=
  { d with
    link := .send 0, shift := d.readReg d.ptr, drive := (d.readReg d.ptr).getLsbD 7
    ptr := (d.ptr + 1) % 22 }

/-! ## The bus decoder of R80: SDA edges under high SCL, bits at the rising edges of SCL -/

/-- SCL rises with the master's level `b` on SDA. DESIGN CHOICE (log entry 10): a device that is not taking part (`link` idle: not addressed,
or released after a read) takes no bits, so bytes sent meanwhile are none that it "receives" and do not count toward `nak_at` (R81). -/
def Device.onRise (b : Level) (d : Device) : Device :=
  match d.link with
  | .recv n => if n < 8 then { d with link := .recv (n + 1), shift := (d.shift <<< 1) ||| bit b } else d
  | .awaitAck => { d with link := .gotAck (!b) }
  | .idle => d
  | .acking => d
  | .send _ => d
  | .gotAck _ => d

/-- SCL falls: the slave's time to change its drive (R83). DESIGN CHOICE (log entry 10): a byte received is taken here, after its eighth bit,
and a byte wanted is fetched here, before its first. -/
def Device.onFall (c : Config) (d : Device) : Device :=
  match d.link with
  | .recv n => if n = 8 then d.onByte c d.shift else d
  | .acking =>
    if d.sel = .read then d.onByteWanted
    else { d with link := .recv 0, shift := 0, drive := true }
  | .send n =>
    if n < 7 then { d with link := .send (n + 1), drive := d.shift.getLsbD (6 - n) }
    else { d with link := .awaitAck, drive := true }
  | .gotAck low => if low then d.onByteWanted else d.release
  | .idle => d
  | .awaitAck => d

/-- The device's reaction to one line change, from the slot `p` to the slot `q`, of which at most one line differs. -/
def Device.edge (c : Config) (p q : Slot) (d : Device) : Device :=
  if p.scl && q.scl then
    if p.sda && !q.sda then d.onStart
    else if !p.sda && q.sda then d.onStop
    else d
  else if q.scl then d.onRise q.sda
  else if p.scl then d.onFall c
  else d

/-- The device's reaction to one slot that changes both lines, read in one of the three ways. R113 says that both lines rising from
(0,0) is neither START nor STOP for a device that sees SCL rise first; R80's decoder calls the SDA edge that then follows a STOP.
DESIGN CHOICE (log entry 5): `sclFirst` is R80's reading, `sclAlone` is R113's, and both are admitted. -/
def Device.bothEdges (c : Config) (p q : Slot) (d : Device) : EdgeOrder → Device
  | .sdaFirst => Device.edge c ⟨q.sda, p.scl⟩ q (Device.edge c p ⟨q.sda, p.scl⟩ d)
  | .sclFirst => Device.edge c ⟨p.sda, q.scl⟩ q (Device.edge c p ⟨p.sda, q.scl⟩ d)
  | .sclAlone => Device.edge c p ⟨p.sda, q.scl⟩ d

/-! ## The slave on the bus -/

/-- The environment sees the master's lines go from `p` to `q`. When one slot changes both lines, how the device reads them is a
free value (U5; DESIGN CHOICE, log entry 5: one of the three readings of `EdgeOrder`). -/
def Env.observe (c : Config) (p q : Slot) (e : Env) : Env :=
  match e.slave with
  | .absent => e
  | .oracle _ => e
  | .reference d =>
    if p.sda ≠ q.sda ∧ p.scl ≠ q.scl then
      { e with slave := .reference (d.bothEdges c p q (Config.freeEdgeOrder e.tick)), tick := e.tick + 1 }
    else { e with slave := .reference (Device.edge c p q d) }

/-- `sda_s` in the current slot, and the environment after it was sampled (R83). -/
def Env.sda (e : Env) : Level × Env :=
  match e.slave with
  | .absent => (true, e)
  | .oracle (b :: bs) => (b, { e with slave := .oracle bs })
  | .oracle [] => (Config.freeSda e.tick, { e with tick := e.tick + 1 })
  | .reference d => (d.drive, e)

/-- The answer on UPG_ACK (R44): the next input bit or, when none is given, a free value (U11). -/
def Env.answerUpgrade (e : Env) : Bool × Env :=
  match e.upgAck with
  | b :: bs => (b, { e with upgAck := bs })
  | [] => (Config.freeUpgAck e.tick, { e with tick := e.tick + 1 })

end Sys2Proof.Machine
end

