-- ==== Sys2Proof/Machine/Ops.lean ====
section
/-! DEFINITION. Ops.lean: the named operations every meaning is built from: the line primitives of U1 (spec/40_i2c_engine.md), the
shadow, the transactions XWRITE and XREAD (spec/20_memory.md R65, R66), the queue and retry slots (spec/43_dispatcher_actuator.md
R181, R183), the outputs (R11), and how an operation returns, which is what the block has in place of taking an exception
and returning from one (spec/60_exceptions.md R228, R229). -/
namespace Sys2Proof.Machine

/-! ## Returning: what stands in place of a trap (R228)

"There is no trap entry: no state is saved, no mode changes, no vector is taken. A failure is delivered as the result of the
operation that met it, at the point the operation ends"; there is "no return operation and nothing to restore" (R229). -/

/-- An operation ends: its status, index and value go to the result record. -/
def finish (r : Result) (s : State) : Host.Outcome State Fault Refusal := .next (s.setResult r)

/-- An operation ends with the result of a procedure. -/
def finishWith (p : Result × State) : Host.Outcome State Fault Refusal := finish p.1 p.2

/-! ## U1: lines, slots, primitives -/

/-- `SETLINES(sda, scl)` (R112): drive both lines, record the levels, hold them for one slot (`Emit`, R110). The
environment sees the new levels. -/
def setLines (q : Slot) (s : State) : State :=
  { s with
    i2c := { s.i2c with lastSda := q.sda, lastScl := q.scl }
    wave := s.wave ++ [q]
    env := s.env.observe s.cfg s.lines q }

/-- SETLINES once for each slot of a list. -/
def drive : List Slot → State → State
  | [], s => s
  | q :: qs, s => drive qs (setLines q s)

/-- `SampleSDA()` (R111): the level of the wire at the end of the current slot, `last_sda AND sda_s`. Of the state only the
environment's inputs move on. -/
def sampleSda (s : State) : Level × State := (s.i2c.lastSda && s.env.sda.1, { s with env := s.env.sda.2 })

/-- START (R114). -/
def start (s : State) : State := drive [⟨true, s.i2c.lastScl⟩, ⟨true, true⟩, ⟨false, true⟩] s

/-- STOP (R115). -/
def stop (s : State) : State := drive [⟨false, s.i2c.lastScl⟩, ⟨false, true⟩, ⟨true, true⟩] s

/-- The three slots of one bit of SENDBYTE: put out while SCL is low, SCL high, SCL low again (R116). -/
def bitSlots (b : Level) : List Slot := [⟨b, false⟩, ⟨b, true⟩, ⟨b, false⟩]

/-- The 24 bit slots of a byte, bit 7 first (R62, R116). -/
def byteSlots (v : Byte) : List Slot := [7, 6, 5, 4, 3, 2, 1, 0].flatMap fun n => bitSlots (v.getLsbD n)

/-- SENDBYTE (R116). -/
def sendByte (v : Byte) (s : State) : State := drive (⟨s.i2c.lastSda, false⟩ :: byteSlots v) s

/-- READACK (R117): the answer is `ack`, true when the wire was low. -/
def readAck (s : State) : Bool × State :=
  let p := sampleSda (drive [⟨s.i2c.lastSda, false⟩, ⟨true, false⟩, ⟨true, true⟩] s)
  (!p.1, drive [⟨true, false⟩] p.2)

/-- SENDACK (R118): `low` pulls the line low, the acknowledge. -/
def sendAck (low : Bool) (s : State) : State :=
  drive [⟨s.i2c.lastSda, false⟩, ⟨!low, false⟩, ⟨!low, true⟩, ⟨!low, false⟩, ⟨true, false⟩] s

/-- The bit loop of READBYTE (R121): release SDA with SCL low, raise SCL, sample `v[n]`. -/
def readBits : List Nat → Byte → State → Byte × State
  | [], v, s => (v, s)
  | n :: ns, v, s =>
    let p := sampleSda (drive [⟨true, false⟩, ⟨true, true⟩] s)
    readBits ns (setBit v n p.1) p.2

/-- READBYTE (R121). -/
def readByte (s : State) : Byte × State :=
  let p := readBits [7, 6, 5, 4, 3, 2, 1, 0] 0 (drive [⟨s.i2c.lastSda, false⟩] s)
  (p.1, drive [⟨true, false⟩] p.2)

/-- `I2CINIT(sda_pin, scl_pin)` (R113): record the pins, release both lines. -/
def i2cInit (sdaPin sclPin : Byte) (s : State) : State :=
  setLines ⟨true, true⟩ { s with i2c := { s.i2c with sdaPin := sdaPin, sclPin := sclPin } }

/-! ## U2: the shadow and the two transactions -/

/-- `shadow[i] <- v` (R11, R26). -/
def State.setShadow (s : State) (i : Nat) (v : Byte) : State := { s with shadow := Memory.write s.shadow i v }

/-- SENDBYTE then READACK: a byte with its ninth clock pulse (R62). -/
def sendAcked (v : Byte) (s : State) : Bool × State := readAck (sendByte v s)

/-- The data bytes of XWRITE from number `j` on, and the STOP (R65). -/
def writeBytes (i : Nat) : Nat → List Byte → State → Result × State
  | _, [], s => (.ok, stop s)
  | j, d :: ds, s =>
    let p := sendAcked d s
    if p.1 then writeBytes i (j + 1) ds (p.2.setShadow (i + j) d)
    else (⟨.nakData, BitVec.ofNat 8 j, 0⟩, stop p.2)

/-- Procedure `XWRITE(i, data)` (R65). -/
def xwrite (i : Nat) (data : List Byte) (s : State) : Result × State :=
  let p := sendAcked (writeAddr s.cfg) (start s)
  if p.1 then
    let q := sendAcked (regPtr s.cfg i) p.2
    if q.1 then writeBytes i 0 data q.2
    else (⟨.nakPtr, 0, 0⟩, stop q.2)
  else (⟨.nakAddr, 0, 0⟩, stop p.2)

/-- The byte loop of XREAD (R66): `k` bytes into register `i` and up, every one acknowledged except the last; the shadow is
updated when `update` is set. The answer is the list of bytes read. -/
def readBytes (update : Bool) : Nat → Nat → State → List Byte × State
  | 0, _, s => ([], s)
  | k + 1, i, s =>
    let p := readByte s
    let t := sendAck (decide (k ≠ 0)) p.2
    let r := readBytes update k (i + 1) (if update then t.setShadow i p.1 else t)
    (p.1 :: r.1, r.2)

/-- What XREAD returns: the result and the bytes read. -/
structure ReadResult where
  result : Result
  bytes  : List Byte
deriving DecidableEq, Repr

/-- Procedure `XREAD(i, k, update)` (R66); a failed read has read no byte. -/
def xread (i k : Nat) (update : Bool) (s : State) : ReadResult × State :=
  let p := sendAcked (writeAddr s.cfg) (start s)
  if p.1 then
    let q := sendAcked (regPtr s.cfg i) p.2
    if q.1 then
      let r := sendAcked (readAddr s.cfg) (start q.2)
      if r.1 then
        let b := readBytes update k i r.2
        (⟨.ok, b.1⟩, stop b.2)
      else (⟨⟨.nakAddr, 1, 0⟩, []⟩, stop r.2)
    else (⟨⟨.nakPtr, 0, 0⟩, []⟩, stop q.2)
  else (⟨⟨.nakAddr, 0, 0⟩, []⟩, stop p.2)

/-! ## The driver operations that others invoke in place (R13) -/

/-- `DREAD16()` (R134): when the read failed the value is the packed GPIO shadow as it stood. -/
def dread16 (s : State) : Result × State :=
  let p := xread regGpioA 2 true s
  ({ p.1.result with value := pairAt p.2.shadow regGpioA }, p.2)

/-- `DWRITE16(value)` (R136). -/
def dwrite16 (value : Half) (s : State) : Result × State := xwrite regGpioA (portBytes value) s

/-- `DWRITE(pin, level)` with accepted operands (R137): set or clear one bit of the GPIO shadow and write the pair. -/
def dwriteBit (pin : Nat) (level : Level) (s : State) : Result × State :=
  dwrite16 (setBit (pairAt s.shadow regGpioA) pin level) s

/-! ## U4: queue, retry slots, outputs -/

/-- `TryPost(sig)` (R181): the queue with the signal at its end, or none when it is full. -/
def tryPost (cap : Nat) (sig : Signal) (queue : List Signal) : Option (List Signal) :=
  if queue.length < cap then some (queue ++ [sig]) else none

/-- `PostOrHold(p, sig)` (R183) on the producer's retry slot and the queue: an occupied slot takes the newer signal; else the
signal is posted, or held when the queue is full. -/
def postOrHold (cap : Nat) (sig : Signal) (held : Option Signal) (queue : List Signal) :
    Option Signal × List Signal :=
  match held with
  | some _ => (some sig, queue)
  | none =>
    match tryPost cap sig queue with
    | some q => (none, q)
    | none => (some sig, queue)

/-- `PostOrHold(ACT, sig)`: the minute timer's post. -/
def postAct (sig : Signal) (s : State) : State :=
  let p := postOrHold s.cfg.qcap sig s.heldAct s.queue
  { s with heldAct := p.1, queue := p.2 }

/-- `PostOrHold(LVL, sig)`: the level timer's post. -/
def postLvl (sig : Signal) (s : State) : State :=
  let p := postOrHold s.cfg.qcap sig s.heldLvl s.queue
  { s with heldLvl := p.1, queue := p.2 }

/-- `Publish(name, value)` (R43). -/
def publish (name value : String) (s : State) : State := { s with pub := s.pub ++ [(name, value)] }

/-- `Delay(ms)` (R44). -/
def delayMs (ms : Nat) (s : State) : State := { s with delayLog := s.delayLog ++ [ms] }

end Sys2Proof.Machine
end

