-- ==== Sys2Proof/Machine/ConfigPort.lean ====
section
/-! DEFINITION. ConfigPort.lean: the configuration and status registers (spec/10_state.md R42) and their two operations WRCFG and RDCFG
(spec/43_dispatcher_actuator.md R187, R197). -/
namespace Sys2Proof.Machine

/-- WRCFG (R187): bits above the register's width are ignored; read-only and reserved numbers are INVALID_ARG. -/
def execWrcfg (reg : Byte) (w : Word) (s : State) : Host.Outcome State Fault Refusal :=
  if reg = 0x00 then finish .ok { s with actDuration := w.extractLsb' 0 16 }
  else if reg = 0x01 then finish .ok { s with upgVersion := w }
  else if reg = 0x02 then finish .ok { s with dspErr := ⟨false, .ok, 0⟩ }
  else finish .invalidArg s

/-- `DSP_ERR`: flag in bit 16, status in 15:8, index in 7:0 (R42). -/
def dspErrWord (e : DspErr) : Word := (0 : BitVec 15) ++ bit (n := 1) e.flag ++ e.status.code ++ e.index

/-- `ACT_STATE`: `min_armed` in bit 17, `act_on` in bit 16, `act_countdown` in 15:0 (R42). -/
def actStateWord (s : State) : Word :=
  (0 : BitVec 14) ++ bit (n := 1) s.minArmed ++ bit (n := 1) s.actOn ++ s.actCountdown

/-- `I2C_STATE`: `last_sda` in bit 17, `last_scl` in bit 16, `sda_pin` in 15:8, `scl_pin` in 7:0 (R42). -/
def i2cStateWord (h : I2c) : Word :=
  (0 : BitVec 14) ++ bit (n := 1) h.lastSda ++ bit (n := 1) h.lastScl ++ h.sdaPin ++ h.sclPin

/-- Bits 9:0 of the retry occupancy: bit p says that slot p holds a signal (R42 `QUEUE_STATE`). -/
def occupancy (s : State) : BitVec 10 :=
  let chan (c : Nat) : BitVec 10 := if s.occupied (.dbn c) then 1#10 <<< c else 0
  chan 0 ||| chan 1 ||| chan 2 ||| chan 3 ||| chan 4 ||| chan 5 ||| chan 6 ||| chan 7
    ||| (if s.occupied .act then 1#10 <<< 8 else 0) ||| (if s.occupied .lvl then 1#10 <<< 9 else 0)

/-- `QUEUE_STATE`: the number of queued signals in 7:0, slot p's occupancy in bit 16+p (R42). -/
def queueStateWord (s : State) : Word :=
  (0 : BitVec 6) ++ occupancy s ++ (0 : BitVec 8) ++ BitVec.ofNat 8 s.queue.length

/-- The register of R42 with number `reg`, or none for a reserved number. DESIGN CHOICE (log entry 19): `DBN_CNT(c)` of a counter outside
the 32-bit two's complement range, which only an `N_DEB` of 2^31 or more allows, reads the counter modulo 2^32; unsafe. -/
def configWord (s : State) (reg : Byte) : Option Word :=
  if reg = 0x00 then some (s.actDuration.setWidth 32)
  else if reg = 0x01 then some s.upgVersion
  else if reg = 0x02 then some (dspErrWord s.dspErr)
  else if reg = 0x03 then some (actStateWord s)
  else if reg = 0x04 then some (bit s.synced)
  else if reg = 0x05 then some (i2cStateWord s.i2c)
  else if reg = 0x06 then some (queueStateWord s)
  else if reg = 0x07 then some (bit s.upgLast)
  else if 0x10 ≤ reg.toNat ∧ reg.toNat < 0x10 + s.nch then (s.cnt (reg.toNat - 0x10)).map (BitVec.ofInt 32)
  else if 0x20 ≤ reg.toNat ∧ reg.toNat ≤ 0x35 then some ((Memory.read s.shadow (reg.toNat - 0x20)).setWidth 32)
  else none

/-- RDCFG (R197): the register to `res.word`; a reserved number is INVALID_ARG and the word 0. -/
def execRdcfg (reg : Byte) (s : State) : Host.Outcome State Fault Refusal :=
  match configWord s reg with
  | some w => finish .ok { s with res := { s.res with word := w } }
  | none => finish .invalidArg { s with res := { s.res with word := 0 } }

end Sys2Proof.Machine
end

