-- ==== Sys2Proof/Machine/Debounce.lean ====
section
/-! DEFINITION. Debounce.lean: U3, the debounce state machine (spec/42_debounce.md R160 to R165). Its one operation is SAMPLE, the
sampling tick; it moves counters and posts signals and never touches the bus (R266). -/
namespace Sys2Proof.Machine

/-- Procedure `Step(c, a)` (R162) on one counter: its new value, and whether it newly reached the bound. A disagreeing sample
resets the count and steps it in the same tick. -/
def stepCount (n : Int) (active : Bool) (cnt : Int) : Int × Bool :=
  if active then
    let c := if cnt < 0 then 0 else cnt
    if c < n then (c + 1, decide (c + 1 = n)) else (c, false)
  else
    let c := if 0 < cnt then 0 else cnt
    if -n < c then (c - 1, decide (c - 1 = -n)) else (c, false)

/-- The signal a confirmed edge posts (R163): none when the channel does not emit that polarity. -/
def edgeSignal (c : ChannelCfg) (active : Bool) : Option Signal :=
  if active then (if c.emitActive then some c.sigActive else none)
  else (if c.emitInactive then some c.sigInactive else none)

/-- One sample of one channel (R161 to R163): the counter step and `Fire`. -/
def sampleChannel (n cap : Nat) (raw : Level) (ch : Channel) (queue : List Signal) : Channel × List Signal :=
  let active := raw == ch.cfg.activeLevel
  let p := stepCount n active ch.cnt
  match (if p.2 then edgeSignal ch.cfg active else none) with
  | some sig =>
    let h := postOrHold cap sig ch.held queue
    ({ ch with cnt := p.1, held := h.1 }, h.2)
  | none => ({ ch with cnt := p.1 }, queue)

/-- The channels from number `c` on, in ascending order (R161); bit `c` of `raw` is the level of channel `c` (R98). -/
def sampleFrom (n cap : Nat) (raw : Byte) : Nat → List Channel → List Signal → List Channel × List Signal
  | _, [], queue => ([], queue)
  | c, ch :: chs, queue =>
    let p := sampleChannel n cap (raw.getLsbD c) ch queue
    let r := sampleFrom n cap raw (c + 1) chs p.2
    (p.1 :: r.1, r.2)

/-- SAMPLE (R161). -/
def execSample (raw : Byte) (s : State) : Host.Outcome State Fault Refusal :=
  let p := sampleFrom s.cfg.nDeb s.cfg.qcap raw 0 s.chans s.queue
  finish .ok { s with chans := p.1, queue := p.2 }

end Sys2Proof.Machine
end

