-- ==== Sys2Proof/Machine/Dispatcher.lean ====
section
/-! DEFINITION. Dispatcher.lean: U4, the event dispatcher and actuator controller (spec/43_dispatcher_actuator.md R180 to R196): the
queue operations, the timer ticks and the handlers of the four signals. -/
namespace Sys2Proof.Machine

/-! ## Queue operations and timer events -/

/-- POST (R181): non-blocking; a refused or rejected signal is not held. -/
def execPost (kind : Byte) (param : Word) (s : State) : Host.Outcome State Fault Refusal :=
  match signalOf kind param with
  | none => finish .invalidArg s
  | some sig =>
    match tryPost s.cfg.qcap sig s.queue with
    | some q => finish (.okFlag true) { s with queue := q }
    | none => finish .queueFull s

/-- MINTICK (R184). -/
def execMintick (s : State) : Host.Outcome State Fault Refusal :=
  if s.minArmed then
    let n := if 0 < s.actCountdown then s.actCountdown - 1 else s.actCountdown
    let t := { s with actCountdown := n }
    if n = 0 then finish (.okFlag true) (postAct ⟨.actSet, 0⟩ { t with minArmed := false })
    else finish (.okFlag true) t
  else finish (.okFlag false) s

/-- RETRYTICK (R185). -/
def execRetrytick (slot : Byte) (s : State) : Host.Outcome State Fault Refusal :=
  match producerOf s.nch slot with
  | none => finish .invalidArg s
  | some p =>
    match s.retry p with
    | none => finish (.okFlag false) s
    | some sig =>
      match tryPost s.cfg.qcap sig s.queue with
      | some q => finish (.okFlag true) ({ s with queue := q }.setRetry p none)
      | none => finish .queueFull s

/-- LEVELTICK (R186). -/
def execLeveltick (s : State) : Host.Outcome State Fault Refusal := finish .ok (postLvl ⟨.levelSample, 0⟩ s)

/-! ## Signal handlers -/

/-- `DWRITE(pin, level)` of a handler, with `NoteErr` on its result (R188 to R190, R194). -/
def handlerWrite (pin : BitVec 4) (level : Level) (s : State) : Result × State :=
  let p := dwriteBit pin.toNat level s
  (p.1, noteErr p.1 p.2)

/-- `DREAD16()` of a handler, with `NoteErr` on its result (R190, R194). -/
def handlerRead (s : State) : Result × State :=
  let p := dread16 s
  (p.1, noteErr p.1 p.2)

/-- HandleActOn (R188). -/
def handleActOn (s : State) : State :=
  let t := (handlerWrite s.cfg.pumpPin s.cfg.pumpActive { s with actOn := true }).2
  let u := publish s.cfg.nameAct s.cfg.valOn t
  { u with actCountdown := u.actDuration, minArmed := true }

/-- HandleActOff (R189). -/
def handleActOff (s : State) : State :=
  let t := (handlerWrite s.cfg.pumpPin (!s.cfg.pumpActive) { s with actOn := false }).2
  let u := publish s.cfg.nameAct s.cfg.valOff t
  { u with minArmed := false, actCountdown := 0 }

/-- The loop of R191 from bit `n` on, for at most `fuel` more bits: the first bit that is not set. -/
def onesFrom (pat : BitVec 10) : Nat → Nat → Nat
  | 0, n => n
  | fuel + 1, n => if pat.getLsbD n then onesFrom pat fuel (n + 1) else n

/-- `Percent(pat)` (R191): ten times the number of contiguous 1 bits starting at bit 0. -/
def percent (pat : BitVec 10) : Nat := 10 * onesFrom pat 10 0

/-- `Dec(n)` (R196): the decimal numeral. -/
def dec (n : Nat) : String := Nat.repr n

/-- The sensor pattern of a level sample (R190): bits 9:0 of the read shifted right by `LVL_SHIFT`, XOR `LVL_INVERT`. -/
def levelPattern (c : Config) (v : Half) : BitVec 10 := (v >>> c.lvlShift).extractLsb' 0 10 ^^^ c.lvlInvert

/-- HandleLevelSample (R190): the drive pin is put back inactive whatever failed; nothing is published unless drive and read
succeeded. -/
def handleLevelSample (s : State) : State :=
  let w := handlerWrite s.cfg.lvlPin s.cfg.lvlActive s
  if w.1.status = .ok then
    let r := handlerRead (delayMs s.cfg.tSettleMs w.2)
    let t := (handlerWrite s.cfg.lvlPin (!s.cfg.lvlActive) r.2).2
    if r.1.status = .ok then publish s.cfg.nameLevel (dec (percent (levelPattern s.cfg r.1.value))) t else t
  else (handlerWrite s.cfg.lvlPin (!s.cfg.lvlActive) w.2).2

/-- HandleDoorEdge (R192). -/
def handleDoorEdge (param : Word) (s : State) : State :=
  publish s.cfg.nameDoor (if param = 1 then s.cfg.valOpen else s.cfg.valClosed) s

/-- HandleUpgrade (R193): `requestFirmwareUpgrade(upg_version)`, its answer, and the marker cleared. -/
def handleUpgrade (s : State) : State :=
  { s with
    upgLog := s.upgLog ++ [s.upgVersion]
    upgLast := s.env.answerUpgrade.1
    upgVersion := 0
    env := s.env.answerUpgrade.2 }

/-- The handler of a signal (R182). -/
def handleSignal (g : Signal) (s : State) : State :=
  match g.kind with
  | .actSet => if g.param = 1 then handleActOn s else handleActOff s
  | .levelSample => handleLevelSample s
  | .doorEdge => handleDoorEdge g.param s
  | .upgrade => handleUpgrade s

/-- DISPATCH (R182): the signal is removed before its handler runs; the status is OK also when the handler's bus access
failed. -/
def execDispatch (s : State) : Host.Outcome State Fault Refusal :=
  match s.queue with
  | [] => finish (.okFlag false) s
  | g :: rest => finish (.okFlag true) (handleSignal g { s with queue := rest })

end Sys2Proof.Machine
end

