-- ==== Sys2Proof/Machine/Engine.lean ====
section
/-! DEFINITION. Engine.lean: the meanings of U1, the bit-bang I2C master engine (spec/40_i2c_engine.md R112 to R121). "This layer has
no error conditions of its own" (R122): every primitive returns OK unless its operand is malformed. -/
namespace Sys2Proof.Machine

/-- I2CINIT (R113). -/
def execI2cinit (sdaPin sclPin : Byte) (s : State) : Host.Outcome State Fault Refusal :=
  finish .ok (i2cInit sdaPin sclPin s)

/-- SETLINES (R112, R94): a reserved bit set is INVALID_ARG and nothing is driven. -/
def execSetlines (a : Byte) (s : State) : Host.Outcome State Fault Refusal :=
  match linesOf a with
  | some q => finish .ok (setLines q s)
  | none => finish .invalidArg s

/-- START (R114). -/
def execStart (s : State) : Host.Outcome State Fault Refusal := finish .ok (start s)

/-- STOP (R115). -/
def execStop (s : State) : Host.Outcome State Fault Refusal := finish .ok (stop s)

/-- SENDBYTE (R116). -/
def execSendbyte (v : Byte) (s : State) : Host.Outcome State Fault Refusal := finish .ok (sendByte v s)

/-- READACK (R117): a missing acknowledge is a result, not a failure (R222). -/
def execReadack (s : State) : Host.Outcome State Fault Refusal :=
  let p := readAck s
  finish (.okFlag p.1) p.2

/-- SENDACK (R118): an operand other than 0 or 1 is INVALID_ARG and no slot is driven. -/
def execSendack (low : Byte) (s : State) : Host.Outcome State Fault Refusal :=
  match flagOf low with
  | some l => finish .ok (sendAck l s)
  | none => finish .invalidArg s

/-- ACK (R119): `SENDACK(1)`. -/
def execAck (s : State) : Host.Outcome State Fault Refusal := finish .ok (sendAck true s)

/-- NACK (R120): `SENDACK(0)`. -/
def execNack (s : State) : Host.Outcome State Fault Refusal := finish .ok (sendAck false s)

/-- READBYTE (R121): the byte in `value[7:0]`. -/
def execReadbyte (s : State) : Host.Outcome State Fault Refusal :=
  let p := readByte s
  finish (.okValue (p.1.setWidth 16)) p.2

end Sys2Proof.Machine
end

