-- ==== Sys2Proof/Machine/Expander.lean ====
section
/-! DEFINITION. Expander.lean: the meanings of U2, the port-expander register driver (spec/41_expander_driver.md R130 to R140).
Argument checks come first (R130), nothing is retried (R139), the result is that of the first failure (R140). -/
namespace Sys2Proof.Machine

/-- The shadow BEGIN sets before its burst (R131): the six given bytes, every other register 0x00. -/
def beginShadow (dirA dirB puA puB polA polB : Byte) : Memory :=
  let m := Memory.write (Memory.write [] regDirA dirA) regDirB dirB
  let m := Memory.write (Memory.write m regPolA polA) regPolB polB
  Memory.write (Memory.write m regPullupA puA) regPullupB puB

/-- BEGIN (R131): the shadow, then I2CINIT, then one burst of registers 0..13; `synced` says whether it was acknowledged. -/
def execBegin (sdaPin sclPin dirA dirB puA puB polA polB : Byte) (s : State) : Host.Outcome State Fault Refusal :=
  let sh := beginShadow dirA dirB puA puB polA polB
  let p := xwrite 0 ((List.range 14).map (Memory.read sh)) (i2cInit sdaPin sclPin { s with shadow := sh })
  finish p.1 { p.2 with synced := decide (p.1.status = .ok) }

/-- The two transactions of PINMODE (R132): the direction pair, and if it was confirmed the pull-up pair. -/
def pinMode (pin : Nat) (m : PinMode) (s : State) : Result × State :=
  let dir := setBit (pairAt s.shadow regDirA) pin m.dirBit
  let pu := setBit (pairAt s.shadow regPullupA) pin m.puBit
  let p := xwrite regDirA (portBytes dir) s
  if p.1.status = .ok then xwrite regPullupA (portBytes pu) p.2 else p

/-- PINMODE (R132). -/
def execPinmode (pin mode : Byte) (s : State) : Host.Outcome State Fault Refusal :=
  match pinOk pin, pinModeOf mode with
  | true, some m => finishWith (pinMode pin.toNat m s)
  | true, none => finish .invalidArg s
  | false, _ => finish .invalidArg s

/-- PUDCTL (R133). -/
def execPudctl (pin pud : Byte) (s : State) : Host.Outcome State Fault Refusal :=
  match pinOk pin, pudBitOf pud with
  | true, some b => finishWith (xwrite regPullupA (portBytes (setBit (pairAt s.shadow regPullupA) pin.toNat b)) s)
  | true, none => finish .invalidArg s
  | false, _ => finish .invalidArg s

/-- DREAD16 (R134). -/
def execDread16 (s : State) : Host.Outcome State Fault Refusal := finishWith (dread16 s)

/-- DREAD (R135): bit `pin` of what DREAD16 gives. -/
def execDread (pin : Byte) (s : State) : Host.Outcome State Fault Refusal :=
  if pinOk pin then
    let p := dread16 s
    finish { p.1 with value := bit (p.1.value.getLsbD pin.toNat) } p.2
  else finish .invalidArg s

/-- DWRITE16 (R136). -/
def execDwrite16 (value : Half) (s : State) : Host.Outcome State Fault Refusal := finishWith (dwrite16 value s)

/-- DWRITE (R137). -/
def execDwrite (pin level : Byte) (s : State) : Host.Outcome State Fault Refusal :=
  match pinOk pin, flagOf level with
  | true, some l => finishWith (dwriteBit pin.toNat l s)
  | true, none => finish .invalidArg s
  | false, _ => finish .invalidArg s

/-- DUMPREGS (R138): the 22 bytes to `res.data` when the read was acknowledged; the shadow is not changed. -/
def execDumpregs (s : State) : Host.Outcome State Fault Refusal :=
  let p := xread 0 nReg false s
  let data := if p.1.result.status = .ok then p.1.bytes else p.2.res.data
  finish p.1.result { p.2 with res := { p.2.res with data := data } }

end Sys2Proof.Machine
end

