-- ==== Sys2Proof/Machine/Dispatch.lean ====
section
/-! DEFINITION. Dispatch.lean: one arm per operation of the opcode map (spec/30_encoding.md R91). -/
namespace Sys2Proof.Machine

def exec (i : Instr) (s : State) : Host.Outcome State Fault Refusal :=
  match i with
  | .i2cinit a b => Sys2Proof.Machine.execI2cinit a b s
  | .setlines a => Sys2Proof.Machine.execSetlines a s
  | .start => Sys2Proof.Machine.execStart s
  | .stop => Sys2Proof.Machine.execStop s
  | .sendbyte v => Sys2Proof.Machine.execSendbyte v s
  | .readack => Sys2Proof.Machine.execReadack s
  | .sendack low => Sys2Proof.Machine.execSendack low s
  | .ack => Sys2Proof.Machine.execAck s
  | .nack => Sys2Proof.Machine.execNack s
  | .readbyte => Sys2Proof.Machine.execReadbyte s
  | .begin a b c d e f g h => Sys2Proof.Machine.execBegin a b c d e f g h s
  | .pinmode pin mode => Sys2Proof.Machine.execPinmode pin mode s
  | .pudctl pin pud => Sys2Proof.Machine.execPudctl pin pud s
  | .dread16 => Sys2Proof.Machine.execDread16 s
  | .dread pin => Sys2Proof.Machine.execDread pin s
  | .dwrite16 v => Sys2Proof.Machine.execDwrite16 v s
  | .dwrite pin level => Sys2Proof.Machine.execDwrite pin level s
  | .dumpregs => Sys2Proof.Machine.execDumpregs s
  | .sample raw => Sys2Proof.Machine.execSample raw s
  | .post k w => Sys2Proof.Machine.execPost k w s
  | .dispatch => Sys2Proof.Machine.execDispatch s
  | .mintick => Sys2Proof.Machine.execMintick s
  | .retrytick slot => Sys2Proof.Machine.execRetrytick slot s
  | .leveltick => Sys2Proof.Machine.execLeveltick s
  | .wrcfg reg w => Sys2Proof.Machine.execWrcfg reg w s
  | .rdcfg reg => Sys2Proof.Machine.execRdcfg reg s

end Sys2Proof.Machine
end

