-- ==== Sys2Proof/Machine/Port.lean ====
section
/-! DEFINITION. Port.lean: the command and result ports (spec/30_encoding.md R90, R97, R102): taking a command off the stream, the
answer to an illegal opcode byte, and the bytes the result port presents. -/
namespace Sys2Proof.Machine

/-- The bytes the result port presents after a command (R102): status, index, value, then for DUMPREGS the 22 data bytes and for
RDCFG the register value. -/
def resultBytes (i : Option Instr) (r : Res) : List Byte :=
  [r.status.code, r.index, loByte r.value, hiByte r.value] ++
    (match i with
     | some .dumpregs => r.data
     | some (.rdcfg _) => bytes32 r.word
     | _ => [])

/-- After a command the result port presents its result (R102). -/
def present (i : Option Instr) (s : State) : State := { s with port := resultBytes i s.res }

/-- The command is taken off the command port (R90). -/
def accept (rest : List Byte) (s : State) : State := { s with cmd := rest }

/-- An illegal opcode byte (R97): consumed alone, no state changed but the result record, status ILLEGAL_CMD. -/
def rejectOpcode (rest : List Byte) (s : State) : State := present none ((accept rest s).setResult .illegalCmd)

/-- The output port `sda_o` (R23). -/
def State.sdaOut (s : State) : Level := s.i2c.lastSda

/-- The output port `scl_o` (R23). -/
def State.sclOut (s : State) : Level := s.i2c.lastScl

/-- The input port `sda_i` (R23): the level of the SDA wire, `sda_o AND sda_s`. DESIGN CHOICE (log entry 3): an oracle slave's drive in a
slot the master does not sample may be any value (U12); here it is shown as the level its next sample will take. Nothing in exec or
step reads this port in such a slot; unsafe for a claim on the level there. -/
def State.sdaIn (s : State) : Level := (sampleSda s).1

/-- How long the master has driven the bus since reset: one half-cycle delay a slot (R110, R270). Timing only; no rule reads it. -/
def State.busNs (s : State) : Nat := s.wave.length * s.cfg.tHalfNs

/-- A command delivered on the command port ahead of what waits there. -/
def deliver (bytes : List Byte) (s : State) : State := { s with cmd := bytes ++ s.cmd }

end Sys2Proof.Machine
end

