-- ==== Sys2Proof/Machine/Step.lean ====
section
/-! DEFINITION. Step.lean: one step of the block. There is no program counter and no stored program (spec/10_state.md R21, spec/20_memory.md
R73): a step takes the command at the head of the command stream and runs it to completion; while the last byte of a command
has not arrived the block waits (spec/30_encoding.md R90, spec/70_reset_and_hazards.md R250). -/
namespace Sys2Proof.Machine

/-- One step: the decoded command runs and its result is presented; an illegal opcode byte is rejected; without a whole command
nothing changes. -/
def step (s : State) : Host.Outcome State Fault Refusal :=
  match decode s.cmd with
  | .ok i rest =>
    match exec i (accept rest s) with
    | .next t => .next (present (some i) t)
    | .fault r => .fault r
    | .refused r => .refused r
  | .illegal _ rest => .next (rejectOpcode rest s)
  | .incomplete => .next s

/-- The instruction of a table word delivered at the head of the command stream, where the next step takes its command. -/
def State.withFetchWord (s : State) (nbits w : Nat) : State := deliver (tableBytes nbits w) s

end Sys2Proof.Machine
end

