-- ==== Sys2Proof/Machine/Assembler.lean ====
section
/-! DEFINITION. Assembler.lean: the text form of a command (spec/30_encoding.md R100) and the two text macros (R101). Text is read to
commands of Instr; their bytes are `encode`'s. -/
namespace Sys2Proof.Machine

/-! ## Characters and numbers -/

/-- A `;` starts a comment (R100). -/
def asmStrip (l : List Char) : List Char := l.takeWhile (· ≠ ';')

/-- The text without the blanks at its two ends. -/
def asmTrim (l : List Char) : List Char :=
  ((l.dropWhile (· = ' ')).reverse.dropWhile (· = ' ')).reverse

/-- The pieces of a text between commas. -/
def asmSplit : List Char → List (List Char)
  | [] => [[]]
  | c :: cs =>
    if c = ',' then [] :: asmSplit cs
    else
      match asmSplit cs with
      | [] => [[c]]
      | p :: ps => (c :: p) :: ps

/-- The value of a digit character, hexadecimal digits in either case. -/
def asmDigit (c : Char) : Option Nat :=
  if '0' ≤ c ∧ c ≤ '9' then some (c.toNat - '0'.toNat)
  else if 'a' ≤ c ∧ c ≤ 'f' then some (c.toNat - 'a'.toNat + 10)
  else if 'A' ≤ c ∧ c ≤ 'F' then some (c.toNat - 'A'.toNat + 10)
  else none

/-- Digits in a base, most significant first, on top of what was read before. -/
def asmDigits (base : Nat) : Nat → List Char → Option Nat
  | n, [] => some n
  | n, c :: cs =>
    match asmDigit c with
    | some d => if d < base then asmDigits base (base * n + d) cs else none
    | none => none

/-- R100: a number is decimal, `0x` hexadecimal or `0b` binary. -/
def asmNumber : List Char → Option Nat
  | [] => none
  | '0' :: 'x' :: c :: cs => asmDigits 16 0 (c :: cs)
  | '0' :: 'b' :: c :: cs => asmDigits 2 0 (c :: cs)
  | c :: cs => asmDigits 10 0 (c :: cs)

/-- R100: the names of enumerated operands, of the retry slots, and of the registers of R42 without an index. -/
def asmName (name : String) : Option Nat :=
  match name with
  | "INPUT" => some 0
  | "OUTPUT" => some 1
  | "INPUT_WITH_PULLUP" => some 2
  | "PUD_OFF" => some 0
  | "PUD_UP" => some 2
  | "LOW" => some 0
  | "HIGH" => some 1
  | "ACTSET" => some 1
  | "LEVELSAMPLE" => some 2
  | "DOOREDGE" => some 3
  | "UPGRADE" => some 4
  | "ON" => some 1
  | "OFF" => some 0
  | "OPEN" => some 1
  | "CLOSED" => some 0
  | "ACT" => some 8
  | "LVL" => some 9
  | "ACT_DURATION" => some 0x00
  | "UPG_VERSION" => some 0x01
  | "DSP_ERR" => some 0x02
  | "ACT_STATE" => some 0x03
  | "XDR_STATE" => some 0x04
  | "I2C_STATE" => some 0x05
  | "QUEUE_STATE" => some 0x06
  | "UPG_LAST" => some 0x07
  | _ => none

/-- R42: the register names with an index, `DBN_CNT(c)` at 0x10 + c and `SHADOW(i)` at 0x20 + i. -/
def asmIndexed (l : List Char) : Option Nat :=
  let name := String.ofList (l.takeWhile (· ≠ '('))
  match l.dropWhile (· ≠ '('), l.getLast? with
  | '(' :: rest, some ')' =>
    match asmNumber rest.dropLast with
    | some n =>
      if name = "DBN_CNT" ∧ n < 8 then some (0x10 + n)
      else if name = "SHADOW" ∧ n < nReg then some (0x20 + n)
      else none
    | none => none
  | _, _ => none

/-- An operand: a number, or a name. -/
def asmOperand (l : List Char) : Option Nat :=
  match asmNumber l with
  | some n => some n
  | none =>
    match asmName (String.ofList l) with
    | some n => some n
    | none => asmIndexed l

/-- All operands of a line, or none when one of them is not readable. -/
def asmOperands : List (List Char) → Option (List Nat)
  | [] => some []
  | p :: ps =>
    match asmOperand (asmTrim p), asmOperands ps with
    | some n, some ns => some (n :: ns)
    | _, _ => none

/-! ## The formats of R92, from operand numbers -/

/-- Format N. -/
def asmN (i : Instr) : List Nat → Option Instr
  | [] => some i
  | _ => none

/-- Format B. -/
def asmB (f : Byte → Instr) : List Nat → Option Instr
  | [a] => if a < 256 then some (f (BitVec.ofNat 8 a)) else none
  | _ => none

/-- Formats P2 and PB. -/
def asmP (f : Byte → Byte → Instr) : List Nat → Option Instr
  | [a, b] => if a < 256 ∧ b < 256 then some (f (BitVec.ofNat 8 a) (BitVec.ofNat 8 b)) else none
  | _ => none

/-- Format L: two operands `sda, scl`, each 0 or 1, assembled into the byte of R94 (R100). -/
def asmL : List Nat → Option Instr
  | [sda, scl] => if sda < 2 ∧ scl < 2 then some (.setlines (BitVec.ofNat 8 (2 * sda + scl))) else none
  | _ => none

/-- Format H: one 16-bit number (R100). -/
def asmH : List Nat → Option Instr
  | [v] => if v < 65536 then some (.dwrite16 (BitVec.ofNat 16 v)) else none
  | _ => none

/-- Format KW: a byte and one 32-bit number (R100). -/
def asmKW (f : Byte → Word → Instr) : List Nat → Option Instr
  | [k, w] => if k < 256 ∧ w < 4294967296 then some (f (BitVec.ofNat 8 k) (BitVec.ofNat 32 w)) else none
  | _ => none

/-- Format G: BEGIN's eight bytes. -/
def asmG (args : List Nat) : Option Instr :=
  if args.all (· < 256) then
    match args.map (BitVec.ofNat 8) with
    | [a, b, c, d, e, f, g, h] => some (.begin a b c d e f g h)
    | _ => none
  else none

/-- R101 `WRITEREG i, d0 [, d1 ...]`: the primitives of XWRITE written out, with the acknowledge of every byte ignored. -/
def asmWriteReg (c : Config) (i : Nat) (data : List Byte) : List Instr :=
  [.start, .sendbyte (writeAddr c), .readack, .sendbyte (regPtr c i), .readack]
    ++ (data.flatMap fun d => [.sendbyte d, .readack]) ++ [.stop]

/-- One command, as a list of one. -/
def asmOne (o : Option Instr) : Option (List Instr) := o.map fun i => [i]

/-- The commands of a mnemonic of R91, or of a macro of R101, with its operands. DESIGN CHOICE (log entry 18): `WRITEREG` takes a register
number 0 to 21 and one data byte or more, and a run of data past register 21 is written out too; R101 gives its operands no
range, and R65 defines the sequence for `i+k ≤ 22` only. -/
def asmCommand (c : Config) (mnemonic : String) (args : List Nat) : Option (List Instr) :=
  match mnemonic with
  | "I2CINIT" => asmOne (asmP .i2cinit args)
  | "SETLINES" => asmOne (asmL args)
  | "START" => asmOne (asmN .start args)
  | "STOP" => asmOne (asmN .stop args)
  | "SENDBYTE" => asmOne (asmB .sendbyte args)
  | "READACK" => asmOne (asmN .readack args)
  | "SENDACK" => asmOne (asmB .sendack args)
  | "ACK" => asmOne (asmN .ack args)
  | "NACK" => asmOne (asmN .nack args)
  | "READBYTE" => asmOne (asmN .readbyte args)
  | "BEGIN" => asmOne (asmG args)
  | "PINMODE" => asmOne (asmP .pinmode args)
  | "PUDCTL" => asmOne (asmP .pudctl args)
  | "DREAD16" => asmOne (asmN .dread16 args)
  | "DREAD" => asmOne (asmB .dread args)
  | "DWRITE16" => asmOne (asmH args)
  | "DWRITE" => asmOne (asmP .dwrite args)
  | "DUMPREGS" => asmOne (asmN .dumpregs args)
  | "SAMPLE" => asmOne (asmB .sample args)
  | "POST" => asmOne (asmKW .post args)
  | "DISPATCH" => asmOne (asmN .dispatch args)
  | "MINTICK" => asmOne (asmN .mintick args)
  | "RETRYTICK" => asmOne (asmB .retrytick args)
  | "LEVELTICK" => asmOne (asmN .leveltick args)
  | "WRCFG" => asmOne (asmKW .wrcfg args)
  | "RDCFG" => asmOne (asmB .rdcfg args)
  | "IDLE" => asmOne (asmN (.setlines 0x03) args)
  | "WRITEREG" =>
    match args with
    | i :: d :: ds =>
      if i < nReg ∧ (d :: ds).all (· < 256) then some (asmWriteReg c i ((d :: ds).map (BitVec.ofNat 8))) else none
    | _ => none
  | _ => none

/-- One line of text: a mnemonic, then operands separated by commas; an empty line, or a line that is only a comment, is no
command (R100). -/
def assembleLine (c : Config) (line : String) : Option (List Instr) :=
  let l := asmTrim (asmStrip line.toList)
  let m := l.takeWhile (· ≠ ' ')
  let rest := asmTrim (l.dropWhile (· ≠ ' '))
  if m = [] then some []
  else
    match (if rest = [] then some [] else asmOperands (asmSplit rest)) with
    | some args => asmCommand c (String.ofList m) args
    | none => none

/-- A program: the commands of its lines in order, or none when a line is not well formed. -/
def assemble (c : Config) : List String → Option (List Instr)
  | [] => some []
  | l :: ls =>
    match assembleLine c l, assemble c ls with
    | some a, some b => some (a ++ b)
    | _, _ => none

/-- The bytes a program sends to the command port. -/
def assembleBytes (c : Config) (program : List String) : Option (List Byte) :=
  (assemble c program).map fun is => is.flatMap encode

end Sys2Proof.Machine
end

