-- ==== Sys2Proof/WellFormed.lean ====
section
/-! DEFINITION. WellFormed.lean: which operands the spec ACCEPTS (spec/30_encoding.md R93, R94, R96, spec/10_state.md
R42). An instruction that fails the check still decodes and runs: it returns INVALID_ARG (R97). -/
namespace Sys2Proof

/-- The accepted operand values of each operation, for a build with `nch` debounce channels. -/
def Instr.wellFormed (nch : Nat) : Instr → Bool
  | .i2cinit _ _ => true
  | .setlines a => decide (a.toNat < 4)                              -- R94: bits 7:2 are 0
  | .start => true
  | .stop => true
  | .sendbyte _ => true
  | .readack => true
  | .sendack low => decide (low.toNat ≤ 1)                           -- R93 `low`
  | .ack => true
  | .nack => true
  | .readbyte => true
  | .begin _ _ _ _ _ _ _ _ => true
  | .pinmode pin mode => decide (pin.toNat ≤ 15) && decide (mode.toNat ≤ 2)               -- R93 `pin`, `mode`
  | .pudctl pin pud => decide (pin.toNat ≤ 15) && (decide (pud.toNat = 0) || decide (pud.toNat = 2))  -- R93 `pud`
  | .dread16 => true
  | .dread pin => decide (pin.toNat ≤ 15)
  | .dwrite16 _ => true
  | .dwrite pin level => decide (pin.toNat ≤ 15) && decide (level.toNat ≤ 1)              -- R93 `level`
  | .dumpregs => true
  | .sample _ => true
  | .post kind param =>                                              -- R96
      (decide (kind.toNat = 1) || decide (kind.toNat = 3)) && decide (param.toNat ≤ 1)
        || decide (kind.toNat = 2) || decide (kind.toNat = 4)
  | .dispatch => true
  | .mintick => true
  | .retrytick slot =>                                               -- R93 `slot`
      decide (slot.toNat < nch) || decide (slot.toNat = 8) || decide (slot.toNat = 9)
  | .leveltick => true
  | .wrcfg reg _ => decide (reg.toNat ≤ 2)                           -- R42: the writable numbers
  | .rdcfg reg =>                                                    -- R42: the numbers of the map
      decide (reg.toNat ≤ 7)
        || (decide (0x10 ≤ reg.toNat) && decide (reg.toNat < 0x10 + nch))
        || (decide (0x20 ≤ reg.toNat) && decide (reg.toNat ≤ 0x35))

end Sys2Proof
end

