-- ==== Sys2Proof/Safety.lean ====
section
/-! DEFINITION. Safety.lean: the words claims are stated in: what a good state is, what an operation may change, what an observer of the two
lines sees, and what a confirmed burst leaves in a register file. -/
namespace Sys2Proof.Machine

/-! ## The invariant of the block -/

/-- A channel is good: its configuration posts signals, its counter is within ±N (R31), what it holds is a signal (R36). -/
structure Channel.Good (n : Nat) (ch : Channel) : Prop where
  cfg  : ch.cfg.wf = true
  low  : -(n : Int) ≤ ch.cnt
  high : ch.cnt ≤ (n : Int)
  held : ∀ g, ch.held = some g → g.wf = true

/-- The reference device is in a legal state: canonical registers 0..21, its pointer 0..21 (R80). -/
structure Device.Good (d : Device) : Prop where
  reg   : Memory.wf d.reg
  range : Memory.inRange d.reg
  ptr   : d.ptr < 22

/-- The environment is in a legal state. -/
def Env.Good (e : Env) : Prop := ∀ d, e.slave = .reference d → d.Good

/-- The invariant: the parameters are in their ranges (R6), the queue is bounded (R35) and holds signals (R36), the retry slots
hold what their producers post (R37), an actuator that is off has no countdown and no armed timer (R38), the shadow is
canonical and within registers 0..21 (R25, R67), the dump has 22 bytes (R33). -/
structure State.Inv (s : State) : Prop where
  cfg         : s.cfg.wf = true
  nch_pos     : 1 ≤ s.nch
  nch_le      : s.nch ≤ 8
  chans       : ∀ ch ∈ s.chans, ch.Good s.cfg.nDeb
  queue_len   : s.queue.length ≤ s.cfg.qcap
  queue_wf    : ∀ g ∈ s.queue, g.wf = true
  heldAct     : s.heldAct = none ∨ s.heldAct = some ⟨.actSet, 0⟩
  heldLvl     : s.heldLvl = none ∨ s.heldLvl = some ⟨.levelSample, 0⟩
  actOff      : s.actOn = false → s.actCountdown = 0 ∧ s.minArmed = false
  shadow_wf   : Memory.wf s.shadow
  shadow_rng  : Memory.inRange s.shadow
  data_len    : s.res.data.length = 22
  env         : s.env.Good

/-- The bus is idle: both lines released (R46, R223). -/
def State.BusIdle (s : State) : Prop := s.lines = ⟨true, true⟩

/-- The bus is idle and the plain reference device of R80, without fault injection, is on it. -/
def State.WithPlainDevice (s : State) : Prop :=
  s.BusIdle ∧ ∃ d acks n, s.env = ⟨.reference d, acks, n⟩ ∧ d.inTx = false ∧ d.nakAt = none ∧ d.pins = none ∧ d.Good

/-- Shadow and device agree in the registers BEGIN writes (R72). -/
def State.Coherent (s : State) : Prop :=
  s.WithPlainDevice ∧ ∀ d acks n, s.env = ⟨.reference d, acks, n⟩ → ∀ r, r ≤ 13 → Memory.read s.shadow r = Memory.read d.reg r

/-! ## What an operation may change -/

/-- Only the lines, the waveform, the environment that watches them, and the result record differ: a U1 primitive. -/
def BusFrame (s t : State) : Prop :=
  t = { s with
    i2c := { s.i2c with lastSda := t.i2c.lastSda, lastScl := t.i2c.lastScl }
    wave := t.wave
    env := t.env
    res := t.res }

/-- As `BusFrame`, and the shadow may differ: a U2 operation on an initialised block. -/
def DriverFrame (s t : State) : Prop :=
  t = { s with
    i2c := { s.i2c with lastSda := t.i2c.lastSda, lastScl := t.i2c.lastScl }
    wave := t.wave
    env := t.env
    shadow := t.shadow
    res := t.res }

/-- Only the debounce counters, the countdown and its arm bit, the queue, the retry slots and the result record differ (R230: the
callback context). A channel's configuration is not among them. -/
def CallbackFrame (s t : State) : Prop :=
  t = { s with
    chans := t.chans
    queue := t.queue
    heldAct := t.heldAct
    heldLvl := t.heldLvl
    actCountdown := t.actCountdown
    minArmed := t.minArmed
    res := t.res }
  ∧ t.chans.map (·.cfg) = s.chans.map (·.cfg)

/-- The operations of the callback context (R230). -/
def Instr.isCallback : Instr → Bool
  | .sample _ | .mintick | .retrytick _ | .leveltick | .post _ _ => true
  | .i2cinit _ _ | .setlines _ | .start | .stop | .sendbyte _ | .readack | .sendack _ | .ack | .nack | .readbyte => false
  | .begin _ _ _ _ _ _ _ _ | .pinmode _ _ | .pudctl _ _ | .dread16 | .dread _ | .dwrite16 _ | .dwrite _ _ => false
  | .dumpregs | .dispatch | .wrcfg _ _ | .rdcfg _ => false

/-- The operations of U2, the port-expander register driver (R91: opcode bits 7:4 are 2). -/
def Instr.isDriver : Instr → Bool
  | .begin _ _ _ _ _ _ _ _ | .pinmode _ _ | .pudctl _ _ | .dread16 | .dread _ | .dwrite16 _ | .dwrite _ _ | .dumpregs => true
  | .i2cinit _ _ | .setlines _ | .start | .stop | .sendbyte _ | .readack | .sendack _ | .ack | .nack | .readbyte => false
  | .sample _ | .post _ _ | .dispatch | .mintick | .retrytick _ | .leveltick | .wrcfg _ _ | .rdcfg _ => false

/-- When the environment may deliver an event other than as a no-op (R224). -/
def State.enabled (s : State) : Instr → Bool
  | .mintick => s.minArmed
  | .retrytick slot =>
    match producerOf s.nch slot with
    | some p => s.occupied p
    | none => false
  | _ => true

/-- The operations of U1, the bit-bang I2C master engine (R91: opcode bits 7:4 are 1). -/
def Instr.isEngine (i : Instr) : Bool :=
  match i with
  | .i2cinit _ _ | .setlines _ | .start | .stop | .sendbyte _ | .readack | .sendack _ | .ack | .nack | .readbyte => true
  | .begin _ _ _ _ _ _ _ _ | .pinmode _ _ | .pudctl _ _ | .dread16 | .dread _ | .dwrite16 _ | .dwrite _ _ | .dumpregs => false
  | .sample _ | .post _ _ | .dispatch | .mintick | .retrytick _ | .leveltick | .wrcfg _ _ | .rdcfg _ => false

/-- The opcode bytes outside the map (R97). -/
def IllegalOpcode (op : Byte) : Prop :=
  op.toNat ≤ 0x0F ∨ (0x1A ≤ op.toNat ∧ op.toNat ≤ 0x1F) ∨ (0x28 ≤ op.toNat ∧ op.toNat ≤ 0x2F)
    ∨ (0x31 ≤ op.toNat ∧ op.toNat ≤ 0x3F) ∨ (0x47 ≤ op.toNat ∧ op.toNat ≤ 0x4F) ∨ 0x50 ≤ op.toNat

/-- The result record with an operation's status, index and value in it; `data` and `word` kept (R33). -/
def State.outcome (s : State) (status : Status) (index : Byte) (value : Half) : Res :=
  { s.res with status := status, index := index, value := value }

/-- The sticky record after a handler's bus operation that ended with these (R40, R194). -/
def notedErr (status : Status) (index : Byte) (e : DspErr) : DspErr := if status = .ok then e else ⟨true, status, index⟩

/-- The signal a sample of one channel confirms (R162, R163): the sample takes the counter, reset to zero where it disagreed, onto the
bound, and the channel emits that polarity. -/
def confirmedEdge (n : Nat) (raw : Level) (ch : Channel) : Option Signal :=
  if raw = ch.cfg.activeLevel then
    (if max ch.cnt 0 + 1 = (n : Int) ∧ ch.cfg.emitActive = true then some ch.cfg.sigActive else none)
  else (if min ch.cnt 0 - 1 = -(n : Int) ∧ ch.cfg.emitInactive = true then some ch.cfg.sigInactive else none)

/-- The signals that channels with an empty retry slot post in one sample, in ascending order of the channels from number `c` on
(R161, R183). -/
def postings (n : Nat) (raw : Byte) : Nat → List Channel → List Signal
  | _, [] => []
  | c, ch :: chs =>
    (match ch.held with
     | none => (confirmedEdge n (raw.getLsbD c) ch).toList
     | some _ => []) ++ postings n raw (c + 1) chs

/-- `k` operations of the same kind, one after another. -/
def repeatExec (i : Instr) : Nat → State → Host.Outcome State Fault Refusal
  | 0, s => .next s
  | k + 1, s =>
    match exec i s with
    | .next t => repeatExec i k t
    | .fault r => .fault r
    | .refused r => .refused r

/-! ## A burst and what it confirms -/

/-- A register file after the first `n` bytes of a burst to registers `i`, `i+1`, … (R65, R68). -/
def burstPrefix (m : Memory) (i : Nat) : List Byte → Nat → Memory
  | _, 0 => m
  | [], _ + 1 => m
  | d :: ds, n + 1 => burstPrefix (Memory.write m i d) (i + 1) ds n

/-- How many bytes of a burst of `k` a result says were confirmed: all for OK, `j` for (NAK_DATA, j), none else (R68, R221). -/
def confirmedCount (status : Status) (index : Byte) (k : Nat) : Nat :=
  match status with
  | .ok => k
  | .nakData => index.toNat
  | .nakAddr | .nakPtr | .invalidArg | .queueFull | .illegalCmd => 0

/-- The statuses and indices a write burst of `k` bytes can end with (R65, R220). -/
def WriteStatus (k : Nat) (status : Status) (index : Byte) : Prop :=
  (status = .ok ∧ index = 0) ∨ (status = .nakAddr ∧ index = 0) ∨ (status = .nakPtr ∧ index = 0)
    ∨ (status = .nakData ∧ index.toNat < k)

/-- The statuses and indices a read burst can end with (R66, R220). -/
def ReadStatus (status : Status) (index : Byte) : Prop :=
  (status = .ok ∧ index = 0) ∨ (status = .nakAddr ∧ (index = 0 ∨ index = 1)) ∨ (status = .nakPtr ∧ index = 0)

/-- The bytes XWRITE puts on the bus, given how it ended (R65, R227): it stops at the first one not acknowledged. -/
def sentBytes (c : Config) (i : Nat) (data : List Byte) (status : Status) (index : Byte) : List Byte :=
  match status with
  | .nakAddr => [writeAddr c]
  | .nakPtr => [writeAddr c, regPtr c i]
  | .nakData => writeAddr c :: regPtr c i :: data.take (index.toNat + 1)
  | .ok | .invalidArg | .queueFull | .illegalCmd => writeAddr c :: regPtr c i :: data

/-! ## What an observer of SDA and SCL sees -/

/-- What the waveform carries: START and STOP conditions, and bytes with the level the master gives the ninth clock pulse (R62,
R75). -/
inductive BusItem where
  | start
  | stop
  | byte (v : Byte) (ninth : Level)
deriving DecidableEq, Repr

/-- The byte of its levels, most significant first (R62). -/
def byteOf (bits : List Level) : Byte := bits.foldl (fun a b => (a <<< 1) ||| bit b) 0

/-- The bits of a byte, bit 7 first: what a slave that sends it drives (R62). -/
def levelsOf (v : Byte) : List Level :=
  [v.getLsbD 7, v.getLsbD 6, v.getLsbD 5, v.getLsbD 4, v.getLsbD 3, v.getLsbD 2, v.getLsbD 1, v.getLsbD 0]

/-- Decode a waveform that follows the slot `p`, with the levels taken so far in the current byte: a fall of SDA while SCL is high is
a START, a rise is a STOP, a level is taken at each rise of SCL, nine of them are a byte and its acknowledge (R80). -/
def busItems : Slot → List Level → List Slot → List BusItem
  | _, _, [] => []
  | p, bits, q :: qs =>
    if p.scl && q.scl then
      if p.sda && !q.sda then .start :: busItems q [] qs
      else if !p.sda && q.sda then .stop :: busItems q [] qs
      else busItems q bits qs
    else if !p.scl && q.scl then
      if bits.length = 8 then .byte (byteOf bits) q.sda :: busItems q [] qs
      else busItems q (bits ++ [q.sda]) qs
    else busItems q bits qs

/-- The slots, numbered from `k`, in which SDA changes while SCL was and stays high, each with the level SDA takes: `false` is a START
condition, `true` a STOP condition (R124). -/
def conditions : Nat → Slot → List Slot → List (Nat × Level)
  | _, _, [] => []
  | k, p, q :: qs =>
    if p.scl && q.scl && (p.sda != q.sda) then (k, q.sda) :: conditions (k + 1) q qs else conditions (k + 1) q qs

/-- The slots a step added to the waveform. -/
def newSlots (s t : State) : List Slot := t.wave.drop s.wave.length

/-- The transaction of a write burst as an observer sees it: START, the bytes, each with the master leaving the ninth level high for
the slave, STOP (R75). -/
def writeItems (bytes : List Byte) : List BusItem := .start :: bytes.map (fun b => .byte b true) ++ [.stop]

/-- The transaction of a read burst of `k` bytes as the master drives it, given how it ended (R66, R75): the pointer write, a repeated
START with no STOP before it, the read address, then the bytes, during which the master leaves SDA high (0xFF); it acknowledges
every byte except the last. -/
def readItems (c : Config) (i k : Nat) (status : Status) (index : Byte) : List BusItem :=
  match status with
  | .nakAddr =>
    if index = 0 then [.start, .byte (writeAddr c) true, .stop]
    else [.start, .byte (writeAddr c) true, .byte (regPtr c i) true, .start, .byte (readAddr c) true, .stop]
  | .nakPtr => [.start, .byte (writeAddr c) true, .byte (regPtr c i) true, .stop]
  | .ok | .nakData | .invalidArg | .queueFull | .illegalCmd =>
    [.start, .byte (writeAddr c) true, .byte (regPtr c i) true, .start, .byte (readAddr c) true]
      ++ (List.range k).map (fun j => .byte 0xFF (decide (j + 1 = k))) ++ [.stop]

/-- What one write burst of `data` to registers `i`, `i+1`, … that ended with `status` and `index` leaves (R65, R68, R75): the lines
released, the confirmed prefix in the shadow and every other register as it was, and nothing else of the block changed but the
waveform, the environment and the result record. -/
structure OneBurst (s t : State) (i : Nat) (data : List Byte) (status : Status) (index : Byte) : Prop where
  ends    : WriteStatus data.length status index
  frame   : t = { s with
    i2c := { s.i2c with lastSda := true, lastScl := true }
    wave := t.wave
    env := t.env
    shadow := burstPrefix s.shadow i data (confirmedCount status index data.length)
    res := t.res }
  inside  : Memory.wf s.shadow → ∀ j, j < confirmedCount status index data.length →
    data[j]? = some (Memory.read t.shadow (i + j))
  outside : ∀ a, (a < i ∨ i + confirmedCount status index data.length ≤ a) →
    Memory.read t.shadow a = Memory.read s.shadow a
  grows   : s.wave <+: t.wave
  bus     : s.BusIdle → busItems ⟨true, true⟩ [] (newSlots s t) = writeItems (sentBytes s.cfg i data status index)

/-- What one read burst of `k` bytes from registers `i`, `i+1`, … that ended with `status` and `index` leaves (R66, R75): the lines
released, with `update` the bytes read in the shadow, and nothing else of the block changed but the waveform, the environment
and the result record. -/
structure OneRead (s t : State) (i k : Nat) (update : Bool) (bytes : List Byte) (status : Status) (index : Byte) : Prop where
  ends    : ReadStatus status index
  count   : bytes.length = if status = .ok then k else 0
  frame   : t = { s with
    i2c := { s.i2c with lastSda := true, lastScl := true }
    wave := t.wave
    env := t.env
    shadow := t.shadow
    res := t.res }
  inside  : update = true → Memory.wf s.shadow → ∀ j, j < bytes.length → bytes[j]? = some (Memory.read t.shadow (i + j))
  outside : ∀ a, (update = false ∨ a < i ∨ i + bytes.length ≤ a) → Memory.read t.shadow a = Memory.read s.shadow a
  kept    : (update = false ∨ status ≠ .ok) → t.shadow = s.shadow
  grows   : s.wave <+: t.wave
  bus     : s.BusIdle → busItems ⟨true, true⟩ [] (newSlots s t) = readItems s.cfg i k status index

end Sys2Proof.Machine
end

