-- ==== Sys2Proof/Certificates/Slice0/Obligations.lean ====
section
/-! DEFINITION. Obligations.lean: the statements for the provers. Each docstring names the rules of spec/ it formalises; where a clause is
the model's choice it names the log entry. Every statement that ends in `exec i s = .next …` also says where that
instruction completes. -/
open Sys2Proof Sys2Proof.Machine

/-! ## Encoding -/

/-- R91, R92, R95: decoding the encoding of any command, at every operand value, gives that command back and leaves what follows it on
the stream. -/
def Obligations.DecodeReadsBackEncode : Prop :=
  ∀ (i : Instr) (rest : List Byte), decode (encode i ++ rest) = .ok i rest

/-- R91, R92: a stream that decodes to a command begins with exactly that command's encoding; no byte is dropped or ignored. -/
def Obligations.DecodedCommandIsItsEncoding : Prop :=
  ∀ (bytes : List Byte) (i : Instr) (rest : List Byte), decode bytes = .ok i rest → bytes = encode i ++ rest

/-- R99, R90, R91, R97: the opcode byte alone decides how many bytes are consumed; the lengths of R91; the opcodes of R91 and the illegal
opcode bytes of R97 make up all 256 values. -/
def Obligations.OpcodeByteDecidesLength : Prop :=
  (∀ (op : Byte) (bytes : List Byte),
    (IllegalOpcode op → decode (op :: bytes) = .illegal op bytes)
    ∧ (¬ IllegalOpcode op → bytes.length + 1 < commandLength op → decode (op :: bytes) = .incomplete)
    ∧ (¬ IllegalOpcode op → commandLength op ≤ bytes.length + 1 →
        ∃ i, decode (op :: bytes) = .ok i (bytes.drop (commandLength op - 1))))
  ∧ (∀ p ∈ [((0x10 : Byte), 3), (0x11, 2), (0x12, 1), (0x13, 1), (0x14, 2), (0x15, 1), (0x16, 2), (0x17, 1), (0x18, 1), (0x19, 1),
        (0x20, 9), (0x21, 3), (0x22, 3), (0x23, 1), (0x24, 2), (0x25, 3), (0x26, 3), (0x27, 1), (0x30, 2), (0x40, 6), (0x41, 1),
        (0x42, 1), (0x43, 2), (0x44, 1), (0x45, 6), (0x46, 2)],
      commandLength p.1 = p.2 ∧ ¬ IllegalOpcode p.1)
  ∧ (∀ op : Byte, IllegalOpcode op ∨ op ∈ [(0x10 : Byte), 0x11, 0x12, 0x13, 0x14, 0x15, 0x16, 0x17, 0x18, 0x19, 0x20, 0x21, 0x22, 0x23,
        0x24, 0x25, 0x26, 0x27, 0x30, 0x40, 0x41, 0x42, 0x43, 0x44, 0x45, 0x46])

/-- R91, R92, R95: one word of every opcode, written out from the encoding, decodes to the command it stands for (bit 0 is the least
significant bit of the opcode byte). -/
def Obligations.SpecWordsDecode : Prop :=
  decodeTableWord 24 0x050410 = some (.i2cinit 4 5)
  ∧ decodeTableWord 16 0x0111 = some (.setlines 1)
  ∧ decodeTableWord 8 0x12 = some .start
  ∧ decodeTableWord 8 0x13 = some .stop
  ∧ decodeTableWord 16 0x4014 = some (.sendbyte 0x40)
  ∧ decodeTableWord 8 0x15 = some .readack
  ∧ decodeTableWord 16 0x0116 = some (.sendack 1)
  ∧ decodeTableWord 8 0x17 = some .ack
  ∧ decodeTableWord 8 0x18 = some .nack
  ∧ decodeTableWord 8 0x19 = some .readbyte
  ∧ decodeTableWord 72 0x000000003FFF050420 = some (.begin 4 5 0xFF 0x3F 0 0 0 0)
  ∧ decodeTableWord 24 0x010321 = some (.pinmode 3 1)
  ∧ decodeTableWord 24 0x020922 = some (.pudctl 9 2)
  ∧ decodeTableWord 8 0x23 = some .dread16
  ∧ decodeTableWord 16 0x0F24 = some (.dread 15)
  ∧ decodeTableWord 24 0x800125 = some (.dwrite16 0x8001)
  ∧ decodeTableWord 24 0x010F26 = some (.dwrite 15 1)
  ∧ decodeTableWord 8 0x27 = some .dumpregs
  ∧ decodeTableWord 16 0x0130 = some (.sample 1)
  ∧ decodeTableWord 48 0x000000010140 = some (.post 1 1)
  ∧ decodeTableWord 8 0x41 = some .dispatch
  ∧ decodeTableWord 8 0x42 = some .mintick
  ∧ decodeTableWord 16 0x0843 = some (.retrytick 8)
  ∧ decodeTableWord 8 0x44 = some .leveltick
  ∧ decodeTableWord 48 0x0000001E0045 = some (.wrcfg 0 30)
  ∧ decodeTableWord 16 0x0346 = some (.rdcfg 3)
  ∧ decodeTableWord 8 0x1A = none

/-- R100, R101: the spec's own texts assemble to the spec's own bytes (all examples of R100 but `SETLINES 0, 1`, whose example byte
disagrees with R94: log entry 6). -/
def Obligations.AssemblerReadsTheExamples : Prop :=
  assembleBytes Config.reference ["SENDBYTE 0x40"] = some [0x14, 0x40]
  ∧ assembleBytes Config.reference ["PINMODE 3, OUTPUT"] = some [0x21, 0x03, 0x01]
  ∧ assembleBytes Config.reference ["DWRITE16 0x8001  ; both ports"] = some [0x25, 0x01, 0x80]
  ∧ assembleBytes Config.reference ["POST ACTSET, ON"] = some [0x40, 0x01, 0x01, 0x00, 0x00, 0x00]
  ∧ assembleBytes Config.reference ["RETRYTICK ACT", "RDCFG ACT_STATE"] = some [0x43, 0x08, 0x46, 0x03]
  ∧ assembleBytes Config.reference ["IDLE"] = assembleBytes Config.reference ["SETLINES 1, 1"]
  ∧ assembleBytes Config.reference ["WRITEREG 0x12, 0x01, 0x80"]
    = some [0x12, 0x14, 0x40, 0x15, 0x14, 0x12, 0x15, 0x14, 0x01, 0x15, 0x14, 0x80, 0x15, 0x13]

/-! ## The command port and the result port -/

/-- R97, R94, R93, R96, R42, R130, R221, R197, R33: an illegal opcode byte is consumed alone and an operand out of range is refused; neither
changes anything but the result record. That the port field then shows the result is log entry 7; that an illegal opcode byte leaves
the value 0 and that a refused RDCFG leaves the word 0 are log entry 17 (DEDUCED). -/
def Obligations.IllegalCommandsLeaveOnlyTheirResult : Prop :=
  (∀ (s : State) (op : Byte) (rest : List Byte), s.cmd = op :: rest → IllegalOpcode op →
    step s = .next { s with cmd := rest, res := s.outcome .illegalCmd 0 0, port := [6, 0, 0, 0] })
  ∧ (∀ (i : Instr) (s : State), i.wellFormed s.nch = false → (∀ reg, i ≠ .rdcfg reg) →
    exec i s = .next { s with res := s.outcome .invalidArg 0 0 })
  ∧ (∀ (reg : Byte) (s : State), (Instr.rdcfg reg).wellFormed s.nch = false →
    exec (.rdcfg reg) s = .next { s with res := { s.outcome .invalidArg 0 0 with word := 0 } })

/-- R220, R227: INVALID_ARG is returned exactly for the operands the spec does not accept, by no operation for any other reason. -/
def Obligations.InvalidArgIffOperandsOutOfRange : Prop :=
  ∀ (i : Instr) (s t : State), exec i s = .next t → (t.res.status = .invalidArg ↔ i.wellFormed s.nch = false)

/-- R90, R21, R228: a step takes the command at the head of the stream off it and is `exec` of that command; what the step adds is the
result port (R102, the model's field `port`: log entry 7). -/
def Obligations.StepRunsDecodedCommand : Prop :=
  ∀ (s : State) (i : Instr) (rest : List Byte), decode s.cmd = .ok i rest →
    ∃ t, exec i { s with cmd := rest } = .next t ∧ step s = .next { t with port := resultBytes (some i) t.res }

/-- R102, R220, R33: the bytes the result port presents after a command: status code, index, value low byte first; then the 22 dumped bytes
in index order for DUMPREGS, and the word least significant byte first for RDCFG. That the field `port` holds them is log entry 7;
that a failing DUMPREGS presents its 22 bytes too, the old ones, is log entry 17 (DESIGN CHOICE). -/
def Obligations.ResultPortPresentsRecord : Prop :=
  (∀ (s t : State) (i : Instr) (rest : List Byte), decode s.cmd = .ok i rest → step s = .next t →
    t.port.take 4 = [t.res.status.code, t.res.index, t.res.value.extractLsb' 0 8, t.res.value.extractLsb' 8 8]
    ∧ (i = .dumpregs → t.port.drop 4 = t.res.data)
    ∧ ((∃ reg, i = .rdcfg reg) → t.port.drop 4
        = [t.res.word.extractLsb' 0 8, t.res.word.extractLsb' 8 8, t.res.word.extractLsb' 16 8, t.res.word.extractLsb' 24 8])
    ∧ (i ≠ .dumpregs → (∀ reg, i ≠ .rdcfg reg) → t.port.drop 4 = []))
  ∧ Status.ok.code = 0 ∧ Status.nakAddr.code = 1 ∧ Status.nakPtr.code = 2 ∧ Status.nakData.code = 3 ∧ Status.invalidArg.code = 4
  ∧ Status.queueFull.code = 5 ∧ Status.illegalCmd.code = 6

/-- R90: the block executes a command only when its last byte has arrived. That a step then leaves the state as it is, is the model's
choice: log entry 8. -/
def Obligations.StepWaitsForWholeCommand : Prop :=
  ∀ s : State, (s.cmd = [] ∨ ∃ op bytes, s.cmd = op :: bytes ∧ ¬ IllegalOpcode op ∧ bytes.length + 1 < commandLength op) →
    step s = .next s

/-- R223, R228: nothing is fatal and nothing halts: every operation and every step answers a next state, from every state. -/
def Obligations.NothingIsFatal : Prop :=
  (∀ (i : Instr) (s : State), ∃ t, exec i s = .next t) ∧ (∀ s : State, ∃ t, step s = .next t)

/-! ## The whole machine: reset, invariants, who writes what -/

/-- R46, R250: every field at its reset value, in the machine's own reset state and in that of every build (parameters `c`, channels `ch`)
and every environment. -/
def Obligations.ResetHasTheSpecValues : Prop :=
  ∀ (s : State) (c : Config) (ch : List ChannelCfg) (e : Env), (s = State.reset ∨ s = State.resetWith c ch e) →
    s.i2c.sdaPin = 0 ∧ s.i2c.sclPin = 0 ∧ s.i2c.lastSda = true ∧ s.i2c.lastScl = true ∧ s.wave = []
    ∧ (∀ i, Memory.read s.shadow i = 0) ∧ s.synced = false
    ∧ s.res.status = .ok ∧ s.res.index = 0 ∧ s.res.value = 0 ∧ s.res.data = List.replicate 22 0 ∧ s.res.word = 0
    ∧ (∀ x ∈ s.chans, x.cnt = 0 ∧ x.held = none) ∧ (State.resetWith c ch e).chans.map (·.cfg) = ch
    ∧ s.queue = [] ∧ s.heldAct = none ∧ s.heldLvl = none
    ∧ s.actOn = false ∧ s.actCountdown = 0 ∧ s.minArmed = false ∧ s.actDuration = 0 ∧ s.upgVersion = 0
    ∧ s.dspErr.flag = false ∧ s.dspErr.status = .ok ∧ s.dspErr.index = 0 ∧ s.upgLast = false
    ∧ s.pub = [] ∧ s.delayLog = [] ∧ s.upgLog = [] ∧ s.cmd = []

/-- The invariant of the block holds at reset, for every build within the ranges of R6. -/
def Obligations.ResetMeetsTheInvariant : Prop :=
  (∀ (c : Config) (ch : List ChannelCfg) (e : Env), c.wf = true → 1 ≤ ch.length → ch.length ≤ 8 → (∀ x ∈ ch, x.wf = true) →
    e.Good → (State.resetWith c ch e).Inv ∧ (State.resetWith c ch e).BusIdle)
  ∧ State.reset.Inv ∧ State.reset.BusIdle

/-- R31, R35, R36, R37, R38, R25, R33, R80: the invariant of the block (`State.Inv`) is kept by every step, from every state that meets
it. -/
def Obligations.StepKeepsTheInvariant : Prop :=
  ∀ s t : State, s.Inv → step s = .next t → t.Inv

/-- R223, R260, R139: a driver operation that is not refused leaves the bus idle, from whatever the lines were; and from the idle bus every
operation but a line primitive leaves it idle. -/
def Obligations.BusIdleAfterEveryOperation : Prop :=
  ∀ (i : Instr) (s t : State), exec i s = .next t →
    (Instr.isDriver i = true → i.wellFormed s.nch = true → t.BusIdle) ∧ (Instr.isEngine i = false → s.BusIdle → t.BusIdle)

/-- R6, R32: no step writes a parameter or a channel's configuration. -/
def Obligations.ParametersNeverChange : Prop :=
  ∀ s t : State, step s = .next t → t.cfg = s.cfg ∧ t.chans.map (·.cfg) = s.chans.map (·.cfg)

/-- R24, R43, R44: the waveform and the three output logs only grow, at their ends. -/
def Obligations.OutputsOnlyGrow : Prop :=
  ∀ s t : State, step s = .next t →
    s.wave <+: t.wave ∧ s.pub <+: t.pub ∧ s.delayLog <+: t.delayLog ∧ s.upgLog <+: t.upgLog

/-- R26, R63: which operation may change which shadow register. DISPATCH changes it only through the driver operations of the
actuator and level handlers. -/
def Obligations.ShadowWrittenOnlyByTheDriver : Prop :=
  ∀ (i : Instr) (s t : State), exec i s = .next t → ∀ a, Memory.read t.shadow a ≠ Memory.read s.shadow a →
    (∃ b c d e f g h k, i = .begin b c d e f g h k)
    ∨ ((∃ pin mode, i = .pinmode pin mode) ∧ (a = 0 ∨ a = 1 ∨ a = 12 ∨ a = 13))
    ∨ ((∃ pin pud, i = .pudctl pin pud) ∧ (a = 12 ∨ a = 13))
    ∨ ((i = .dread16 ∨ (∃ pin, i = .dread pin) ∨ (∃ v, i = .dwrite16 v) ∨ (∃ pin level, i = .dwrite pin level)) ∧ (a = 18 ∨ a = 19))
    ∨ (i = .dispatch ∧ (∃ g rest, s.queue = g :: rest ∧ (g.kind = .actSet ∨ g.kind = .levelSample)) ∧ (a = 18 ∨ a = 19))

/-- R230, R266, R180: the operations of the callback context change only counters, the countdown, the arm bit, the queue, the retry slots
and the result record; in particular no slot is driven and nothing is published. -/
def Obligations.CallbackContextStaysOffTheBus : Prop :=
  ∀ (i : Instr) (s t : State), Instr.isCallback i = true → exec i s = .next t → CallbackFrame s t

/-- R34, R28, R38, R39, R41: the status bits and host registers change only by the rules named there. -/
def Obligations.StatusChangesOnlyByItsRules : Prop :=
  ∀ (i : Instr) (s t : State), exec i s = .next t →
    (t.synced ≠ s.synced → ∃ a b c d e f g h, i = .begin a b c d e f g h)
    ∧ (t.actOn ≠ s.actOn → i = .dispatch ∧ ∃ p rest, s.queue = ⟨.actSet, p⟩ :: rest ∧ t.actOn = decide (p = 1))
    ∧ (s.minArmed = false → t.minArmed = true → i = .dispatch ∧ ∃ rest, s.queue = ⟨.actSet, 1⟩ :: rest)
    ∧ (s.minArmed = true → t.minArmed = false →
        (i = .dispatch ∧ ∃ p rest, s.queue = ⟨.actSet, p⟩ :: rest ∧ p ≠ 1) ∨ (i = .mintick ∧ t.actCountdown = 0))
    ∧ (t.actDuration ≠ s.actDuration → ∃ w, i = .wrcfg 0 w)
    ∧ (t.upgVersion ≠ s.upgVersion → (∃ w, i = .wrcfg 1 w) ∨ (i = .dispatch ∧ ∃ p rest, s.queue = ⟨.upgrade, p⟩ :: rest))
    ∧ (t.upgLast ≠ s.upgLast → i = .dispatch ∧ ∃ p rest, s.queue = ⟨.upgrade, p⟩ :: rest)
    ∧ (t.pub ≠ s.pub → i = .dispatch)

/-- R40, R194: the sticky error record changes only when a handler's bus access failed, and then holds a NAK status, or when the host
clears it by WRCFG. -/
def Obligations.HandlerErrorIsSticky : Prop :=
  ∀ (i : Instr) (s t : State), exec i s = .next t → t.dspErr ≠ s.dspErr →
    (i = .dispatch ∧ t.dspErr.flag = true
      ∧ (t.dspErr.status = .nakAddr ∨ t.dspErr.status = .nakPtr ∨ t.dspErr.status = .nakData))
    ∨ (∃ w, i = .wrcfg 2 w ∧ t.dspErr = ⟨false, .ok, 0⟩)

/-- R225, R195, R184, R185: an event delivered while it is not enabled is a no-op: only the result record is written, with OK and 0. -/
def Obligations.DisabledEventIsNoOp : Prop :=
  ∀ (i : Instr) (s : State), i.wellFormed s.nch = true → s.enabled i = false →
    exec i s = .next { s with res := s.outcome .ok 0 0 }

/-! ## U1: the line primitives -/

/-- R112, R94: SETLINES drives and records both levels for one slot; bit 1 of the operand is SDA and bit 0 SCL; with a reserved bit set
nothing is driven. -/
def Obligations.SetlinesDrivesAndRecords : Prop :=
  ∀ (a : Byte) (s : State),
    encode (.setlines a) = [0x11, a]
    ∧ (a.toNat < 4 → ∃ e, exec (.setlines a) s = .next { s with
        i2c := { s.i2c with lastSda := a.getLsbD 1, lastScl := a.getLsbD 0 }
        wave := s.wave ++ [⟨a.getLsbD 1, a.getLsbD 0⟩]
        res := s.outcome .ok 0 0
        env := e })
    ∧ (4 ≤ a.toNat → exec (.setlines a) s = .next { s with res := s.outcome .invalidArg 0 0 })

/-- R113: I2CINIT records the two pin identifiers and releases both lines for one slot; from (0,1), and from no other lines, that slot is a
STOP condition. -/
def Obligations.I2cinitReleasesTheLines : Prop :=
  ∀ (sda scl : Byte) (s : State),
    encode (.i2cinit sda scl) = [0x10, sda, scl]
    ∧ ∃ e t, exec (.i2cinit sda scl) s = .next t
      ∧ t = { s with
          i2c := ⟨sda, scl, true, true⟩
          wave := s.wave ++ [⟨true, true⟩]
          res := s.outcome .ok 0 0
          env := e }
      ∧ conditions 1 s.lines (newSlots s t) = if s.lines = ⟨false, true⟩ then [(1, true)] else []

/-- R114, R115, R260, R261: START is the three slots (1, last_scl), (1,1), (0,1) and ends at (0,1); STOP is the three slots (0, last_scl),
(0,1), (1,1) and ends at (1,1). The conditions they give: START exactly one START condition (`false`, SDA falls), but from (0,1) a STOP
condition (`true`) before it; STOP exactly one STOP condition, but from the idle bus a START condition before it. -/
def Obligations.StartAndStopSlots : Prop :=
  ∀ s : State, encode .start = [0x12] ∧ encode .stop = [0x13]
    ∧ (∃ e t, exec .start s = .next t
      ∧ t = { s with
          i2c := { s.i2c with lastSda := false, lastScl := true }
          wave := s.wave ++ [⟨true, s.i2c.lastScl⟩, ⟨true, true⟩, ⟨false, true⟩]
          res := s.outcome .ok 0 0
          env := e }
      ∧ conditions 1 s.lines (newSlots s t) = if s.lines = ⟨false, true⟩ then [(1, true), (3, false)] else [(3, false)])
    ∧ (∃ e t, exec .stop s = .next t
      ∧ t = { s with
          i2c := { s.i2c with lastSda := true, lastScl := true }
          wave := s.wave ++ [⟨false, s.i2c.lastScl⟩, ⟨false, true⟩, ⟨true, true⟩]
          res := s.outcome .ok 0 0
          env := e }
      ∧ conditions 1 s.lines (newSlots s t) = if s.lines = ⟨true, true⟩ then [(1, false), (3, true)] else [(3, true)])

/-- R116, R62: SENDBYTE lowers SCL, then puts out each bit, bit 7 first, in three slots; 25 slots, ending at (v[0], 0), with no START or STOP
condition in them from any entry levels. -/
def Obligations.SendbyteShiftsOutMsbFirst : Prop :=
  ∀ (v : Byte) (s : State), encode (.sendbyte v) = [0x14, v]
    ∧ ∃ e t, exec (.sendbyte v) s = .next t
      ∧ t = { s with
          i2c := { s.i2c with lastSda := v.getLsbD 0, lastScl := false }
          wave := s.wave ++ (⟨s.i2c.lastSda, false⟩ ::
            [7, 6, 5, 4, 3, 2, 1, 0].flatMap fun n => [⟨v.getLsbD n, false⟩, ⟨v.getLsbD n, true⟩, ⟨v.getLsbD n, false⟩])
          res := s.outcome .ok 0 0
          env := e }
      ∧ (newSlots s t).length = 25 ∧ conditions 1 s.lines (newSlots s t) = []

/-- R117, R111, R23, R222: READACK clocks one bit, samples SDA in its high slot and answers 1 when the wire was low there; a missing
acknowledge is a result with status OK. `u` is the block in that high slot. With nothing on the bus the answer is 0; an oracle slave
is asked for exactly one level. -/
def Obligations.ReadackReportsTheSlaveLevel : Prop :=
  ∀ s : State, encode .readack = [0x15]
    ∧ (∃ u e, drive [⟨s.i2c.lastSda, false⟩, ⟨true, false⟩, ⟨true, true⟩] s = u
      ∧ exec .readack s = .next { s with
          i2c := { s.i2c with lastSda := true, lastScl := false }
          wave := s.wave ++ [⟨s.i2c.lastSda, false⟩, ⟨true, false⟩, ⟨true, true⟩, ⟨true, false⟩]
          res := s.outcome .ok 0 (if u.sdaIn = false then 1 else 0)
          env := e })
    ∧ (s.env.slave = .absent → ∃ t, exec .readack s = .next t ∧ t.res.value = 0)
    ∧ (∀ (b : Level) (bs : List Level) (a : List Bool) (k : Nat), s.env = ⟨.oracle (b :: bs), a, k⟩ →
        ∃ t, exec .readack s = .next t ∧ t.res.value = (if b then 0 else 1) ∧ t.env = ⟨.oracle bs, a, k⟩)

/-- R118, R119, R120: SENDACK drives the acknowledge bit, low for 1 and high for 0, in five slots ending at (1,0); any other operand drives
nothing; ACK is SENDACK 1 and NACK is SENDACK 0. -/
def Obligations.SendackDrivesTheFlag : Prop :=
  ∀ s : State,
    (∀ (low : Byte) (l : Level), (low = 1 ∧ l = false ∨ low = 0 ∧ l = true) →
      ∃ e, exec (.sendack low) s = .next { s with
        i2c := { s.i2c with lastSda := true, lastScl := false }
        wave := s.wave ++ [⟨s.i2c.lastSda, false⟩, ⟨l, false⟩, ⟨l, true⟩, ⟨l, false⟩, ⟨true, false⟩]
        res := s.outcome .ok 0 0
        env := e })
    ∧ (∀ low : Byte, 2 ≤ low.toNat → exec (.sendack low) s = .next { s with res := s.outcome .invalidArg 0 0 })
    ∧ exec .ack s = exec (.sendack 1) s ∧ exec .nack s = exec (.sendack 0) s
    ∧ (∀ low, encode (.sendack low) = [0x16, low]) ∧ encode .ack = [0x17] ∧ encode .nack = [0x18]
    ∧ (∃ t, exec .ack s = .next t) ∧ (∃ t, exec .nack s = .next t)

/-- R121, R62: READBYTE samples eight bits, bit 7 first, one in each high slot, in 18 slots ending at (1,0). With nothing on the bus the byte
is 0xFF; from a slave that drives the bits of `v` it is `v`. -/
def Obligations.ReadbyteSamplesMsbFirst : Prop :=
  ∀ s : State, encode .readbyte = [0x19]
    ∧ (∃ (v : Byte) (e : Env), exec .readbyte s = .next { s with
        i2c := { s.i2c with lastSda := true, lastScl := false }
        wave := s.wave ++ (⟨s.i2c.lastSda, false⟩
          :: ([7, 6, 5, 4, 3, 2, 1, 0].flatMap fun _ => [⟨true, false⟩, ⟨true, true⟩]) ++ [⟨true, false⟩])
        res := s.outcome .ok 0 (v.setWidth 16)
        env := e })
    ∧ (s.env.slave = .absent → ∃ t, exec .readbyte s = .next t ∧ t.res.value = 0xFF)
    ∧ (∀ (v : Byte) (rest : List Level) (a : List Bool) (k : Nat), s.env = ⟨.oracle (levelsOf v ++ rest), a, k⟩ →
        ∃ t, exec .readbyte s = .next t ∧ t.res.value = v.setWidth 16 ∧ t.env = ⟨.oracle rest, a, k⟩)

/-- R123: the slots, the levels on exit and the samples of each primitive, for every state on entry. -/
def Obligations.PrimitiveSlotTable : Prop :=
  ∀ (i : Instr) (s t : State), exec i s = .next t →
    (∀ p ∈ [(Instr.start, 3, (⟨false, true⟩ : Slot), 0), (.stop, 3, ⟨true, true⟩, 0), (.readack, 4, ⟨true, false⟩, 1),
        (.sendack 0, 5, ⟨true, false⟩, 0), (.sendack 1, 5, ⟨true, false⟩, 0), (.ack, 5, ⟨true, false⟩, 0),
        (.nack, 5, ⟨true, false⟩, 0), (.readbyte, 18, ⟨true, false⟩, 8)],
      i = p.1 → (newSlots s t).length = p.2.1 ∧ t.lines = p.2.2.1
        ∧ ∀ bs a k, s.env = ⟨.oracle bs, a, k⟩ → p.2.2.2 ≤ bs.length → t.env = ⟨.oracle (bs.drop p.2.2.2), a, k⟩)
    ∧ (∀ a b, i = .i2cinit a b → (newSlots s t).length = 1 ∧ t.lines = ⟨true, true⟩
        ∧ ∀ bs u k, s.env = ⟨.oracle bs, u, k⟩ → t.env = s.env)
    ∧ (∀ a : Byte, a.toNat < 4 → i = .setlines a → (newSlots s t).length = 1 ∧ t.lines = ⟨a.getLsbD 1, a.getLsbD 0⟩
        ∧ ∀ bs u k, s.env = ⟨.oracle bs, u, k⟩ → t.env = s.env)
    ∧ (∀ v : Byte, i = .sendbyte v → (newSlots s t).length = 25 ∧ t.lines = ⟨v.getLsbD 0, false⟩
        ∧ ∀ bs u k, s.env = ⟨.oracle bs, u, k⟩ → t.env = s.env)

/-! ## The two transactions -/

/-- R65, R68, R75: a write burst, as the procedure XWRITE, from the idle bus or not: how it can end, what it confirms in the shadow, what is
on the bus, and that nothing else changes. -/
def Obligations.WriteBurstOnTheBus : Prop :=
  ∀ (i : Nat) (data : List Byte) (s : State), 1 ≤ data.length → i + data.length ≤ 22 →
    ∃ status index t, xwrite i data s = (⟨status, index, 0⟩, t) ∧ OneBurst s t i data status index ∧ t.res = s.res

/-- R66, R75: a read burst, as the procedure XREAD: how it can end, that the bytes read are in the shadow exactly with `update`, what is on
the bus, and that nothing else changes. -/
def Obligations.ReadBurstOnTheBus : Prop :=
  ∀ (i k : Nat) (update : Bool) (s : State), 1 ≤ k → i + k ≤ 22 →
    ∃ status index bytes t, xread i k update s = (⟨⟨status, index, 0⟩, bytes⟩, t) ∧ OneRead s t i k update bytes status index
      ∧ t.res = s.res

/-- R227, R220, R65, R66: the first byte not acknowledged decides the status and the index, for every pattern of acknowledges an oracle slave
gives; a read that is acknowledged gives the bytes the slave sends. -/
def Obligations.FirstMissingAckDecides : Prop :=
  ∀ (i : Nat) (data : List Byte) (s : State) (u : Bool) (rest : List Level) (a : List Bool) (n : Nat),
    1 ≤ data.length → i + data.length ≤ 22 →
    (s.env = ⟨.oracle (true :: rest), a, n⟩ →
      (xwrite i data s).1 = ⟨.nakAddr, 0, 0⟩ ∧ (xread i data.length u s).1 = ⟨⟨.nakAddr, 0, 0⟩, []⟩)
    ∧ (s.env = ⟨.oracle (false :: true :: rest), a, n⟩ →
      (xwrite i data s).1 = ⟨.nakPtr, 0, 0⟩ ∧ (xread i data.length u s).1 = ⟨⟨.nakPtr, 0, 0⟩, []⟩)
    ∧ (∀ m, m < data.length → s.env = ⟨.oracle (false :: false :: (List.replicate m false ++ true :: rest)), a, n⟩ →
      (xwrite i data s).1 = ⟨.nakData, BitVec.ofNat 8 m, 0⟩)
    ∧ (s.env = ⟨.oracle (false :: false :: (List.replicate data.length false ++ rest)), a, n⟩ → (xwrite i data s).1 = ⟨.ok, 0, 0⟩)
    ∧ (s.env = ⟨.oracle (false :: false :: true :: rest), a, n⟩ → (xread i data.length u s).1 = ⟨⟨.nakAddr, 1, 0⟩, []⟩)
    ∧ (s.env = ⟨.oracle (false :: false :: false :: (data.flatMap levelsOf ++ rest)), a, n⟩ →
      (xread i data.length u s).1 = ⟨⟨.ok, 0, 0⟩, data⟩)

/-- R270: the slot counts of the transactions, whole and aborted, and of the acknowledged operations and handlers. -/
def Obligations.SlotCounts : Prop :=
  (∀ (i : Nat) (data : List Byte) (s : State), 1 ≤ data.length → i + data.length ≤ 22 →
    ((xwrite i data s).1.status = .ok → (newSlots s (xwrite i data s).2).length = 6 + 29 * (data.length + 2))
    ∧ ((xwrite i data s).1.status = .nakAddr → (newSlots s (xwrite i data s).2).length = 35)
    ∧ ((xwrite i data s).1.status = .nakPtr → (newSlots s (xwrite i data s).2).length = 64)
    ∧ ((xwrite i data s).1.status = .nakData →
        (newSlots s (xwrite i data s).2).length = 93 + 29 * (xwrite i data s).1.index.toNat))
  ∧ (∀ (i k : Nat) (u : Bool) (s : State), 1 ≤ k → i + k ≤ 22 →
    ((xread i k u s).1.result.status = .ok → (newSlots s (xread i k u s).2).length = 96 + 23 * k)
    ∧ ((xread i k u s).1.result.status = .nakAddr → (xread i k u s).1.result.index = 0 →
        (newSlots s (xread i k u s).2).length = 35)
    ∧ ((xread i k u s).1.result.status = .nakPtr → (newSlots s (xread i k u s).2).length = 64)
    ∧ ((xread i k u s).1.result.status = .nakAddr → (xread i k u s).1.result.index = 1 →
        (newSlots s (xread i k u s).2).length = 96))
  ∧ (∀ (i : Instr) (s t : State), exec i s = .next t → t.res.status = .ok →
    ((∃ a b c d e f g h, i = .begin a b c d e f g h) → (newSlots s t).length = 471)
    ∧ ((∃ pin mode, i = .pinmode pin mode) → (newSlots s t).length = 244)
    ∧ (((∃ pin pud, i = .pudctl pin pud) ∨ (∃ v, i = .dwrite16 v) ∨ (∃ pin l, i = .dwrite pin l)) → (newSlots s t).length = 122)
    ∧ ((i = .dread16 ∨ (∃ pin, i = .dread pin)) → (newSlots s t).length = 142)
    ∧ (i = .dumpregs → (newSlots s t).length = 602))
  ∧ (∀ s t : State, exec .dispatch s = .next t → s.dspErr.flag = false → t.dspErr.flag = false →
    ((∃ p rest, s.queue = ⟨.actSet, p⟩ :: rest) → (newSlots s t).length = 122)
    ∧ ((∃ p rest, s.queue = ⟨.levelSample, p⟩ :: rest) → (newSlots s t).length = 386))

/-- R124: in the waveform of either transaction started from the idle bus, SDA changes under high SCL only in the last slot of START (a fall)
and in the last slot of STOP (a rise): slot 3 and the last slot, and in a read that reaches it slot 64 for the repeated START. -/
def Obligations.ConditionsOnlyAtStartAndStop : Prop :=
  (∀ (i : Nat) (data : List Byte) (s : State), 1 ≤ data.length → i + data.length ≤ 22 → s.BusIdle →
    conditions 1 s.lines (newSlots s (xwrite i data s).2) = [(3, false), ((newSlots s (xwrite i data s).2).length, true)])
  ∧ (∀ (i k : Nat) (u : Bool) (s : State), 1 ≤ k → i + k ≤ 22 → s.BusIdle →
    conditions 1 s.lines (newSlots s (xread i k u s).2) =
      (if (xread i k u s).1.result.status = .ok ∨ (xread i k u s).1.result.index = 1
       then [(3, false), (64, false), ((newSlots s (xread i k u s).2).length, true)]
       else [(3, false), ((newSlots s (xread i k u s).2).length, true)]))

/-! ## U2: the driver operations -/

/-- R131, R28: BEGIN sets the whole shadow, releases the lines with I2CINIT, writes registers 0 to 13 in one burst by XWRITE, and `synced`
says whether every byte was acknowledged; the shadow holds the intended values however the burst ended. Acknowledged it is 471 slots. -/
def Obligations.BeginWritesFourteenRegisters : Prop :=
  ∀ (a b dirA dirB puA puB polA polB : Byte) (s : State),
    encode (.begin a b dirA dirB puA puB polA polB) = [0x20, a, b, dirA, dirB, puA, puB, polA, polB]
    ∧ ∃ status index sh t u, exec (.begin a b dirA dirB puA puB polA polB) s = .next t
      ∧ WriteStatus 14 status index
      ∧ xwrite 0 [dirA, dirB, polA, polB, 0, 0, 0, 0, 0, 0, 0, 0, puA, puB] (i2cInit a b { s with shadow := sh })
          = (⟨status, index, 0⟩, u)
      ∧ t = { u with synced := decide (status = .ok), res := s.outcome status index 0 }
      ∧ t = { s with
          i2c := ⟨a, b, true, true⟩, wave := t.wave, env := t.env, shadow := sh, synced := decide (status = .ok),
          res := s.outcome status index 0 }
      ∧ (∀ r, Memory.read sh r =
          if r = 0 then dirA else if r = 1 then dirB else if r = 2 then polA else if r = 3 then polB
          else if r = 12 then puA else if r = 13 then puB else 0)
      ∧ Memory.wf sh
      ∧ s.wave <+: t.wave
      ∧ (newSlots s t).take 1 = [⟨true, true⟩]
      ∧ busItems ⟨true, true⟩ [] ((newSlots s t).drop 1)
          = writeItems (sentBytes s.cfg 0 [dirA, dirB, polA, polB, 0, 0, 0, 0, 0, 0, 0, 0, puA, puB] status index)
      ∧ (status = .ok → (newSlots s t).length = 471)

/-- R132, R140, R26, R130: PINMODE with an accepted pin and mode writes the direction pair by XWRITE and then, if both bytes were confirmed,
the pull-up pair; only bit `pin` of each pair differs from the shadow; the result is that of the first transaction that failed. Any
other pin or mode is refused and nothing is driven. Acknowledged it is 244 slots. -/
def Obligations.PinmodeWritesBothPairs : Prop :=
  (∀ (pin mode : Byte) (d u : Bool) (s : State), pin.toNat ≤ 15 →
    (mode = 0 ∧ d = true ∧ u = false ∨ mode = 1 ∧ d = false ∧ u = false ∨ mode = 2 ∧ d = true ∧ u = true) →
    encode (.pinmode pin mode) = [0x21, pin, mode]
    ∧ ∃ (dir pu : Half) (status : Status) (index : Byte) (v t : State), exec (.pinmode pin mode) s = .next t
      ∧ (∀ k, k < 16 → dir.getLsbD k = if k = pin.toNat then d else (pairAt s.shadow 0).getLsbD k)
      ∧ (∀ k, k < 16 → pu.getLsbD k = if k = pin.toNat then u else (pairAt s.shadow 12).getLsbD k)
      ∧ t = { v with res := s.outcome status index 0 }
      ∧ ((status ≠ .ok
          ∧ xwrite 0 [dir.extractLsb' 0 8, dir.extractLsb' 8 8] s = (⟨status, index, 0⟩, v)
          ∧ OneBurst s t 0 [dir.extractLsb' 0 8, dir.extractLsb' 8 8] status index)
        ∨ ∃ m, xwrite 0 [dir.extractLsb' 0 8, dir.extractLsb' 8 8] s = (⟨.ok, 0, 0⟩, m)
          ∧ OneBurst s m 0 [dir.extractLsb' 0 8, dir.extractLsb' 8 8] .ok 0
          ∧ xwrite 12 [pu.extractLsb' 0 8, pu.extractLsb' 8 8] m = (⟨status, index, 0⟩, v)
          ∧ OneBurst m t 12 [pu.extractLsb' 0 8, pu.extractLsb' 8 8] status index)
      ∧ (∀ a, a ≠ 0 → a ≠ 1 → a ≠ 12 → a ≠ 13 → Memory.read t.shadow a = Memory.read s.shadow a)
      ∧ (status = .ok → (newSlots s t).length = 244))
  ∧ (∀ (pin mode : Byte) (s : State), 16 ≤ pin.toNat ∨ 3 ≤ mode.toNat →
    exec (.pinmode pin mode) s = .next { s with res := s.outcome .invalidArg 0 0 })

/-- R133, R26, R130: PUDCTL with an accepted pin and selection writes the pull-up pair by XWRITE, of which only bit `pin` differs from the
shadow. Any other pin or selection, pull-down among them, is refused and nothing is driven. Acknowledged it is 122 slots. -/
def Obligations.PudctlWritesThePullupPair : Prop :=
  (∀ (pin pud : Byte) (b : Bool) (s : State), pin.toNat ≤ 15 → (pud = 0 ∧ b = false ∨ pud = 2 ∧ b = true) →
    encode (.pudctl pin pud) = [0x22, pin, pud]
    ∧ ∃ (pu : Half) (status : Status) (index : Byte) (v t : State), exec (.pudctl pin pud) s = .next t
      ∧ (∀ k, k < 16 → pu.getLsbD k = if k = pin.toNat then b else (pairAt s.shadow 12).getLsbD k)
      ∧ xwrite 12 [pu.extractLsb' 0 8, pu.extractLsb' 8 8] s = (⟨status, index, 0⟩, v)
      ∧ t = { v with res := s.outcome status index 0 }
      ∧ OneBurst s t 12 [pu.extractLsb' 0 8, pu.extractLsb' 8 8] status index
      ∧ (status = .ok → (newSlots s t).length = 122))
  ∧ (∀ (pin pud : Byte) (s : State), 16 ≤ pin.toNat ∨ pud.toNat = 1 ∨ 3 ≤ pud.toNat →
    exec (.pudctl pin pud) s = .next { s with res := s.outcome .invalidArg 0 0 })

/-- R136, R63, R26: DWRITE16 writes the low byte to GPIO_A and the high byte to GPIO_B by XWRITE; the shadow takes each byte when
confirmed. Acknowledged it is 122 slots. -/
def Obligations.Dwrite16WritesTheGpioPair : Prop :=
  ∀ (x : Half) (s : State),
    encode (.dwrite16 x) = [0x25, x.extractLsb' 0 8, x.extractLsb' 8 8]
    ∧ ∃ (status : Status) (index : Byte) (v t : State), exec (.dwrite16 x) s = .next t
      ∧ xwrite 18 [x.extractLsb' 0 8, x.extractLsb' 8 8] s = (⟨status, index, 0⟩, v)
      ∧ t = { v with res := s.outcome status index 0 }
      ∧ OneBurst s t 18 [x.extractLsb' 0 8, x.extractLsb' 8 8] status index
      ∧ (status = .ok → (newSlots s t).length = 122)

/-- R137, R130: DWRITE with an accepted pin and level is DWRITE16 of the GPIO shadow with bit `pin` at that level. Any other pin or level is
refused and nothing is driven. -/
def Obligations.DwriteSetsOneBit : Prop :=
  (∀ (pin level : Byte) (l : Bool) (s : State), pin.toNat ≤ 15 → (level = 0 ∧ l = false ∨ level = 1 ∧ l = true) →
    encode (.dwrite pin level) = [0x26, pin, level]
    ∧ ∃ (new : Half) (t : State), exec (.dwrite pin level) s = .next t ∧ exec (.dwrite16 new) s = .next t
      ∧ (∀ k, k < 16 → new.getLsbD k = if k = pin.toNat then l else (pairAt s.shadow 18).getLsbD k))
  ∧ (∀ (pin level : Byte) (s : State), 16 ≤ pin.toNat ∨ 2 ≤ level.toNat →
    exec (.dwrite pin level) s = .next { s with res := s.outcome .invalidArg 0 0 })

/-- R134, R30, R63: DREAD16 reads GPIO_A and GPIO_B into the shadow by XREAD and returns them packed, port B high; when the read failed the
shadow is as it was and the value is the packed shadow. From a slave that acknowledges and sends `lo` and `hi` the value is
`hi ++ lo`. Acknowledged it is 142 slots. -/
def Obligations.Dread16ReadsTheGpioPair : Prop :=
  ∀ s : State, encode .dread16 = [0x23]
    ∧ ∃ (status : Status) (index : Byte) (bytes : List Byte) (v t : State), exec .dread16 s = .next t
      ∧ xread 18 2 true s = (⟨⟨status, index, 0⟩, bytes⟩, v)
      ∧ t = { v with res := s.outcome status index (Memory.read v.shadow 19 ++ Memory.read v.shadow 18 : BitVec 16) }
      ∧ OneRead s t 18 2 true bytes status index
      ∧ (status = .ok → (newSlots s t).length = 142)
      ∧ (∀ (lo hi : Byte) (rest : List Level) (a : List Bool) (k : Nat),
          s.env = ⟨.oracle (false :: false :: false :: (levelsOf lo ++ levelsOf hi ++ rest)), a, k⟩ →
          Memory.wf s.shadow →
          status = .ok ∧ bytes = [lo, hi] ∧ t.res.value = (hi ++ lo : BitVec 16) ∧ t.env = ⟨.oracle rest, a, k⟩)

/-- R135, R130: DREAD with an accepted pin does all DREAD16 does and returns bit `pin` of its value. Any other pin is refused and nothing is
driven. -/
def Obligations.DreadGivesOneBit : Prop :=
  ∀ (pin : Byte) (s : State), encode (.dread pin) = [0x24, pin]
    ∧ (pin.toNat ≤ 15 → ∃ t, exec .dread16 s = .next t
      ∧ exec (.dread pin) s
        = .next { t with res := { t.res with value := if t.res.value.getLsbD pin.toNat then 1 else 0 } })
    ∧ (16 ≤ pin.toNat → exec (.dread pin) s = .next { s with res := s.outcome .invalidArg 0 0 })

/-- R138: DUMPREGS reads all 22 registers by XREAD into the result data when the read is acknowledged, keeps the old data when not, and
never touches the shadow. Acknowledged it is 602 slots. -/
def Obligations.DumpregsFillsTheData : Prop :=
  ∀ s : State, encode .dumpregs = [0x27]
    ∧ ∃ (status : Status) (index : Byte) (bytes : List Byte) (v t : State), exec .dumpregs s = .next t
      ∧ xread 0 22 false s = (⟨⟨status, index, 0⟩, bytes⟩, v)
      ∧ t = { v with res := { s.outcome status index 0 with data := if status = .ok then bytes else s.res.data } }
      ∧ OneRead s t 0 22 false bytes status index
      ∧ (status = .ok → (newSlots s t).length = 602)
      ∧ (∀ (bs : List Byte) (rest : List Level) (a : List Bool) (k : Nat), bs.length = 22 →
          s.env = ⟨.oracle (false :: false :: false :: (bs.flatMap levelsOf ++ rest)), a, k⟩ → status = .ok ∧ bytes = bs)

/-- R142, R68, R81: with the reference device set not to acknowledge byte 3 (the second data byte), a two-byte write reports (NAK_DATA, 1);
the first register of the pair holds the new byte in shadow and device, the second the old one; PINMODE stops after its first
transaction. The new byte is the low byte of DWRITE16's operand, or the port-A byte of the shadow pair with bit `pin`, when that
pin is of port A, at the level the operand selects. -/
def Obligations.TornWrite : Prop :=
  ∀ (s : State) (d : Device) (acks : List Bool) (n : Nat), s.env = ⟨.reference d, acks, n⟩ → d.inTx = false → d.nakAt = some 3 →
    s.cfg.wf = true → s.BusIdle → Memory.wf s.shadow →
    (∀ (i : Instr) (r : Nat), ((∃ v, i = .dwrite16 v) ∧ r = 18
        ∨ (∃ pin pud, i = .pudctl pin pud) ∧ r = 12 ∨ (∃ pin mode, i = .pinmode pin mode) ∧ r = 0) →
      i.wellFormed s.nch = true →
      ∃ (t : State) (e : Device) (new : Byte), exec i s = .next t ∧ t.res = s.outcome .nakData 1 0
        ∧ t.shadow = Memory.write s.shadow r new
        ∧ Memory.read t.shadow r = new ∧ (∀ a, a ≠ r → Memory.read t.shadow a = Memory.read s.shadow a)
        ∧ t.env = ⟨.reference e, acks, n⟩ ∧ e.reg = d.storeReg r new
        ∧ (∀ v : Half, i = .dwrite16 v → new = v.extractLsb' 0 8)
        ∧ (∀ (pin pud : Byte) (k : Nat), i = .pudctl pin pud → k < 8 →
            new.getLsbD k = if k = pin.toNat then decide (pud = 2) else (Memory.read s.shadow 12).getLsbD k)
        ∧ (∀ (pin mode : Byte) (k : Nat), i = .pinmode pin mode → k < 8 →
            new.getLsbD k = if k = pin.toNat then decide (mode ≠ 1) else (Memory.read s.shadow 0).getLsbD k))

/-- R141, R82: against the reference device without fault injection, plain or with pins, after BEGIN (any operands) PINMODE p, OUTPUT;
DWRITE p, l; DREAD p returns (OK, l) for every pin and level; with the plain register file the shadow then equals the device in
registers 0 to 13, 18 and 19. -/
def Obligations.PinRoundTrip : Prop :=
  ∀ (s : State) (d : Device) (acks : List Bool) (n : Nat) (a b dirA dirB puA puB polA polB p : Byte) (l : Bool),
    s.env = ⟨.reference d, acks, n⟩ → d.inTx = false → d.nakAt = none → d.Good → s.cfg.wf = true → s.BusIdle → p.toNat ≤ 15 →
    ∃ s1 s2 s3 s4,
      exec (.begin a b dirA dirB puA puB polA polB) s = .next s1 ∧ s1.res.status = .ok ∧ s1.synced = true
      ∧ exec (.pinmode p 1) s1 = .next s2 ∧ s2.res.status = .ok
      ∧ exec (.dwrite p (if l then 1 else 0)) s2 = .next s3 ∧ s3.res.status = .ok
      ∧ exec (.dread p) s3 = .next s4 ∧ s4.res = s.outcome .ok 0 (if l then 1 else 0)
      ∧ (d.pins = none → ∃ e, s4.env = ⟨.reference e, acks, n⟩
          ∧ ∀ r, (r ≤ 13 ∨ r = 18 ∨ r = 19) → Memory.read s4.shadow r = Memory.read e.reg r)

/-- R72, R26, R65, R80: against the plain reference device without fault injection, and nobody else writing it, the shadow and the device
agree in registers 0 to 13 after every operation but a line primitive, once they agree; and after BEGIN they do. -/
def Obligations.RegistersStayCoherent : Prop :=
  (∀ (i : Instr) (s t : State), s.cfg.wf = true → Memory.wf s.shadow → s.Coherent → Instr.isEngine i = false →
    exec i s = .next t → t.Coherent)
  ∧ (∀ (a b dirA dirB puA puB polA polB : Byte) (s t : State), s.cfg.wf = true → s.WithPlainDevice →
    exec (.begin a b dirA dirB puA puB polA polB) s = .next t → t.Coherent)

/-! ## U3: debounce -/

/-- R161, R162, R98, R31: one SAMPLE steps every channel's counter by the rule of R162 from any value within ±N: a disagreeing sample resets
and steps in the same tick, and the counter saturates. Nothing but counters, queue, the channels' retry slots and the result record
changes. -/
def Obligations.SampleStepsEveryCounter : Prop :=
  ∀ (raw : Byte) (s : State), 1 ≤ s.cfg.nDeb →
    encode (.sample raw) = [0x30, raw]
    ∧ ∃ t, exec (.sample raw) s = .next t
      ∧ t = { s with chans := t.chans, queue := t.queue, res := s.outcome .ok 0 0 }
      ∧ t.chans.length = s.chans.length
      ∧ ∀ (c : Nat) (ch : Channel), s.chans[c]? = some ch → -(s.cfg.nDeb : Int) ≤ ch.cnt → ch.cnt ≤ (s.cfg.nDeb : Int) →
          ∃ held, t.chans[c]? = some { ch with
            held := held
            cnt := if raw.getLsbD c = ch.cfg.activeLevel then min (max ch.cnt 0 + 1) (s.cfg.nDeb : Int)
              else max (min ch.cnt 0 - 1) (-(s.cfg.nDeb : Int)) }

/-- R163, R165, R183, R161: a sample that newly reaches the bound of an emitted polarity posts that polarity's signal. Channels go in
ascending order: those with an empty retry slot take the room left in the queue and hold the signal when there is none; a channel
whose slot is occupied overwrites it and does not post. -/
def Obligations.SamplePostsConfirmedEdges : Prop :=
  ∀ (raw : Byte) (s : State), 1 ≤ s.cfg.nDeb →
    (∀ ch ∈ s.chans, -(s.cfg.nDeb : Int) ≤ ch.cnt ∧ ch.cnt ≤ (s.cfg.nDeb : Int)) →
    ∃ t, exec (.sample raw) s = .next t
      ∧ t.queue = s.queue ++ (postings s.cfg.nDeb raw 0 s.chans).take (s.cfg.qcap - s.queue.length)
      ∧ ∀ (c : Nat) (ch : Channel), s.chans[c]? = some ch → ∃ ch', t.chans[c]? = some ch'
        ∧ (∀ g, ch.held = some g → ch'.held = some ((confirmedEdge s.cfg.nDeb (raw.getLsbD c) ch).getD g))
        ∧ (ch.held = none → ch'.held =
            if (postings s.cfg.nDeb raw 0 (s.chans.take c)).length < s.cfg.qcap - s.queue.length then none
            else confirmedEdge s.cfg.nDeb (raw.getLsbD c) ch)

/-- R164 (b), (c), (d): on a build with one channel whose retry slot is empty and whose queue has room, k samples of the polarity the counter
does not stand on give the count k (saturating at N) and post exactly one signal, at the N-th sample and at no other; a run of fewer
than N disagreeing samples and then an agreeing one posts nothing and leaves the counter one step from zero. -/
def Obligations.DebounceNeedsNSamples : Prop :=
  ∀ (s : State) (ch : Channel) (raw : Byte) (k : Nat), s.chans = [ch] → ch.held = none → s.queue.length < s.cfg.qcap →
    1 ≤ s.cfg.nDeb → 1 ≤ k → -(s.cfg.nDeb : Int) ≤ ch.cnt → ch.cnt ≤ (s.cfg.nDeb : Int) →
    (raw.getLsbD 0 = ch.cfg.activeLevel → ch.cnt ≤ 0 →
      ∃ t, repeatExec (.sample raw) k s = .next t ∧ t.chans = [{ ch with cnt := (min k s.cfg.nDeb : Nat) }]
        ∧ t.queue = s.queue ++ (if s.cfg.nDeb ≤ k ∧ ch.cfg.emitActive = true then [ch.cfg.sigActive] else [])
        ∧ (k < s.cfg.nDeb → ∀ back : Byte, back.getLsbD 0 ≠ ch.cfg.activeLevel → 2 ≤ s.cfg.nDeb →
            ∃ u, exec (.sample back) t = .next u ∧ u.queue = s.queue ∧ u.chans = [{ ch with cnt := -1 }]))
    ∧ (raw.getLsbD 0 ≠ ch.cfg.activeLevel → 0 ≤ ch.cnt →
      ∃ t, repeatExec (.sample raw) k s = .next t ∧ t.chans = [{ ch with cnt := -((min k s.cfg.nDeb : Nat) : Int) }]
        ∧ t.queue = s.queue ++ (if s.cfg.nDeb ≤ k ∧ ch.cfg.emitInactive = true then [ch.cfg.sigInactive] else [])
        ∧ (k < s.cfg.nDeb → ∀ back : Byte, back.getLsbD 0 = ch.cfg.activeLevel → 2 ≤ s.cfg.nDeb →
            ∃ u, exec (.sample back) t = .next u ∧ u.queue = s.queue ∧ u.chans = [{ ch with cnt := 1 }]))

/-! ## U4: queue and timers -/

/-- R181, R96, R36: POST of an accepted kind and parameter appends the signal when there is room and changes nothing but the result when the
queue is full; it never holds the signal. Any other kind, and a parameter above 1 for ACTSET or DOOREDGE, is refused. -/
def Obligations.PostEnqueuesOrRefuses : Prop :=
  (∀ (kind : Byte) (param : Word) (g : Signal) (s : State),
    (kind = 1 ∧ param.toNat ≤ 1 ∧ g = ⟨.actSet, param⟩ ∨ kind = 2 ∧ g = ⟨.levelSample, 0⟩
      ∨ kind = 3 ∧ param.toNat ≤ 1 ∧ g = ⟨.doorEdge, param⟩ ∨ kind = 4 ∧ g = ⟨.upgrade, 0⟩) →
    (s.queue.length < s.cfg.qcap →
      exec (.post kind param) s = .next { s with queue := s.queue ++ [g], res := s.outcome .ok 0 1 })
    ∧ (s.cfg.qcap ≤ s.queue.length → exec (.post kind param) s = .next { s with res := s.outcome .queueFull 0 0 }))
  ∧ (∀ (kind : Byte) (param : Word) (s : State),
    encode (.post kind param)
      = [0x40, kind, param.extractLsb' 0 8, param.extractLsb' 8 8, param.extractLsb' 16 8, param.extractLsb' 24 8]
    ∧ (kind = 0 ∨ 5 ≤ kind.toNat ∨ ((kind = 1 ∨ kind = 3) ∧ 2 ≤ param.toNat) →
      exec (.post kind param) s = .next { s with res := s.outcome .invalidArg 0 0 }))

/-- R182, R35: DISPATCH on an empty queue answers 0 and changes nothing else; otherwise it takes the head off, in FIFO order, answers OK and
1 whatever became of the handler's bus access, and leaves the channels, the retry slots and the parameters alone. -/
def Obligations.DispatchConsumesTheHead : Prop :=
  ∀ s : State, encode .dispatch = [0x41]
    ∧ (s.queue = [] → exec .dispatch s = .next { s with res := s.outcome .ok 0 0 })
    ∧ (∀ g rest, s.queue = g :: rest → ∃ t, exec .dispatch s = .next t ∧ t.queue = rest ∧ t.res = s.outcome .ok 0 1
        ∧ t.chans = s.chans ∧ t.heldAct = s.heldAct ∧ t.heldLvl = s.heldLvl ∧ t.cfg = s.cfg ∧ t.synced = s.synced
        ∧ t.actDuration = s.actDuration)

/-- R185, R37: RETRYTICK of a channel's slot, of slot 8 (the minute timer's) or of slot 9 (the level timer's): an empty slot is left alone, a
held signal goes to the end of the queue when there is room, and stays held when the queue is full; any other number is refused. -/
def Obligations.RetrytickDeliversTheHeldSignal : Prop :=
  ∀ (slot : Byte) (s : State), s.nch ≤ 8 →
    encode (.retrytick slot) = [0x43, slot]
    ∧ (s.nch ≤ slot.toNat → slot.toNat ≠ 8 → slot.toNat ≠ 9 →
      exec (.retrytick slot) s = .next { s with res := s.outcome .invalidArg 0 0 })
    ∧ (∀ ch, s.chans[slot.toNat]? = some ch →
      (ch.held = none → exec (.retrytick slot) s = .next { s with res := s.outcome .ok 0 0 })
      ∧ (∀ g, ch.held = some g → s.queue.length < s.cfg.qcap → exec (.retrytick slot) s = .next { s with
          queue := s.queue ++ [g], chans := s.chans.set slot.toNat { ch with held := none }, res := s.outcome .ok 0 1 })
      ∧ (∀ g, ch.held = some g → s.cfg.qcap ≤ s.queue.length →
          exec (.retrytick slot) s = .next { s with res := s.outcome .queueFull 0 0 }))
    ∧ (slot = 8 →
      (s.heldAct = none → exec (.retrytick slot) s = .next { s with res := s.outcome .ok 0 0 })
      ∧ (∀ g, s.heldAct = some g → s.queue.length < s.cfg.qcap → exec (.retrytick slot) s = .next { s with
          queue := s.queue ++ [g], heldAct := none, res := s.outcome .ok 0 1 })
      ∧ (∀ g, s.heldAct = some g → s.cfg.qcap ≤ s.queue.length →
          exec (.retrytick slot) s = .next { s with res := s.outcome .queueFull 0 0 }))
    ∧ (slot = 9 →
      (s.heldLvl = none → exec (.retrytick slot) s = .next { s with res := s.outcome .ok 0 0 })
      ∧ (∀ g, s.heldLvl = some g → s.queue.length < s.cfg.qcap → exec (.retrytick slot) s = .next { s with
          queue := s.queue ++ [g], heldLvl := none, res := s.outcome .ok 0 1 })
      ∧ (∀ g, s.heldLvl = some g → s.cfg.qcap ≤ s.queue.length →
          exec (.retrytick slot) s = .next { s with res := s.outcome .queueFull 0 0 }))

/-- R184, R183: MINTICK while disarmed answers 0 and changes nothing else; while armed it decrements a countdown above 1; at 1 or 0 it leaves 0,
disarms, and posts ACTSET(off), holding it when the queue is full or a signal is already held; `act_on` stays. -/
def Obligations.MintickCountsDown : Prop :=
  ∀ s : State, encode .mintick = [0x42]
    ∧ (s.minArmed = false → exec .mintick s = .next { s with res := s.outcome .ok 0 0 })
    ∧ (s.minArmed = true → 2 ≤ s.actCountdown.toNat → ∃ n : Half, n.toNat + 1 = s.actCountdown.toNat
        ∧ exec .mintick s = .next { s with actCountdown := n, res := s.outcome .ok 0 1 })
    ∧ (s.minArmed = true → s.actCountdown.toNat ≤ 1 → s.heldAct = none → s.queue.length < s.cfg.qcap →
        exec .mintick s = .next { s with
          actCountdown := 0, minArmed := false, queue := s.queue ++ [⟨.actSet, 0⟩], res := s.outcome .ok 0 1 })
    ∧ (s.minArmed = true → s.actCountdown.toNat ≤ 1 → (s.heldAct ≠ none ∨ s.cfg.qcap ≤ s.queue.length) →
        exec .mintick s = .next { s with
          actCountdown := 0, minArmed := false, heldAct := some ⟨.actSet, 0⟩, res := s.outcome .ok 0 1 })

/-- S9 of spec/95_test_vectors.md, R184, R15 (b): from an armed countdown of M minutes, with room in the queue, k minute ticks leave
M - k, and exactly one ACTSET(off) is posted, at the M-th tick; further ticks change nothing; `act_on` stays until the dispatch. -/
def Obligations.MinuteTicksReachOff : Prop :=
  ∀ (s : State) (k : Nat), s.minArmed = true → 1 ≤ s.actCountdown.toNat → s.heldAct = none → s.queue.length < s.cfg.qcap →
    ∃ t, repeatExec .mintick k s = .next t ∧ t.actCountdown.toNat = s.actCountdown.toNat - k ∧ t.actOn = s.actOn
      ∧ t.heldAct = none
      ∧ (k < s.actCountdown.toNat → t.minArmed = true ∧ t.queue = s.queue)
      ∧ (s.actCountdown.toNat ≤ k → t.minArmed = false ∧ t.queue = s.queue ++ [⟨.actSet, 0⟩])

/-- R186, R183: LEVELTICK posts (LEVELSAMPLE, 0), or holds it when the queue is full or a signal is already held. -/
def Obligations.LeveltickPostsOrHolds : Prop :=
  ∀ s : State, encode .leveltick = [0x44]
    ∧ (s.heldLvl = none → s.queue.length < s.cfg.qcap →
        exec .leveltick s = .next { s with queue := s.queue ++ [⟨.levelSample, 0⟩], res := s.outcome .ok 0 0 })
    ∧ ((s.heldLvl ≠ none ∨ s.cfg.qcap ≤ s.queue.length) →
        exec .leveltick s = .next { s with heldLvl := some ⟨.levelSample, 0⟩, res := s.outcome .ok 0 0 })

/-! ## U4: the handlers -/

/-- R188, R189, R194: dispatching ACTSET does on the bus exactly what DWRITE of the pump pin does, on or off, and whatever became of that
write sets `act_on`, publishes the value, and loads and arms the countdown (on) or clears and disarms it (off); a failed write is
recorded in `dsp_err`. `u` is the state DWRITE leaves. -/
def Obligations.ActuatorHandlers : Prop :=
  ∀ (s : State) (param : Word) (rest : List Signal) (on level : Bool), s.queue = ⟨.actSet, param⟩ :: rest →
    on = decide (param = 1) → level = (on == s.cfg.pumpActive) →
    ∃ u, exec (.dwrite (s.cfg.pumpPin.setWidth 8) (if level then 1 else 0)) { s with queue := rest } = .next u
      ∧ exec .dispatch s = .next { u with
          actOn := on
          pub := s.pub ++ [(s.cfg.nameAct, if on then s.cfg.valOn else s.cfg.valOff)]
          actCountdown := if on then s.actDuration else 0
          minArmed := on
          dspErr := notedErr u.res.status u.res.index s.dspErr
          res := s.outcome .ok 0 1 }

/-- R190, R191, R196, R194: dispatching LEVELSAMPLE drives the level pin active by DWRITE; if that succeeded it asks for the settle delay and
reads by DREAD16; then drives the pin inactive by DWRITE. It publishes only when drive and read succeeded: ten times the number `n` of
contiguous set bits from bit 0 of the ten sensor bits, in decimal. Failures go to `dsp_err` in order. -/
def Obligations.LevelSampleHandler : Prop :=
  ∀ (s : State) (param : Word) (rest : List Signal), s.queue = ⟨.levelSample, param⟩ :: rest →
    ∃ u1, exec (.dwrite (s.cfg.lvlPin.setWidth 8) (if s.cfg.lvlActive then 1 else 0)) { s with queue := rest } = .next u1
      ∧ (u1.res.status ≠ .ok → ∃ u3,
          exec (.dwrite (s.cfg.lvlPin.setWidth 8) (if s.cfg.lvlActive then 0 else 1)) u1 = .next u3
          ∧ exec .dispatch s = .next { u3 with
              dspErr := notedErr u3.res.status u3.res.index (notedErr u1.res.status u1.res.index s.dspErr)
              res := s.outcome .ok 0 1 })
      ∧ (u1.res.status = .ok → ∃ u2 u3 n,
          exec .dread16 u1 = .next u2
          ∧ exec (.dwrite (s.cfg.lvlPin.setWidth 8) (if s.cfg.lvlActive then 0 else 1)) u2 = .next u3
          ∧ n ≤ 10
          ∧ (∀ k, k < n → (u2.res.value.getLsbD (k + s.cfg.lvlShift) ^^ s.cfg.lvlInvert.getLsbD k) = true)
          ∧ (n = 10 ∨ (u2.res.value.getLsbD (n + s.cfg.lvlShift) ^^ s.cfg.lvlInvert.getLsbD n) = false)
          ∧ exec .dispatch s = .next { u3 with
              delayLog := s.delayLog ++ [s.cfg.tSettleMs]
              pub := if u2.res.status = .ok then s.pub ++ [(s.cfg.nameLevel, Nat.repr (10 * n))] else s.pub
              dspErr := notedErr u3.res.status u3.res.index (notedErr u2.res.status u2.res.index s.dspErr)
              res := s.outcome .ok 0 1 })

/-- R192, R193: dispatching DOOREDGE only publishes the door value; dispatching UPGRADE passes the pending version on, takes the answer bit
and clears the version, whatever the answer; an answer that the environment gives is the one taken. -/
def Obligations.DoorAndUpgradeHandlers : Prop :=
  (∀ (s : State) (param : Word) (rest : List Signal), s.queue = ⟨.doorEdge, param⟩ :: rest →
    exec .dispatch s = .next { s with
      queue := rest
      pub := s.pub ++ [(s.cfg.nameDoor, if param = 1 then s.cfg.valOpen else s.cfg.valClosed)]
      res := s.outcome .ok 0 1 })
  ∧ (∀ (s : State) (param : Word) (rest : List Signal), s.queue = ⟨.upgrade, param⟩ :: rest →
    ∃ ok e, exec .dispatch s = .next { s with
        queue := rest
        upgLog := s.upgLog ++ [s.upgVersion]
        upgVersion := 0
        upgLast := ok
        env := e
        res := s.outcome .ok 0 1 }
      ∧ e.slave = s.env.slave
      ∧ (∀ b bs, s.env.upgAck = b :: bs → ok = b ∧ e.upgAck = bs))

/-! ## U4: the configuration port -/

/-- R187, R42, R15 (f): WRCFG writes ACT_DURATION (bits above 15 ignored), UPG_VERSION, or clears DSP_ERR; every other number is refused; a
running countdown is not changed. -/
def Obligations.WrcfgWritesTheRegisters : Prop :=
  ∀ (reg : Byte) (w : Word) (s : State),
    encode (.wrcfg reg w) = [0x45, reg, w.extractLsb' 0 8, w.extractLsb' 8 8, w.extractLsb' 16 8, w.extractLsb' 24 8]
    ∧ (reg = 0 → exec (.wrcfg reg w) s = .next { s with actDuration := w.extractLsb' 0 16, res := s.outcome .ok 0 0 })
    ∧ (reg = 1 → exec (.wrcfg reg w) s = .next { s with upgVersion := w, res := s.outcome .ok 0 0 })
    ∧ (reg = 2 → exec (.wrcfg reg w) s = .next { s with dspErr := ⟨false, .ok, 0⟩, res := s.outcome .ok 0 0 })
    ∧ (3 ≤ reg.toNat → exec (.wrcfg reg w) s = .next { s with res := s.outcome .invalidArg 0 0 })

/-- R197, R42: RDCFG returns each register of the map with its fields placed as the table says and all other bits 0, and changes nothing but
the result record; a reserved number is refused with the word 0. That word 0 is log entry 17 (DEDUCED), and that the occupancy bits of
channels the build lacks read 0 is log entry 11 (DEDUCED). What the count reads beyond 255 queued signals (log entry 11) and what
DBN_CNT(c) reads of a counter beyond 32 bits (log entry 19) are not stated. -/
def Obligations.RdcfgReadsTheMap : Prop :=
  ∀ (reg : Byte) (s : State), s.nch ≤ 8 →
    encode (.rdcfg reg) = [0x46, reg]
    ∧ ((Instr.rdcfg reg).wellFormed s.nch = false →
      exec (.rdcfg reg) s = .next { s with res := { s.outcome .invalidArg 0 0 with word := 0 } })
    ∧ ((Instr.rdcfg reg).wellFormed s.nch = true → ∃ w : Word,
      exec (.rdcfg reg) s = .next { s with res := { s.outcome .ok 0 0 with word := w } }
      ∧ (reg = 0x00 → w.toNat = s.actDuration.toNat)
      ∧ (reg = 0x01 → w = s.upgVersion)
      ∧ (reg = 0x02 → w.toNat = s.dspErr.flag.toNat * 65536 + s.dspErr.status.code.toNat * 256 + s.dspErr.index.toNat)
      ∧ (reg = 0x03 → w.toNat = s.minArmed.toNat * 131072 + s.actOn.toNat * 65536 + s.actCountdown.toNat)
      ∧ (reg = 0x04 → w.toNat = s.synced.toNat)
      ∧ (reg = 0x05 → w.toNat = s.i2c.lastSda.toNat * 131072 + s.i2c.lastScl.toNat * 65536 + s.i2c.sdaPin.toNat * 256
          + s.i2c.sclPin.toNat)
      ∧ (reg = 0x06 → (s.queue.length < 256 → w.toNat % 256 = s.queue.length)
          ∧ (∀ k, 8 ≤ k → k < 16 → w.getLsbD k = false) ∧ (∀ k, 26 ≤ k → w.getLsbD k = false)
          ∧ (∀ c, c < 8 → (w.getLsbD (16 + c) = true ↔ ∃ ch g, s.chans[c]? = some ch ∧ ch.held = some g))
          ∧ w.getLsbD 24 = s.heldAct.isSome ∧ w.getLsbD 25 = s.heldLvl.isSome)
      ∧ (reg = 0x07 → w.toNat = s.upgLast.toNat)
      ∧ (∀ c ch, s.chans[c]? = some ch → reg.toNat = 0x10 + c → -2147483648 ≤ ch.cnt → ch.cnt < 2147483648 → w.toInt = ch.cnt)
      ∧ (∀ i, i ≤ 21 → reg.toNat = 0x20 + i → w.toNat = (Memory.read s.shadow i).toNat))
end

