-- ==== Sys2Proof/Laws/Memory.lean ====
section
/-! SUPPORT. Laws/Memory.lean: read after write, and that a write keeps the canonical form and the register range. -/
namespace Sys2Proof.Machine

@[simp] theorem Memory.read_nil (a : Nat) : Memory.read [] a = 0 := rfl

theorem Memory.read_cons (b : Nat) (w : Byte) (m : Memory) (a : Nat) :
    Memory.read ((b, w) :: m) a = if a = b then w else Memory.read m a := rfl

/-- An address below every listed one reads as the unlisted byte. -/
theorem Memory.read_of_lt (m : Memory) (a : Nat) (h : ∀ c ∈ m, a < c.1) : Memory.read m a = 0 := by
  induction m with
  | nil => rfl
  | cons c m ih =>
    obtain ⟨b, w⟩ := c
    have hb : a < b := h (b, w) (by simp)
    rw [Memory.read_cons, if_neg (by omega)]
    exact ih fun c hc => h c (by simp [hc])

theorem Memory.read_consCell_same (a : Nat) (v : Byte) (m : Memory) (h : ∀ c ∈ m, a < c.1) :
    Memory.read (Memory.cons a v m) a = v := by
  unfold Memory.cons
  split
  · next hv => rw [Memory.read_of_lt m a h, hv]; rfl
  · simp [Memory.read_cons]

theorem Memory.read_consCell_other (a b : Nat) (v : Byte) (m : Memory) (h : b ≠ a) :
    Memory.read (Memory.cons a v m) b = Memory.read m b := by
  unfold Memory.cons
  split
  · rfl
  · simp [Memory.read_cons, h]

theorem Memory.wf_tail {c : Host.Cell} {m : Memory} (h : Memory.wf (c :: m)) : Memory.wf m :=
  ⟨(List.pairwise_cons.mp h.1).2, fun d hd => h.2 d (by simp [hd])⟩

theorem Memory.wf_head {c : Host.Cell} {m : Memory} (h : Memory.wf (c :: m)) : ∀ d ∈ m, c.1 < d.1 :=
  (List.pairwise_cons.mp h.1).1

theorem Memory.wf_consCell {a : Nat} {v : Byte} {m : Memory} (h : Memory.wf m) (hb : ∀ c ∈ m, a < c.1) :
    Memory.wf (Memory.cons a v m) := by
  unfold Memory.cons
  split
  · exact h
  · next hv =>
    refine ⟨List.pairwise_cons.mpr ⟨hb, h.1⟩, ?_⟩
    intro c hc
    rcases List.mem_cons.mp hc with rfl | hc
    · exact hv
    · exact h.2 c hc

/-- The cells of a written memory: the written one, or cells that were there. -/
theorem Memory.mem_write {m : Memory} {a : Nat} {v : Byte} {c : Host.Cell} (h : c ∈ Memory.write m a v) :
    c.1 = a ∨ c ∈ m := by
  induction m with
  | nil =>
    unfold Memory.write Memory.cons at h
    split at h
    · simp at h
    · simp at h; exact Or.inl (by rw [h])
  | cons d m ih =>
    obtain ⟨b, w⟩ := d
    unfold Memory.write Memory.cons at h
    split at h
    · split at h
      · exact Or.inr h
      · rcases List.mem_cons.mp h with rfl | h
        · exact Or.inl rfl
        · exact Or.inr h
    · split at h
      · split at h
        · exact Or.inr (by simp [h])
        · rcases List.mem_cons.mp h with rfl | h
          · exact Or.inl rfl
          · exact Or.inr (by simp [h])
      · rcases List.mem_cons.mp h with rfl | h
        · exact Or.inr (by simp)
        · rcases ih h with h | h
          · exact Or.inl h
          · exact Or.inr (by simp [h])

/-- A write keeps the canonical form. -/
theorem Memory.write_wf {m : Memory} (a : Nat) (v : Byte) (h : Memory.wf m) : Memory.wf (Memory.write m a v) := by
  induction m with
  | nil => exact Memory.wf_consCell h (by simp)
  | cons d m ih =>
    obtain ⟨b, w⟩ := d
    have hm := Memory.wf_tail h
    have hh := Memory.wf_head h
    unfold Memory.write
    split
    · next hab =>
      refine Memory.wf_consCell h fun c hc => ?_
      rcases List.mem_cons.mp hc with rfl | hc
      · exact hab
      · exact Nat.lt_trans hab (hh c hc)
    · split
      · next hab => exact Memory.wf_consCell hm (by rw [hab]; exact hh)
      · refine ⟨List.pairwise_cons.mpr ⟨fun c hc => ?_, (ih hm).1⟩, fun c hc => ?_⟩
        · rcases Memory.mem_write hc with h1 | h1
          · show b < c.1
            omega
          · exact hh c h1
        · rcases List.mem_cons.mp hc with rfl | hc
          · exact h.2 _ (by simp)
          · exact (ih hm).2 c hc

theorem Memory.write_inRange {m : Memory} {a : Nat} (v : Byte) (h : Memory.inRange m) (ha : a < 22) :
    Memory.inRange (Memory.write m a v) := by
  intro c hc
  rcases Memory.mem_write hc with h1 | h1
  · omega
  · exact h c h1

/-- Read after write, same address. -/
theorem Memory.read_write_same {m : Memory} (a : Nat) (v : Byte) (h : Memory.wf m) :
    Memory.read (Memory.write m a v) a = v := by
  induction m with
  | nil => exact Memory.read_consCell_same a v [] (by simp)
  | cons d m ih =>
    obtain ⟨b, w⟩ := d
    have hh := Memory.wf_head h
    unfold Memory.write
    split
    · next hab =>
      refine Memory.read_consCell_same a v _ fun c hc => ?_
      rcases List.mem_cons.mp hc with rfl | hc
      · exact hab
      · exact Nat.lt_trans hab (hh c hc)
    · split
      · next hab => exact Memory.read_consCell_same a v _ (by rw [hab]; exact hh)
      · next hab => rw [Memory.read_cons, if_neg hab]; exact ih (Memory.wf_tail h)

/-- Read after write, another address (in any memory). -/
theorem Memory.read_write_other (m : Memory) (a b : Nat) (v : Byte) (h : b ≠ a) :
    Memory.read (Memory.write m a v) b = Memory.read m b := by
  induction m with
  | nil => exact Memory.read_consCell_other a b v [] h
  | cons d m ih =>
    obtain ⟨k, w⟩ := d
    unfold Memory.write
    split
    · exact Memory.read_consCell_other a b v _ h
    · split
      · next hak =>
        rw [Memory.read_consCell_other a b v _ h, Memory.read_cons, if_neg (by omega)]
      · rw [Memory.read_cons, Memory.read_cons, ih]

theorem Memory.read_write {m : Memory} (a b : Nat) (v : Byte) (h : Memory.wf m) :
    Memory.read (Memory.write m a v) b = if b = a then v else Memory.read m b := by
  by_cases hb : b = a
  · rw [if_pos hb, hb, Memory.read_write_same a v h]
  · rw [if_neg hb, Memory.read_write_other m a b v hb]

/-- A memory in canonical form is what it reads as: equal reads, equal data. -/
theorem Memory.ext_read {m n : Memory} (hm : Memory.wf m) (hn : Memory.wf n)
    (h : ∀ a, Memory.read m a = Memory.read n a) : m = n := by
  induction m generalizing n with
  | nil =>
    cases n with
    | nil => rfl
    | cons d n =>
      have := h d.1
      obtain ⟨b, w⟩ := d
      simp [Memory.read_cons] at this
      exact absurd this.symm (hn.2 (b, w) (by simp))
  | cons c m ih =>
    obtain ⟨a, v⟩ := c
    have hv : v ≠ 0 := hm.2 (a, v) (by simp)
    cases n with
    | nil =>
      have := h a
      simp [Memory.read_cons] at this
      exact absurd this hv
    | cons d n =>
      obtain ⟨b, w⟩ := d
      have hw : w ≠ 0 := hn.2 (b, w) (by simp)
      have hab : a = b := by
        rcases Nat.lt_trichotomy a b with hlt | heq | hgt
        · have := h a
          rw [Memory.read_cons, if_pos rfl, Memory.read_of_lt ((b, w) :: n) a] at this
          · exact absurd this hv
          · intro c hc
            rcases List.mem_cons.mp hc with rfl | hc
            · exact hlt
            · exact Nat.lt_trans hlt (Memory.wf_head hn c hc)
        · exact heq
        · have := h b
          rw [Memory.read_cons (b := b), if_pos rfl, Memory.read_of_lt ((a, v) :: m) b] at this
          · exact absurd this.symm hw
          · intro c hc
            rcases List.mem_cons.mp hc with rfl | hc
            · exact hgt
            · exact Nat.lt_trans hgt (Memory.wf_head hm c hc)
      subst hab
      have hvw : v = w := by simpa [Memory.read_cons] using h a
      subst hvw
      rw [ih (Memory.wf_tail hm) (Memory.wf_tail hn)]
      intro k
      by_cases hk : k = a
      · subst hk
        rw [Memory.read_of_lt m k (Memory.wf_head hm), Memory.read_of_lt n k (Memory.wf_head hn)]
      · simpa [Memory.read_cons, hk] using h k

end Sys2Proof.Machine
end

