-- ==== Sys2Proof/Laws/State.lean ====
section
/-! SUPPORT. Laws/State.lean: what each record update of State leaves in each field, so that no later proof unfolds one. -/
namespace Sys2Proof.Machine

/-! ## State.setResult -/

@[simp] theorem setResult_cmd (s : State) (r : Result) : (s.setResult r).cmd = s.cmd := rfl
@[simp] theorem setResult_cfg (s : State) (r : Result) : (s.setResult r).cfg = s.cfg := rfl
@[simp] theorem setResult_i2c (s : State) (r : Result) : (s.setResult r).i2c = s.i2c := rfl
@[simp] theorem setResult_wave (s : State) (r : Result) : (s.setResult r).wave = s.wave := rfl
@[simp] theorem setResult_shadow (s : State) (r : Result) : (s.setResult r).shadow = s.shadow := rfl
@[simp] theorem setResult_synced (s : State) (r : Result) : (s.setResult r).synced = s.synced := rfl
@[simp] theorem setResult_res (s : State) (r : Result) : (s.setResult r).res = { s.res with status := r.status, index := r.index, value := r.value } := rfl
@[simp] theorem setResult_chans (s : State) (r : Result) : (s.setResult r).chans = s.chans := rfl
@[simp] theorem setResult_queue (s : State) (r : Result) : (s.setResult r).queue = s.queue := rfl
@[simp] theorem setResult_heldAct (s : State) (r : Result) : (s.setResult r).heldAct = s.heldAct := rfl
@[simp] theorem setResult_heldLvl (s : State) (r : Result) : (s.setResult r).heldLvl = s.heldLvl := rfl
@[simp] theorem setResult_actOn (s : State) (r : Result) : (s.setResult r).actOn = s.actOn := rfl
@[simp] theorem setResult_actCountdown (s : State) (r : Result) : (s.setResult r).actCountdown = s.actCountdown := rfl
@[simp] theorem setResult_minArmed (s : State) (r : Result) : (s.setResult r).minArmed = s.minArmed := rfl
@[simp] theorem setResult_actDuration (s : State) (r : Result) : (s.setResult r).actDuration = s.actDuration := rfl
@[simp] theorem setResult_upgVersion (s : State) (r : Result) : (s.setResult r).upgVersion = s.upgVersion := rfl
@[simp] theorem setResult_dspErr (s : State) (r : Result) : (s.setResult r).dspErr = s.dspErr := rfl
@[simp] theorem setResult_upgLast (s : State) (r : Result) : (s.setResult r).upgLast = s.upgLast := rfl
@[simp] theorem setResult_pub (s : State) (r : Result) : (s.setResult r).pub = s.pub := rfl
@[simp] theorem setResult_delayLog (s : State) (r : Result) : (s.setResult r).delayLog = s.delayLog := rfl
@[simp] theorem setResult_upgLog (s : State) (r : Result) : (s.setResult r).upgLog = s.upgLog := rfl
@[simp] theorem setResult_port (s : State) (r : Result) : (s.setResult r).port = s.port := rfl
@[simp] theorem setResult_env (s : State) (r : Result) : (s.setResult r).env = s.env := rfl
@[simp] theorem setResult_lines (s : State) (r : Result) : (s.setResult r).lines = s.lines := rfl

/-! ## State.setShadow -/

@[simp] theorem setShadow_cmd (s : State) (i : Nat) (v : Byte) : (s.setShadow i v).cmd = s.cmd := rfl
@[simp] theorem setShadow_cfg (s : State) (i : Nat) (v : Byte) : (s.setShadow i v).cfg = s.cfg := rfl
@[simp] theorem setShadow_i2c (s : State) (i : Nat) (v : Byte) : (s.setShadow i v).i2c = s.i2c := rfl
@[simp] theorem setShadow_wave (s : State) (i : Nat) (v : Byte) : (s.setShadow i v).wave = s.wave := rfl
@[simp] theorem setShadow_shadow (s : State) (i : Nat) (v : Byte) : (s.setShadow i v).shadow = Memory.write s.shadow i v := rfl
@[simp] theorem setShadow_synced (s : State) (i : Nat) (v : Byte) : (s.setShadow i v).synced = s.synced := rfl
@[simp] theorem setShadow_res (s : State) (i : Nat) (v : Byte) : (s.setShadow i v).res = s.res := rfl
@[simp] theorem setShadow_chans (s : State) (i : Nat) (v : Byte) : (s.setShadow i v).chans = s.chans := rfl
@[simp] theorem setShadow_queue (s : State) (i : Nat) (v : Byte) : (s.setShadow i v).queue = s.queue := rfl
@[simp] theorem setShadow_heldAct (s : State) (i : Nat) (v : Byte) : (s.setShadow i v).heldAct = s.heldAct := rfl
@[simp] theorem setShadow_heldLvl (s : State) (i : Nat) (v : Byte) : (s.setShadow i v).heldLvl = s.heldLvl := rfl
@[simp] theorem setShadow_actOn (s : State) (i : Nat) (v : Byte) : (s.setShadow i v).actOn = s.actOn := rfl
@[simp] theorem setShadow_actCountdown (s : State) (i : Nat) (v : Byte) : (s.setShadow i v).actCountdown = s.actCountdown := rfl
@[simp] theorem setShadow_minArmed (s : State) (i : Nat) (v : Byte) : (s.setShadow i v).minArmed = s.minArmed := rfl
@[simp] theorem setShadow_actDuration (s : State) (i : Nat) (v : Byte) : (s.setShadow i v).actDuration = s.actDuration := rfl
@[simp] theorem setShadow_upgVersion (s : State) (i : Nat) (v : Byte) : (s.setShadow i v).upgVersion = s.upgVersion := rfl
@[simp] theorem setShadow_dspErr (s : State) (i : Nat) (v : Byte) : (s.setShadow i v).dspErr = s.dspErr := rfl
@[simp] theorem setShadow_upgLast (s : State) (i : Nat) (v : Byte) : (s.setShadow i v).upgLast = s.upgLast := rfl
@[simp] theorem setShadow_pub (s : State) (i : Nat) (v : Byte) : (s.setShadow i v).pub = s.pub := rfl
@[simp] theorem setShadow_delayLog (s : State) (i : Nat) (v : Byte) : (s.setShadow i v).delayLog = s.delayLog := rfl
@[simp] theorem setShadow_upgLog (s : State) (i : Nat) (v : Byte) : (s.setShadow i v).upgLog = s.upgLog := rfl
@[simp] theorem setShadow_port (s : State) (i : Nat) (v : Byte) : (s.setShadow i v).port = s.port := rfl
@[simp] theorem setShadow_env (s : State) (i : Nat) (v : Byte) : (s.setShadow i v).env = s.env := rfl
@[simp] theorem setShadow_lines (s : State) (i : Nat) (v : Byte) : (s.setShadow i v).lines = s.lines := rfl

/-! ## setLines -/

@[simp] theorem setLines_cmd (q : Slot) (s : State) : (setLines q s).cmd = s.cmd := rfl
@[simp] theorem setLines_cfg (q : Slot) (s : State) : (setLines q s).cfg = s.cfg := rfl
@[simp] theorem setLines_i2c (q : Slot) (s : State) : (setLines q s).i2c = { s.i2c with lastSda := q.sda, lastScl := q.scl } := rfl
@[simp] theorem setLines_wave (q : Slot) (s : State) : (setLines q s).wave = s.wave ++ [q] := rfl
@[simp] theorem setLines_shadow (q : Slot) (s : State) : (setLines q s).shadow = s.shadow := rfl
@[simp] theorem setLines_synced (q : Slot) (s : State) : (setLines q s).synced = s.synced := rfl
@[simp] theorem setLines_res (q : Slot) (s : State) : (setLines q s).res = s.res := rfl
@[simp] theorem setLines_chans (q : Slot) (s : State) : (setLines q s).chans = s.chans := rfl
@[simp] theorem setLines_queue (q : Slot) (s : State) : (setLines q s).queue = s.queue := rfl
@[simp] theorem setLines_heldAct (q : Slot) (s : State) : (setLines q s).heldAct = s.heldAct := rfl
@[simp] theorem setLines_heldLvl (q : Slot) (s : State) : (setLines q s).heldLvl = s.heldLvl := rfl
@[simp] theorem setLines_actOn (q : Slot) (s : State) : (setLines q s).actOn = s.actOn := rfl
@[simp] theorem setLines_actCountdown (q : Slot) (s : State) : (setLines q s).actCountdown = s.actCountdown := rfl
@[simp] theorem setLines_minArmed (q : Slot) (s : State) : (setLines q s).minArmed = s.minArmed := rfl
@[simp] theorem setLines_actDuration (q : Slot) (s : State) : (setLines q s).actDuration = s.actDuration := rfl
@[simp] theorem setLines_upgVersion (q : Slot) (s : State) : (setLines q s).upgVersion = s.upgVersion := rfl
@[simp] theorem setLines_dspErr (q : Slot) (s : State) : (setLines q s).dspErr = s.dspErr := rfl
@[simp] theorem setLines_upgLast (q : Slot) (s : State) : (setLines q s).upgLast = s.upgLast := rfl
@[simp] theorem setLines_pub (q : Slot) (s : State) : (setLines q s).pub = s.pub := rfl
@[simp] theorem setLines_delayLog (q : Slot) (s : State) : (setLines q s).delayLog = s.delayLog := rfl
@[simp] theorem setLines_upgLog (q : Slot) (s : State) : (setLines q s).upgLog = s.upgLog := rfl
@[simp] theorem setLines_port (q : Slot) (s : State) : (setLines q s).port = s.port := rfl
@[simp] theorem setLines_env (q : Slot) (s : State) : (setLines q s).env = s.env.observe s.cfg s.lines q := rfl
@[simp] theorem setLines_lines (q : Slot) (s : State) : (setLines q s).lines = q := rfl

/-! ## publish -/

@[simp] theorem publish_cmd (n v : String) (s : State) : (publish n v s).cmd = s.cmd := rfl
@[simp] theorem publish_cfg (n v : String) (s : State) : (publish n v s).cfg = s.cfg := rfl
@[simp] theorem publish_i2c (n v : String) (s : State) : (publish n v s).i2c = s.i2c := rfl
@[simp] theorem publish_wave (n v : String) (s : State) : (publish n v s).wave = s.wave := rfl
@[simp] theorem publish_shadow (n v : String) (s : State) : (publish n v s).shadow = s.shadow := rfl
@[simp] theorem publish_synced (n v : String) (s : State) : (publish n v s).synced = s.synced := rfl
@[simp] theorem publish_res (n v : String) (s : State) : (publish n v s).res = s.res := rfl
@[simp] theorem publish_chans (n v : String) (s : State) : (publish n v s).chans = s.chans := rfl
@[simp] theorem publish_queue (n v : String) (s : State) : (publish n v s).queue = s.queue := rfl
@[simp] theorem publish_heldAct (n v : String) (s : State) : (publish n v s).heldAct = s.heldAct := rfl
@[simp] theorem publish_heldLvl (n v : String) (s : State) : (publish n v s).heldLvl = s.heldLvl := rfl
@[simp] theorem publish_actOn (n v : String) (s : State) : (publish n v s).actOn = s.actOn := rfl
@[simp] theorem publish_actCountdown (n v : String) (s : State) : (publish n v s).actCountdown = s.actCountdown := rfl
@[simp] theorem publish_minArmed (n v : String) (s : State) : (publish n v s).minArmed = s.minArmed := rfl
@[simp] theorem publish_actDuration (n v : String) (s : State) : (publish n v s).actDuration = s.actDuration := rfl
@[simp] theorem publish_upgVersion (n v : String) (s : State) : (publish n v s).upgVersion = s.upgVersion := rfl
@[simp] theorem publish_dspErr (n v : String) (s : State) : (publish n v s).dspErr = s.dspErr := rfl
@[simp] theorem publish_upgLast (n v : String) (s : State) : (publish n v s).upgLast = s.upgLast := rfl
@[simp] theorem publish_pub (n v : String) (s : State) : (publish n v s).pub = s.pub ++ [(n, v)] := rfl
@[simp] theorem publish_delayLog (n v : String) (s : State) : (publish n v s).delayLog = s.delayLog := rfl
@[simp] theorem publish_upgLog (n v : String) (s : State) : (publish n v s).upgLog = s.upgLog := rfl
@[simp] theorem publish_port (n v : String) (s : State) : (publish n v s).port = s.port := rfl
@[simp] theorem publish_env (n v : String) (s : State) : (publish n v s).env = s.env := rfl
@[simp] theorem publish_lines (n v : String) (s : State) : (publish n v s).lines = s.lines := rfl

/-! ## delayMs -/

@[simp] theorem delayMs_cmd (ms : Nat) (s : State) : (delayMs ms s).cmd = s.cmd := rfl
@[simp] theorem delayMs_cfg (ms : Nat) (s : State) : (delayMs ms s).cfg = s.cfg := rfl
@[simp] theorem delayMs_i2c (ms : Nat) (s : State) : (delayMs ms s).i2c = s.i2c := rfl
@[simp] theorem delayMs_wave (ms : Nat) (s : State) : (delayMs ms s).wave = s.wave := rfl
@[simp] theorem delayMs_shadow (ms : Nat) (s : State) : (delayMs ms s).shadow = s.shadow := rfl
@[simp] theorem delayMs_synced (ms : Nat) (s : State) : (delayMs ms s).synced = s.synced := rfl
@[simp] theorem delayMs_res (ms : Nat) (s : State) : (delayMs ms s).res = s.res := rfl
@[simp] theorem delayMs_chans (ms : Nat) (s : State) : (delayMs ms s).chans = s.chans := rfl
@[simp] theorem delayMs_queue (ms : Nat) (s : State) : (delayMs ms s).queue = s.queue := rfl
@[simp] theorem delayMs_heldAct (ms : Nat) (s : State) : (delayMs ms s).heldAct = s.heldAct := rfl
@[simp] theorem delayMs_heldLvl (ms : Nat) (s : State) : (delayMs ms s).heldLvl = s.heldLvl := rfl
@[simp] theorem delayMs_actOn (ms : Nat) (s : State) : (delayMs ms s).actOn = s.actOn := rfl
@[simp] theorem delayMs_actCountdown (ms : Nat) (s : State) : (delayMs ms s).actCountdown = s.actCountdown := rfl
@[simp] theorem delayMs_minArmed (ms : Nat) (s : State) : (delayMs ms s).minArmed = s.minArmed := rfl
@[simp] theorem delayMs_actDuration (ms : Nat) (s : State) : (delayMs ms s).actDuration = s.actDuration := rfl
@[simp] theorem delayMs_upgVersion (ms : Nat) (s : State) : (delayMs ms s).upgVersion = s.upgVersion := rfl
@[simp] theorem delayMs_dspErr (ms : Nat) (s : State) : (delayMs ms s).dspErr = s.dspErr := rfl
@[simp] theorem delayMs_upgLast (ms : Nat) (s : State) : (delayMs ms s).upgLast = s.upgLast := rfl
@[simp] theorem delayMs_pub (ms : Nat) (s : State) : (delayMs ms s).pub = s.pub := rfl
@[simp] theorem delayMs_delayLog (ms : Nat) (s : State) : (delayMs ms s).delayLog = s.delayLog ++ [ms] := rfl
@[simp] theorem delayMs_upgLog (ms : Nat) (s : State) : (delayMs ms s).upgLog = s.upgLog := rfl
@[simp] theorem delayMs_port (ms : Nat) (s : State) : (delayMs ms s).port = s.port := rfl
@[simp] theorem delayMs_env (ms : Nat) (s : State) : (delayMs ms s).env = s.env := rfl
@[simp] theorem delayMs_lines (ms : Nat) (s : State) : (delayMs ms s).lines = s.lines := rfl

/-! ## accept -/

@[simp] theorem accept_cmd (rest : List Byte) (s : State) : (accept rest s).cmd = rest := rfl
@[simp] theorem accept_cfg (rest : List Byte) (s : State) : (accept rest s).cfg = s.cfg := rfl
@[simp] theorem accept_i2c (rest : List Byte) (s : State) : (accept rest s).i2c = s.i2c := rfl
@[simp] theorem accept_wave (rest : List Byte) (s : State) : (accept rest s).wave = s.wave := rfl
@[simp] theorem accept_shadow (rest : List Byte) (s : State) : (accept rest s).shadow = s.shadow := rfl
@[simp] theorem accept_synced (rest : List Byte) (s : State) : (accept rest s).synced = s.synced := rfl
@[simp] theorem accept_res (rest : List Byte) (s : State) : (accept rest s).res = s.res := rfl
@[simp] theorem accept_chans (rest : List Byte) (s : State) : (accept rest s).chans = s.chans := rfl
@[simp] theorem accept_queue (rest : List Byte) (s : State) : (accept rest s).queue = s.queue := rfl
@[simp] theorem accept_heldAct (rest : List Byte) (s : State) : (accept rest s).heldAct = s.heldAct := rfl
@[simp] theorem accept_heldLvl (rest : List Byte) (s : State) : (accept rest s).heldLvl = s.heldLvl := rfl
@[simp] theorem accept_actOn (rest : List Byte) (s : State) : (accept rest s).actOn = s.actOn := rfl
@[simp] theorem accept_actCountdown (rest : List Byte) (s : State) : (accept rest s).actCountdown = s.actCountdown := rfl
@[simp] theorem accept_minArmed (rest : List Byte) (s : State) : (accept rest s).minArmed = s.minArmed := rfl
@[simp] theorem accept_actDuration (rest : List Byte) (s : State) : (accept rest s).actDuration = s.actDuration := rfl
@[simp] theorem accept_upgVersion (rest : List Byte) (s : State) : (accept rest s).upgVersion = s.upgVersion := rfl
@[simp] theorem accept_dspErr (rest : List Byte) (s : State) : (accept rest s).dspErr = s.dspErr := rfl
@[simp] theorem accept_upgLast (rest : List Byte) (s : State) : (accept rest s).upgLast = s.upgLast := rfl
@[simp] theorem accept_pub (rest : List Byte) (s : State) : (accept rest s).pub = s.pub := rfl
@[simp] theorem accept_delayLog (rest : List Byte) (s : State) : (accept rest s).delayLog = s.delayLog := rfl
@[simp] theorem accept_upgLog (rest : List Byte) (s : State) : (accept rest s).upgLog = s.upgLog := rfl
@[simp] theorem accept_port (rest : List Byte) (s : State) : (accept rest s).port = s.port := rfl
@[simp] theorem accept_env (rest : List Byte) (s : State) : (accept rest s).env = s.env := rfl
@[simp] theorem accept_lines (rest : List Byte) (s : State) : (accept rest s).lines = s.lines := rfl

/-! ## present -/

@[simp] theorem present_cmd (i : Option Instr) (s : State) : (present i s).cmd = s.cmd := rfl
@[simp] theorem present_cfg (i : Option Instr) (s : State) : (present i s).cfg = s.cfg := rfl
@[simp] theorem present_i2c (i : Option Instr) (s : State) : (present i s).i2c = s.i2c := rfl
@[simp] theorem present_wave (i : Option Instr) (s : State) : (present i s).wave = s.wave := rfl
@[simp] theorem present_shadow (i : Option Instr) (s : State) : (present i s).shadow = s.shadow := rfl
@[simp] theorem present_synced (i : Option Instr) (s : State) : (present i s).synced = s.synced := rfl
@[simp] theorem present_res (i : Option Instr) (s : State) : (present i s).res = s.res := rfl
@[simp] theorem present_chans (i : Option Instr) (s : State) : (present i s).chans = s.chans := rfl
@[simp] theorem present_queue (i : Option Instr) (s : State) : (present i s).queue = s.queue := rfl
@[simp] theorem present_heldAct (i : Option Instr) (s : State) : (present i s).heldAct = s.heldAct := rfl
@[simp] theorem present_heldLvl (i : Option Instr) (s : State) : (present i s).heldLvl = s.heldLvl := rfl
@[simp] theorem present_actOn (i : Option Instr) (s : State) : (present i s).actOn = s.actOn := rfl
@[simp] theorem present_actCountdown (i : Option Instr) (s : State) : (present i s).actCountdown = s.actCountdown := rfl
@[simp] theorem present_minArmed (i : Option Instr) (s : State) : (present i s).minArmed = s.minArmed := rfl
@[simp] theorem present_actDuration (i : Option Instr) (s : State) : (present i s).actDuration = s.actDuration := rfl
@[simp] theorem present_upgVersion (i : Option Instr) (s : State) : (present i s).upgVersion = s.upgVersion := rfl
@[simp] theorem present_dspErr (i : Option Instr) (s : State) : (present i s).dspErr = s.dspErr := rfl
@[simp] theorem present_upgLast (i : Option Instr) (s : State) : (present i s).upgLast = s.upgLast := rfl
@[simp] theorem present_pub (i : Option Instr) (s : State) : (present i s).pub = s.pub := rfl
@[simp] theorem present_delayLog (i : Option Instr) (s : State) : (present i s).delayLog = s.delayLog := rfl
@[simp] theorem present_upgLog (i : Option Instr) (s : State) : (present i s).upgLog = s.upgLog := rfl
@[simp] theorem present_port (i : Option Instr) (s : State) : (present i s).port = resultBytes i s.res := rfl
@[simp] theorem present_env (i : Option Instr) (s : State) : (present i s).env = s.env := rfl
@[simp] theorem present_lines (i : Option Instr) (s : State) : (present i s).lines = s.lines := rfl

/-! ## deliver -/

@[simp] theorem deliver_cmd (bytes : List Byte) (s : State) : (deliver bytes s).cmd = bytes ++ s.cmd := rfl
@[simp] theorem deliver_cfg (bytes : List Byte) (s : State) : (deliver bytes s).cfg = s.cfg := rfl
@[simp] theorem deliver_i2c (bytes : List Byte) (s : State) : (deliver bytes s).i2c = s.i2c := rfl
@[simp] theorem deliver_wave (bytes : List Byte) (s : State) : (deliver bytes s).wave = s.wave := rfl
@[simp] theorem deliver_shadow (bytes : List Byte) (s : State) : (deliver bytes s).shadow = s.shadow := rfl
@[simp] theorem deliver_synced (bytes : List Byte) (s : State) : (deliver bytes s).synced = s.synced := rfl
@[simp] theorem deliver_res (bytes : List Byte) (s : State) : (deliver bytes s).res = s.res := rfl
@[simp] theorem deliver_chans (bytes : List Byte) (s : State) : (deliver bytes s).chans = s.chans := rfl
@[simp] theorem deliver_queue (bytes : List Byte) (s : State) : (deliver bytes s).queue = s.queue := rfl
@[simp] theorem deliver_heldAct (bytes : List Byte) (s : State) : (deliver bytes s).heldAct = s.heldAct := rfl
@[simp] theorem deliver_heldLvl (bytes : List Byte) (s : State) : (deliver bytes s).heldLvl = s.heldLvl := rfl
@[simp] theorem deliver_actOn (bytes : List Byte) (s : State) : (deliver bytes s).actOn = s.actOn := rfl
@[simp] theorem deliver_actCountdown (bytes : List Byte) (s : State) : (deliver bytes s).actCountdown = s.actCountdown := rfl
@[simp] theorem deliver_minArmed (bytes : List Byte) (s : State) : (deliver bytes s).minArmed = s.minArmed := rfl
@[simp] theorem deliver_actDuration (bytes : List Byte) (s : State) : (deliver bytes s).actDuration = s.actDuration := rfl
@[simp] theorem deliver_upgVersion (bytes : List Byte) (s : State) : (deliver bytes s).upgVersion = s.upgVersion := rfl
@[simp] theorem deliver_dspErr (bytes : List Byte) (s : State) : (deliver bytes s).dspErr = s.dspErr := rfl
@[simp] theorem deliver_upgLast (bytes : List Byte) (s : State) : (deliver bytes s).upgLast = s.upgLast := rfl
@[simp] theorem deliver_pub (bytes : List Byte) (s : State) : (deliver bytes s).pub = s.pub := rfl
@[simp] theorem deliver_delayLog (bytes : List Byte) (s : State) : (deliver bytes s).delayLog = s.delayLog := rfl
@[simp] theorem deliver_upgLog (bytes : List Byte) (s : State) : (deliver bytes s).upgLog = s.upgLog := rfl
@[simp] theorem deliver_port (bytes : List Byte) (s : State) : (deliver bytes s).port = s.port := rfl
@[simp] theorem deliver_env (bytes : List Byte) (s : State) : (deliver bytes s).env = s.env := rfl
@[simp] theorem deliver_lines (bytes : List Byte) (s : State) : (deliver bytes s).lines = s.lines := rfl

/-! ## noteErr -/

/-- A handler's error note: nothing for OK, else the sticky record and nothing beside it (R194). -/
theorem noteErr_eq (r : Result) (s : State) :
    noteErr r s = { s with dspErr := if r.status = .ok then s.dspErr else ⟨true, r.status, r.index⟩ } := by
  unfold noteErr
  split <;> rfl

@[simp] theorem noteErr_dspErr (r : Result) (s : State) :
    (noteErr r s).dspErr = if r.status = .ok then s.dspErr else ⟨true, r.status, r.index⟩ := by
  rw [noteErr_eq]

@[simp] theorem noteErr_cmd (r : Result) (s : State) : (noteErr r s).cmd = s.cmd := by rw [noteErr_eq]
@[simp] theorem noteErr_cfg (r : Result) (s : State) : (noteErr r s).cfg = s.cfg := by rw [noteErr_eq]
@[simp] theorem noteErr_i2c (r : Result) (s : State) : (noteErr r s).i2c = s.i2c := by rw [noteErr_eq]
@[simp] theorem noteErr_wave (r : Result) (s : State) : (noteErr r s).wave = s.wave := by rw [noteErr_eq]
@[simp] theorem noteErr_shadow (r : Result) (s : State) : (noteErr r s).shadow = s.shadow := by rw [noteErr_eq]
@[simp] theorem noteErr_synced (r : Result) (s : State) : (noteErr r s).synced = s.synced := by rw [noteErr_eq]
@[simp] theorem noteErr_res (r : Result) (s : State) : (noteErr r s).res = s.res := by rw [noteErr_eq]
@[simp] theorem noteErr_chans (r : Result) (s : State) : (noteErr r s).chans = s.chans := by rw [noteErr_eq]
@[simp] theorem noteErr_queue (r : Result) (s : State) : (noteErr r s).queue = s.queue := by rw [noteErr_eq]
@[simp] theorem noteErr_heldAct (r : Result) (s : State) : (noteErr r s).heldAct = s.heldAct := by rw [noteErr_eq]
@[simp] theorem noteErr_heldLvl (r : Result) (s : State) : (noteErr r s).heldLvl = s.heldLvl := by rw [noteErr_eq]
@[simp] theorem noteErr_actOn (r : Result) (s : State) : (noteErr r s).actOn = s.actOn := by rw [noteErr_eq]
@[simp] theorem noteErr_actCountdown (r : Result) (s : State) : (noteErr r s).actCountdown = s.actCountdown := by rw [noteErr_eq]
@[simp] theorem noteErr_minArmed (r : Result) (s : State) : (noteErr r s).minArmed = s.minArmed := by rw [noteErr_eq]
@[simp] theorem noteErr_actDuration (r : Result) (s : State) : (noteErr r s).actDuration = s.actDuration := by rw [noteErr_eq]
@[simp] theorem noteErr_upgVersion (r : Result) (s : State) : (noteErr r s).upgVersion = s.upgVersion := by rw [noteErr_eq]
@[simp] theorem noteErr_upgLast (r : Result) (s : State) : (noteErr r s).upgLast = s.upgLast := by rw [noteErr_eq]
@[simp] theorem noteErr_pub (r : Result) (s : State) : (noteErr r s).pub = s.pub := by rw [noteErr_eq]
@[simp] theorem noteErr_delayLog (r : Result) (s : State) : (noteErr r s).delayLog = s.delayLog := by rw [noteErr_eq]
@[simp] theorem noteErr_upgLog (r : Result) (s : State) : (noteErr r s).upgLog = s.upgLog := by rw [noteErr_eq]
@[simp] theorem noteErr_port (r : Result) (s : State) : (noteErr r s).port = s.port := by rw [noteErr_eq]
@[simp] theorem noteErr_env (r : Result) (s : State) : (noteErr r s).env = s.env := by rw [noteErr_eq]

@[simp] theorem noteErr_lines (r : Result) (s : State) : (noteErr r s).lines = s.lines := by rw [noteErr_eq]; rfl

/-! ## finish -/

/-- An operation always ends in a next state (R223): the one with its result in the record. -/
@[simp] theorem finish_eq (r : Result) (s : State) : finish r s = .next (s.setResult r) := rfl

@[simp] theorem finishWith_eq (p : Result × State) : finishWith p = .next (p.2.setResult p.1) := rfl

end Sys2Proof.Machine
end

