-- ==== Sys2Proof/Laws/Bus.lean ====
section
/-! SUPPORT. Laws/Bus.lean: what the line primitives of U1 do (spec/40_i2c_engine.md R112 to R123), said once: the slots each appends, the
levels it leaves, and that nothing else of the block changes. -/
namespace Sys2Proof.Machine

/-! ## A run of slots -/

/-- The levels after a run of slots that began at `p`. -/
def lastSlot (p : Slot) : List Slot → Slot
  | [] => p
  | q :: qs => lastSlot q qs

/-- The environment after it watched a run of slots that began at `p`. -/
def observeAll (c : Config) : Slot → List Slot → Env → Env
  | _, [], e => e
  | p, q :: qs, e => observeAll c q qs (e.observe c p q)

@[simp] theorem lastSlot_nil (p : Slot) : lastSlot p [] = p := rfl
@[simp] theorem lastSlot_cons (p q : Slot) (qs : List Slot) : lastSlot p (q :: qs) = lastSlot q qs := rfl

@[simp] theorem lastSlot_append (p : Slot) (a b : List Slot) : lastSlot p (a ++ b) = lastSlot (lastSlot p a) b := by
  induction a generalizing p with
  | nil => rfl
  | cons q qs ih => exact ih q

theorem observeAll_append (c : Config) (p : Slot) (a b : List Slot) (e : Env) :
    observeAll c p (a ++ b) e = observeAll c (lastSlot p a) b (observeAll c p a e) := by
  induction a generalizing p e with
  | nil => rfl
  | cons q qs ih => exact ih q _

/-- `drive` in closed form: the levels of the last slot, the slots at the end of the waveform, the environment that watched
them, and nothing else. -/
theorem drive_eq (sl : List Slot) (s : State) :
    drive sl s =
      { s with
        i2c := { s.i2c with lastSda := (lastSlot s.lines sl).sda, lastScl := (lastSlot s.lines sl).scl }
        wave := s.wave ++ sl
        env := observeAll s.cfg s.lines sl s.env } := by
  induction sl generalizing s with
  | nil => simp [drive, State.lines, observeAll]
  | cons q qs ih =>
    rw [drive, ih]
    simp [observeAll]

/-- What a bus activity does to the block: it appends the slots `w`, leaves the lines at `p` and the shadow at `m`, and changes
nothing else of the block's own state. -/
structure Runs (s t : State) (w : List Slot) (p : Slot) (m : Memory) : Prop where
  eq : t = { s with
    i2c := { s.i2c with lastSda := p.sda, lastScl := p.scl }
    wave := s.wave ++ w
    shadow := m
    env := t.env }

theorem Runs.wave {s t : State} {w p m} (h : Runs s t w p m) : t.wave = s.wave ++ w := by rw [h.eq]
theorem Runs.shadow {s t : State} {w p m} (h : Runs s t w p m) : t.shadow = m := by rw [h.eq]
theorem Runs.lines {s t : State} {w p m} (h : Runs s t w p m) : t.lines = p := by rw [h.eq]; rfl
theorem Runs.cfg {s t : State} {w p m} (h : Runs s t w p m) : t.cfg = s.cfg := by rw [h.eq]
theorem Runs.lastSda {s t : State} {w p m} (h : Runs s t w p m) : t.i2c.lastSda = p.sda := by rw [h.eq]
theorem Runs.lastScl {s t : State} {w p m} (h : Runs s t w p m) : t.i2c.lastScl = p.scl := by rw [h.eq]

theorem Runs.refl (s : State) : Runs s s [] s.lines s.shadow := ⟨by simp [State.lines]⟩

theorem Runs.trans {s t u : State} {w w' p p' m m'} (h : Runs s t w p m) (k : Runs t u w' p' m') :
    Runs s u (w ++ w') p' m' := by
  refine ⟨?_⟩
  have := k.eq
  rw [h.eq] at this
  simpa using this

theorem Runs.setShadow {s t : State} {w p m} (h : Runs s t w p m) (i : Nat) (v : Byte) :
    Runs s (t.setShadow i v) w p (Memory.write m i v) := by
  refine ⟨?_⟩
  conv_lhs => rw [h.eq]
  simp [State.setShadow]

theorem drive_runs (sl : List Slot) (s : State) : Runs s (drive sl s) sl (lastSlot s.lines sl) s.shadow :=
  ⟨by rw [drive_eq]⟩

theorem drive_env (sl : List Slot) (s : State) : (drive sl s).env = observeAll s.cfg s.lines sl s.env := by
  rw [drive_eq]

theorem drive_append (a b : List Slot) (s : State) : drive (a ++ b) s = drive b (drive a s) := by
  induction a generalizing s with
  | nil => rfl
  | cons q qs ih => exact ih _

/-- Sampling changes nothing of the block (R111). -/
theorem sampleSda_runs (s : State) : Runs s (sampleSda s).2 [] s.lines s.shadow :=
  ⟨by simp [sampleSda, State.lines]⟩

theorem sampleSda_level (s : State) : (sampleSda s).1 = (s.i2c.lastSda && s.env.sda.1) := rfl

/-! ## The primitives -/

/-- The slots of START from the levels `p` (R114). -/
def startSlots (p : Slot) : List Slot := [⟨true, p.scl⟩, ⟨true, true⟩, ⟨false, true⟩]

/-- The slots of STOP from the levels `p` (R115). -/
def stopSlots (p : Slot) : List Slot := [⟨false, p.scl⟩, ⟨false, true⟩, ⟨true, true⟩]

theorem start_eq_drive (s : State) : start s = drive (startSlots s.lines) s := rfl
theorem stop_eq_drive (s : State) : stop s = drive (stopSlots s.lines) s := rfl

/-- START: three slots, lines at (0,1) (R114). -/
theorem start_runs (s : State) : Runs s (start s) (startSlots s.lines) ⟨false, true⟩ s.shadow :=
  drive_runs (startSlots s.lines) s

/-- STOP: three slots, lines at (1,1) (R115). -/
theorem stop_runs (s : State) : Runs s (stop s) (stopSlots s.lines) ⟨true, true⟩ s.shadow :=
  drive_runs (stopSlots s.lines) s

theorem byteSlots_eq (v : Byte) :
    byteSlots v =
      bitSlots (v.getLsbD 7) ++ bitSlots (v.getLsbD 6) ++ bitSlots (v.getLsbD 5) ++ bitSlots (v.getLsbD 4)
        ++ bitSlots (v.getLsbD 3) ++ bitSlots (v.getLsbD 2) ++ bitSlots (v.getLsbD 1) ++ bitSlots (v.getLsbD 0) := by
  simp [byteSlots]

@[simp] theorem byteSlots_length (v : Byte) : (byteSlots v).length = 24 := rfl

@[simp] theorem lastSlot_byteSlots (p : Slot) (v : Byte) : lastSlot p (byteSlots v) = ⟨v.getLsbD 0, false⟩ := rfl

/-- SENDBYTE: one slot that lowers SCL and the 24 bit slots; lines at (v[0],0) (R116). -/
theorem sendByte_runs (v : Byte) (s : State) :
    Runs s (sendByte v s) (⟨s.i2c.lastSda, false⟩ :: byteSlots v) ⟨v.getLsbD 0, false⟩ s.shadow :=
  drive_runs (⟨s.i2c.lastSda, false⟩ :: byteSlots v) s

/-- The four slots of READACK from SDA at `x` (R117). -/
def ackSlots (x : Level) : List Slot := [⟨x, false⟩, ⟨true, false⟩, ⟨true, true⟩, ⟨true, false⟩]

/-- READACK: four slots, lines at (1,0) (R117). -/
theorem readAck_runs (s : State) : Runs s (readAck s).2 (ackSlots s.i2c.lastSda) ⟨true, false⟩ s.shadow := by
  have h1 := drive_runs [⟨s.i2c.lastSda, false⟩, ⟨true, false⟩, ⟨true, true⟩] s
  have h2 := sampleSda_runs (drive [⟨s.i2c.lastSda, false⟩, ⟨true, false⟩, ⟨true, true⟩] s)
  have h3 := drive_runs [⟨true, false⟩]
    (sampleSda (drive [⟨s.i2c.lastSda, false⟩, ⟨true, false⟩, ⟨true, true⟩] s)).2
  have h := (h1.trans h2).trans h3
  rw [(h1.trans h2).shadow, h1.shadow] at h
  exact h

/-- READACK answers that the slave pulled the wire low in the high slot (R117). -/
theorem readAck_level (s : State) :
    (readAck s).1 = !(drive [⟨s.i2c.lastSda, false⟩, ⟨true, false⟩, ⟨true, true⟩] s).env.sda.1 := by
  simp [readAck, sampleSda_level, (drive_runs _ s).lastSda]

/-- SENDACK: five slots, lines at (1,0) (R118). -/
theorem sendAck_runs (low : Bool) (s : State) :
    Runs s (sendAck low s)
      [⟨s.i2c.lastSda, false⟩, ⟨!low, false⟩, ⟨!low, true⟩, ⟨!low, false⟩, ⟨true, false⟩] ⟨true, false⟩ s.shadow :=
  drive_runs _ s

/-- The two slots of one bit of READBYTE (R121). -/
def readBitSlots : List Slot := [⟨true, false⟩, ⟨true, true⟩]

/-- The bit loop of READBYTE: two slots a bit, lines at (1,1) after at least one (R121). -/
theorem readBits_runs (ns : List Nat) (v : Byte) (s : State) :
    Runs s (readBits ns v s).2 (ns.flatMap fun _ => readBitSlots)
      (if ns = [] then s.lines else ⟨true, true⟩) s.shadow := by
  induction ns generalizing v s with
  | nil => exact Runs.refl s
  | cons n ns ih =>
    have h1 := drive_runs readBitSlots s
    have h2 := sampleSda_runs (drive readBitSlots s)
    have h12 := h1.trans h2
    have h := h12.trans (ih (setBit v n (sampleSda (drive readBitSlots s)).1) (sampleSda (drive readBitSlots s)).2)
    rw [h12.shadow, h1.shadow, h12.lines, h1.lines] at h
    have : (if ns = [] then lastSlot s.lines readBitSlots else (⟨true, true⟩ : Slot)) = ⟨true, true⟩ := by
      split <;> rfl
    rw [this] at h
    simpa [readBits, readBitSlots] using h

/-- The 18 slots of READBYTE from SDA at `x` (R121). -/
def readByteSlots (x : Level) : List Slot :=
  ⟨x, false⟩ :: ([7, 6, 5, 4, 3, 2, 1, 0].flatMap fun _ => readBitSlots) ++ [⟨true, false⟩]

/-- READBYTE: 18 slots, lines at (1,0) (R121). -/
theorem readByte_runs (s : State) :
    Runs s (readByte s).2 (readByteSlots s.i2c.lastSda) ⟨true, false⟩ s.shadow := by
  have h1 := drive_runs [⟨s.i2c.lastSda, false⟩] s
  have h2 := readBits_runs [7, 6, 5, 4, 3, 2, 1, 0] 0 (drive [⟨s.i2c.lastSda, false⟩] s)
  have h12 := h1.trans h2
  have h := h12.trans (drive_runs [⟨true, false⟩] (readBits [7, 6, 5, 4, 3, 2, 1, 0] 0 (drive [⟨s.i2c.lastSda, false⟩] s)).2)
  rw [h12.shadow, h1.shadow] at h
  exact h

/-- I2CINIT: the pins recorded, one slot (1,1) (R113). -/
theorem i2cInit_eq (a b : Byte) (s : State) :
    i2cInit a b s =
      { s with
        i2c := ⟨a, b, true, true⟩
        wave := s.wave ++ [⟨true, true⟩]
        env := s.env.observe s.cfg s.lines ⟨true, true⟩ } := rfl

/-- The slots of a byte sent with its acknowledge clock, from SDA at `x` (R116, R117). -/
def sentSlots (x : Level) (v : Byte) : List Slot := (⟨x, false⟩ :: byteSlots v) ++ ackSlots (v.getLsbD 0)

@[simp] theorem sentSlots_length (x : Level) (v : Byte) : (sentSlots x v).length = 29 := rfl

/-- SENDBYTE then READACK: 29 slots, lines at (1,0) (R270). -/
theorem sendAcked_runs (v : Byte) (s : State) :
    Runs s (sendAcked v s).2 (sentSlots s.i2c.lastSda v) ⟨true, false⟩ s.shadow := by
  have h1 := sendByte_runs v s
  have h := h1.trans (readAck_runs (sendByte v s))
  rw [h1.shadow, h1.lastSda] at h
  exact h

/-! ## What the slave answers -/

/-- An oracle does not react to the lines. -/
theorem observeAll_oracle (c : Config) (p : Slot) (sl : List Slot) (bs : List Level) (a : List Bool) (k : Nat) :
    observeAll c p sl ⟨.oracle bs, a, k⟩ = ⟨.oracle bs, a, k⟩ := by
  induction sl generalizing p with
  | nil => rfl
  | cons q qs ih => exact ih q

/-- Nothing on the bus does not react to the lines. -/
theorem observeAll_absent (c : Config) (p : Slot) (sl : List Slot) (a : List Bool) (k : Nat) :
    observeAll c p sl ⟨.absent, a, k⟩ = ⟨.absent, a, k⟩ := by
  induction sl generalizing p with
  | nil => rfl
  | cons q qs ih => exact ih q

/-- READACK against an oracle whose next drive is `b`. -/
theorem readAck_oracle {s : State} {b : Level} {bs : List Level} {a : List Bool} {k : Nat}
    (h : s.env = ⟨.oracle (b :: bs), a, k⟩) :
    (readAck s).1 = !b ∧ (readAck s).2.env = ⟨.oracle bs, a, k⟩ := by
  constructor
  · rw [readAck_level, drive_env, h, observeAll_oracle]; rfl
  · simp only [readAck, drive_env, sampleSda]
    simp only [h, observeAll_oracle, Env.sda]

/-- SENDBYTE then READACK against an oracle whose next drive is `b`. -/
theorem sendAcked_oracle {s : State} {b : Level} {bs : List Level} {a : List Bool} {k : Nat} (v : Byte)
    (h : s.env = ⟨.oracle (b :: bs), a, k⟩) :
    (sendAcked v s).1 = !b ∧ (sendAcked v s).2.env = ⟨.oracle bs, a, k⟩ := by
  refine readAck_oracle ?_
  rw [sendByte, drive_env, h, observeAll_oracle]

theorem drive_env_oracle {s : State} {bs : List Level} {a : List Bool} {k : Nat} (sl : List Slot)
    (h : s.env = ⟨.oracle bs, a, k⟩) : (drive sl s).env = ⟨.oracle bs, a, k⟩ := by
  rw [drive_env, h, observeAll_oracle]

theorem start_env_oracle {s : State} {bs : List Level} {a : List Bool} {k : Nat}
    (h : s.env = ⟨.oracle bs, a, k⟩) : (start s).env = ⟨.oracle bs, a, k⟩ := by
  rw [start_eq_drive]; exact drive_env_oracle _ h

theorem stop_env_oracle {s : State} {bs : List Level} {a : List Bool} {k : Nat}
    (h : s.env = ⟨.oracle bs, a, k⟩) : (stop s).env = ⟨.oracle bs, a, k⟩ := by
  rw [stop_eq_drive]; exact drive_env_oracle _ h

theorem sendAck_env_oracle {s : State} {bs : List Level} {a : List Bool} {k : Nat} (low : Bool)
    (h : s.env = ⟨.oracle bs, a, k⟩) : (sendAck low s).env = ⟨.oracle bs, a, k⟩ := by
  rw [sendAck]; exact drive_env_oracle _ h

/-- The bit loop of READBYTE against an oracle that drives `bs`, one level a bit (R121). -/
theorem readBits_oracle {a : List Bool} {k : Nat} (ns : List Nat) (bs rest : List Level) (v : Byte) (s : State)
    (hlen : bs.length = ns.length) (h : s.env = ⟨.oracle (bs ++ rest), a, k⟩) :
    (readBits ns v s).1 = (ns.zip bs).foldl (fun w p => setBit w p.1 p.2) v
      ∧ (readBits ns v s).2.env = ⟨.oracle rest, a, k⟩ := by
  induction ns generalizing bs v s with
  | nil =>
    cases bs with
    | nil => exact ⟨rfl, h⟩
    | cons b bs => simp at hlen
  | cons n ns ih =>
    cases bs with
    | nil => simp at hlen
    | cons b bs =>
      have hd : (drive readBitSlots s).env = ⟨.oracle (b :: (bs ++ rest)), a, k⟩ := drive_env_oracle _ h
      have hl : (sampleSda (drive readBitSlots s)).1 = b := by
        rw [sampleSda_level, hd, (drive_runs readBitSlots s).lastSda]; rfl
      have he : (sampleSda (drive readBitSlots s)).2.env = ⟨.oracle (bs ++ rest), a, k⟩ := by
        simp only [sampleSda, hd, Env.sda]
      have := ih bs (setBit v n (sampleSda (drive readBitSlots s)).1) (sampleSda (drive readBitSlots s)).2
        (by simpa using hlen) he
      rw [show readBits (n :: ns) v s = readBits ns (setBit v n (sampleSda (drive readBitSlots s)).1)
        (sampleSda (drive readBitSlots s)).2 from rfl]
      rw [hl] at this ⊢
      exact this

/-- The byte of eight levels, bit 7 first (R62). -/
def byteOfLevels (b7 b6 b5 b4 b3 b2 b1 b0 : Level) : Byte :=
  ([7, 6, 5, 4, 3, 2, 1, 0].zip [b7, b6, b5, b4, b3, b2, b1, b0]).foldl (fun w p => setBit w p.1 p.2) 0

theorem byteOfLevels_levelsOf : ∀ v : Byte,
    byteOfLevels (v.getLsbD 7) (v.getLsbD 6) (v.getLsbD 5) (v.getLsbD 4) (v.getLsbD 3) (v.getLsbD 2) (v.getLsbD 1)
      (v.getLsbD 0) = v := by decide

/-- READBYTE against an oracle that sends the byte `v` (R121). -/
theorem readByte_oracle {s : State} {rest : List Level} {a : List Bool} {k : Nat} (v : Byte)
    (h : s.env = ⟨.oracle (levelsOf v ++ rest), a, k⟩) :
    (readByte s).1 = v ∧ (readByte s).2.env = ⟨.oracle rest, a, k⟩ := by
  have h0 : (drive [⟨s.i2c.lastSda, false⟩] s).env = ⟨.oracle (levelsOf v ++ rest), a, k⟩ := drive_env_oracle _ h
  have hr := readBits_oracle [7, 6, 5, 4, 3, 2, 1, 0] (levelsOf v) rest 0 _ rfl h0
  refine ⟨?_, drive_env_oracle _ hr.2⟩
  show (readBits _ _ _).1 = v
  rw [hr.1]
  exact byteOfLevels_levelsOf v

end Sys2Proof.Machine
end

