-- ==== Sys2Proof/Laws/Commute.lean ====
section
/-! SUPPORT. Laws/Commute.lean: the bus operations read and write the lines, the waveform, the shadow and the environment, and read the
parameters; they commute with every update of the other fields. -/
namespace Sys2Proof.Machine

/-- An update of State that leaves alone what the bus operations use. -/
structure Blind (f : State → State) : Prop where
  cfg : ∀ s, (f s).cfg = s.cfg
  i2c : ∀ s, (f s).i2c = s.i2c
  wave : ∀ s, (f s).wave = s.wave
  shadow : ∀ s, (f s).shadow = s.shadow
  env : ∀ s, (f s).env = s.env
  upd : ∀ s a b c d, f { s with i2c := a, wave := b, shadow := c, env := d }
    = { f s with i2c := a, wave := b, shadow := c, env := d }

variable {f : State → State}

theorem Blind.lines (hf : Blind f) (s : State) : (f s).lines = s.lines := by
  simp [State.lines, hf.i2c]

theorem Blind.setLines (hf : Blind f) (q : Slot) (s : State) : setLines q (f s) = f (setLines q s) := by
  have h := hf.upd s { s.i2c with lastSda := q.sda, lastScl := q.scl } (s.wave ++ [q]) s.shadow
    (s.env.observe s.cfg s.lines q)
  unfold Machine.setLines
  rw [hf.i2c, hf.wave, hf.env, hf.cfg, hf.lines]
  refine Eq.trans ?_ h.symm
  simp [hf.cfg, hf.shadow]

theorem Blind.drive (hf : Blind f) (sl : List Slot) (s : State) : drive sl (f s) = f (drive sl s) := by
  induction sl generalizing s with
  | nil => rfl
  | cons q qs ih => rw [Machine.drive, hf.setLines, ih]; rfl

theorem Blind.sampleSda (hf : Blind f) (s : State) :
    sampleSda (f s) = ((sampleSda s).1, f (sampleSda s).2) := by
  have h := hf.upd s s.i2c s.wave s.shadow s.env.sda.2
  unfold Machine.sampleSda
  rw [hf.i2c, hf.env]
  refine congrArg (Prod.mk _) (Eq.trans ?_ h.symm)
  simp [hf.wave, hf.shadow]

theorem Blind.start (hf : Blind f) (s : State) : start (f s) = f (start s) := by
  rw [start_eq_drive, hf.lines, hf.drive]; rfl

theorem Blind.stop (hf : Blind f) (s : State) : stop (f s) = f (stop s) := by
  rw [stop_eq_drive, hf.lines, hf.drive]; rfl

theorem Blind.sendByte (hf : Blind f) (v : Byte) (s : State) : sendByte v (f s) = f (sendByte v s) := by
  unfold Machine.sendByte
  rw [hf.i2c, hf.drive]

theorem Blind.readAck (hf : Blind f) (s : State) : readAck (f s) = ((readAck s).1, f (readAck s).2) := by
  unfold Machine.readAck
  simp only [hf.i2c, hf.drive, hf.sampleSda]

theorem Blind.sendAck (hf : Blind f) (low : Bool) (s : State) : sendAck low (f s) = f (sendAck low s) := by
  unfold Machine.sendAck
  rw [hf.i2c, hf.drive]

theorem Blind.readBits (hf : Blind f) (ns : List Nat) (v : Byte) (s : State) :
    readBits ns v (f s) = ((readBits ns v s).1, f (readBits ns v s).2) := by
  induction ns generalizing v s with
  | nil => rfl
  | cons n ns ih => simp only [Machine.readBits, hf.drive, hf.sampleSda, ih]

theorem Blind.readByte (hf : Blind f) (s : State) : readByte (f s) = ((readByte s).1, f (readByte s).2) := by
  unfold Machine.readByte
  simp only [hf.i2c, hf.drive, hf.readBits]

theorem Blind.setShadow (hf : Blind f) (i : Nat) (v : Byte) (s : State) :
    (f s).setShadow i v = f (s.setShadow i v) := by
  have h := hf.upd s s.i2c s.wave (Memory.write s.shadow i v) s.env
  unfold State.setShadow
  rw [hf.shadow]
  refine Eq.trans ?_ h.symm
  simp [hf.i2c, hf.wave, hf.env]

theorem Blind.sendAcked (hf : Blind f) (v : Byte) (s : State) :
    sendAcked v (f s) = ((sendAcked v s).1, f (sendAcked v s).2) := by
  unfold Machine.sendAcked
  rw [hf.sendByte, hf.readAck]

theorem Blind.writeBytes (hf : Blind f) (i j : Nat) (ds : List Byte) (s : State) :
    writeBytes i j ds (f s) = ((writeBytes i j ds s).1, f (writeBytes i j ds s).2) := by
  induction ds generalizing j s with
  | nil => simp only [Machine.writeBytes, hf.stop]
  | cons d ds ih =>
    simp only [Machine.writeBytes, hf.sendAcked]
    split
    · rw [hf.setShadow, ih]
    · rw [hf.stop]

/-- XWRITE commutes with an update of what the bus does not use. -/
theorem Blind.xwrite (hf : Blind f) (i : Nat) (ds : List Byte) (s : State) :
    xwrite i ds (f s) = ((xwrite i ds s).1, f (xwrite i ds s).2) := by
  simp only [Machine.xwrite, hf.cfg, hf.start, hf.sendAcked]
  split
  · split
    · rw [hf.writeBytes]
    · rw [hf.stop]
  · rw [hf.stop]

theorem Blind.readBytes (hf : Blind f) (u : Bool) (k i : Nat) (s : State) :
    readBytes u k i (f s) = ((readBytes u k i s).1, f (readBytes u k i s).2) := by
  induction k generalizing i s with
  | zero => rfl
  | succ k ih =>
    simp only [Machine.readBytes, hf.readByte, hf.sendAck, hf.setShadow]
    cases u <;> simp [ih]

/-- XREAD commutes with an update of what the bus does not use. -/
theorem Blind.xread (hf : Blind f) (i k : Nat) (u : Bool) (s : State) :
    xread i k u (f s) = ((xread i k u s).1, f (xread i k u s).2) := by
  simp only [Machine.xread, hf.cfg, hf.start, hf.sendAcked]
  split
  · split
    · split
      · simp only [hf.readBytes, hf.stop]
      · rw [hf.stop]
    · rw [hf.stop]
  · rw [hf.stop]

theorem Blind.dread16 (hf : Blind f) (s : State) : dread16 (f s) = ((dread16 s).1, f (dread16 s).2) := by
  simp only [Machine.dread16, hf.xread, hf.shadow]

theorem Blind.dwriteBit (hf : Blind f) (pin : Nat) (level : Level) (s : State) :
    dwriteBit pin level (f s) = ((dwriteBit pin level s).1, f (dwriteBit pin level s).2) := by
  simp only [Machine.dwriteBit, Machine.dwrite16, hf.shadow, hf.xwrite]

end Sys2Proof.Machine
end

