-- ==== Sys2Proof/Laws/Queue.lean ====
section
/-! SUPPORT. Laws/Queue.lean: what posting does (spec/43_dispatcher_actuator.md R181, R183). -/
namespace Sys2Proof.Machine

theorem tryPost_room {cap : Nat} {g : Signal} {q : List Signal} (h : q.length < cap) : tryPost cap g q = some (q ++ [g]) := by
  simp [tryPost, h]

theorem tryPost_full {cap : Nat} {g : Signal} {q : List Signal} (h : cap ≤ q.length) : tryPost cap g q = none := by
  simp [tryPost, Nat.not_lt.mpr h]

/-- Everything `PostOrHold` can do (R183): the signal is held because the slot is occupied, posted, or held because the queue is
full. It is never dropped. -/
theorem postOrHold_cases (cap : Nat) (g : Signal) (held : Option Signal) (q : List Signal) :
    (held.isSome ∧ postOrHold cap g held q = (some g, q))
      ∨ (held = none ∧ q.length < cap ∧ postOrHold cap g held q = (none, q ++ [g]))
      ∨ (held = none ∧ cap ≤ q.length ∧ postOrHold cap g held q = (some g, q)) := by
  cases held with
  | some h => exact Or.inl ⟨rfl, rfl⟩
  | none =>
    by_cases h : q.length < cap
    · exact Or.inr (Or.inl ⟨rfl, h, by simp [postOrHold, tryPost_room h]⟩)
    · exact Or.inr (Or.inr ⟨rfl, Nat.le_of_not_lt h, by simp [postOrHold, tryPost_full (Nat.le_of_not_lt h)]⟩)

/-- Posting keeps the queue within its capacity (R35). -/
theorem postOrHold_length {cap : Nat} {g : Signal} {held : Option Signal} {q : List Signal} (h : q.length ≤ cap) :
    (postOrHold cap g held q).2.length ≤ cap := by
  rcases postOrHold_cases cap g held q with ⟨_, e⟩ | ⟨_, hl, e⟩ | ⟨_, _, e⟩ <;> rw [e]
  · exact h
  · simpa using hl
  · exact h

/-- What is in the queue after posting was there or is the signal. -/
theorem mem_postOrHold_queue {cap : Nat} {g x : Signal} {held : Option Signal} {q : List Signal}
    (h : x ∈ (postOrHold cap g held q).2) : x ∈ q ∨ x = g := by
  rcases postOrHold_cases cap g held q with ⟨_, e⟩ | ⟨_, _, e⟩ | ⟨_, _, e⟩ <;> rw [e] at h
  · exact Or.inl h
  · simpa using h
  · exact Or.inl h

/-- What is held after posting is the signal. -/
theorem postOrHold_held {cap : Nat} {g x : Signal} {held : Option Signal} {q : List Signal}
    (h : (postOrHold cap g held q).1 = some x) : x = g := by
  rcases postOrHold_cases cap g held q with ⟨_, e⟩ | ⟨_, _, e⟩ | ⟨_, _, e⟩ <;> rw [e] at h <;> simp at h <;> exact h.symm

end Sys2Proof.Machine
end

