-- ==== Sys2Proof/Laws/Debounce.lean ====
section
/-! SUPPORT. Laws/Debounce.lean: what one sample does to a counter and to a list of channels (spec/42_debounce.md R161 to R164). -/
namespace Sys2Proof.Machine

/-- An active sample: reset from below, step, saturate at N (R162). -/
theorem stepCount_active {n : Int} (h : 1 ≤ n) (c : Int) :
    stepCount n true c = (if c < 0 then 1 else if c < n then c + 1 else c, decide (max c 0 + 1 = n)) := by
  unfold stepCount
  by_cases h0 : c < 0
  · simp only [if_true, h0, show (0 : Int) < n by omega, max_eq_right (le_of_lt h0)]
    simp
  · simp only [if_true, h0, if_false, max_eq_left (not_lt.mp h0)]
    split
    · rfl
    · next hn =>
      have : ¬ (c + 1 = n) := by omega
      simp [this]

/-- An inactive sample: reset from above, step, saturate at -N (R162). -/
theorem stepCount_inactive {n : Int} (h : 1 ≤ n) (c : Int) :
    stepCount n false c = (if 0 < c then -1 else if -n < c then c - 1 else c, decide (min c 0 - 1 = -n)) := by
  unfold stepCount
  by_cases h0 : 0 < c
  · simp only [Bool.false_eq_true, if_false, if_true, h0, show (-n : Int) < 0 by omega, min_eq_right (le_of_lt h0)]
    simp
  · simp only [Bool.false_eq_true, h0, if_false, min_eq_left (not_lt.mp h0)]
    split
    · rfl
    · next hn =>
      have : ¬ (c - 1 = -n) := by omega
      simp [this]

/-- The counter stays within ±N (R164 (a)). -/
theorem stepCount_bounds {n : Int} (h : 1 ≤ n) (a : Bool) {c : Int} (hl : -n ≤ c) (hh : c ≤ n) :
    -n ≤ (stepCount n a c).1 ∧ (stepCount n a c).1 ≤ n := by
  cases a
  · rw [stepCount_inactive h]; simp only; split <;> [skip; split] <;> omega
  · rw [stepCount_active h]; simp only; split <;> [skip; split] <;> omega

@[simp] theorem sampleChannel_cfg (n cap : Nat) (raw : Level) (ch : Channel) (q : List Signal) :
    (sampleChannel n cap raw ch q).1.cfg = ch.cfg := by
  unfold sampleChannel; dsimp only; split <;> rfl

theorem sampleChannel_cnt (n cap : Nat) (raw : Level) (ch : Channel) (q : List Signal) :
    (sampleChannel n cap raw ch q).1.cnt = (stepCount n (raw == ch.cfg.activeLevel) ch.cnt).1 := by
  unfold sampleChannel; dsimp only; split <;> rfl

@[simp] theorem sampleFrom_length (n cap : Nat) (raw : Byte) (c : Nat) (chs : List Channel) (q : List Signal) :
    (sampleFrom n cap raw c chs q).1.length = chs.length := by
  induction chs generalizing c q with
  | nil => rfl
  | cons ch chs ih => simp [sampleFrom, ih]

theorem sampleFrom_cfg (n cap : Nat) (raw : Byte) (c : Nat) (chs : List Channel) (q : List Signal) :
    (sampleFrom n cap raw c chs q).1.map (·.cfg) = chs.map (·.cfg) := by
  induction chs generalizing c q with
  | nil => rfl
  | cons ch chs ih => simp [sampleFrom, ih]

/-- Every channel's counter after a sample, whatever the others do. -/
theorem sampleFrom_cnt (n cap : Nat) (raw : Byte) (c k : Nat) (chs : List Channel) (q : List Signal) :
    ((sampleFrom n cap raw c chs q).1[k]?).map (·.cnt)
      = (chs[k]?).map fun ch => (stepCount n (raw.getLsbD (c + k) == ch.cfg.activeLevel) ch.cnt).1 := by
  induction chs generalizing c k q with
  | nil => rfl
  | cons ch chs ih =>
    cases k with
    | zero => simp [sampleFrom, sampleChannel_cnt]
    | succ k =>
      simp only [sampleFrom, List.getElem?_cons_succ]
      rw [ih, show c + 1 + k = c + (k + 1) by omega]

/-- A sample only appends to the queue. -/
theorem sampleChannel_queue_prefix (n cap : Nat) (raw : Level) (ch : Channel) (q : List Signal) :
    q <+: (sampleChannel n cap raw ch q).2 := by
  unfold sampleChannel
  dsimp only
  split
  · next sig _ =>
    rcases postOrHold_cases cap sig ch.held q with ⟨_, e⟩ | ⟨_, _, e⟩ | ⟨_, _, e⟩ <;> rw [e]
    · exact List.prefix_append q [sig]
  · exact List.prefix_refl q

theorem sampleFrom_queue_prefix (n cap : Nat) (raw : Byte) (c : Nat) (chs : List Channel) (q : List Signal) :
    q <+: (sampleFrom n cap raw c chs q).2 := by
  induction chs generalizing c q with
  | nil => exact List.prefix_refl q
  | cons ch chs ih => exact (sampleChannel_queue_prefix n cap _ ch q).trans (ih _ _)

end Sys2Proof.Machine
end

