-- ==== Sys2Proof/Laws/Transactions.lean ====
section
/-! SUPPORT. Laws/Transactions.lean: what XWRITE and XREAD do (spec/20_memory.md R65, R66, R68): the waveform, the shadow and the
result, for any slave. -/
namespace Sys2Proof.Machine

/-! ## Bursts in a register file -/

@[simp] theorem burstPrefix_zero (m : Memory) (i : Nat) (ds : List Byte) : burstPrefix m i ds 0 = m := by
  cases ds <;> rfl

@[simp] theorem burstPrefix_cons (m : Memory) (i : Nat) (d : Byte) (ds : List Byte) (n : Nat) :
    burstPrefix m i (d :: ds) (n + 1) = burstPrefix (Memory.write m i d) (i + 1) ds n := rfl

@[simp] theorem burstPrefix_nil (m : Memory) (i n : Nat) : burstPrefix m i [] n = m := by
  cases n <;> rfl

theorem burstPrefix_wf {m : Memory} (i : Nat) (ds : List Byte) (n : Nat) (h : Memory.wf m) :
    Memory.wf (burstPrefix m i ds n) := by
  induction ds generalizing m i n with
  | nil => simpa using h
  | cons d ds ih =>
    cases n with
    | zero => simpa using h
    | succ n => exact ih (i + 1) n (Memory.write_wf i d h)

theorem burstPrefix_inRange {m : Memory} (i : Nat) (ds : List Byte) (n : Nat) (h : Memory.inRange m)
    (hi : i + ds.length ≤ 22) : Memory.inRange (burstPrefix m i ds n) := by
  induction ds generalizing m i n with
  | nil => simpa using h
  | cons d ds ih =>
    cases n with
    | zero => simpa using h
    | succ n =>
      have hlen : i + 1 + ds.length ≤ 22 := by simp at hi; omega
      exact ih (i + 1) n (Memory.write_inRange d h (by omega)) hlen

/-- A register outside the confirmed bytes reads as before. -/
theorem read_burstPrefix_outside (m : Memory) (i : Nat) (ds : List Byte) (n a : Nat)
    (h : a < i ∨ i + min n ds.length ≤ a) : Memory.read (burstPrefix m i ds n) a = Memory.read m a := by
  induction ds generalizing m i n with
  | nil => simp
  | cons d ds ih =>
    cases n with
    | zero => simp
    | succ n =>
      simp only [List.length_cons] at h
      rw [burstPrefix_cons, ih, Memory.read_write_other] <;> omega

/-- A confirmed register reads as the byte sent to it. -/
theorem read_burstPrefix_inside {m : Memory} (i : Nat) (ds : List Byte) (n j : Nat) (hm : Memory.wf m) (hj : j < n)
    (hl : j < ds.length) : Memory.read (burstPrefix m i ds n) (i + j) = ds[j] := by
  induction ds generalizing m i n j with
  | nil => simp at hl
  | cons d ds ih =>
    cases n with
    | zero => omega
    | succ n =>
      rw [burstPrefix_cons]
      cases j with
      | zero =>
        rw [read_burstPrefix_outside _ _ _ _ _ (Or.inl (by omega))]
        simpa using Memory.read_write_same i d hm
      | succ j =>
        have := ih (i + 1) n j (Memory.write_wf i d hm) (by omega) (by simpa using hl)
        rw [show i + (j + 1) = i + 1 + j by omega, this]
        simp

/-! ## XWRITE -/

/-- The waveform of the bytes of a burst: the first one after a START from (0,1), the others after an acknowledge from (1,0), then
the STOP. -/
def burstSlots (p : Slot) (bytes : List Byte) : List Slot :=
  startSlots p ++ (match bytes with
    | [] => []
    | b :: bs => sentSlots false b ++ bs.flatMap (sentSlots true)) ++ stopSlots ⟨true, false⟩

/-- The data loop of XWRITE from byte `j` on: what was confirmed is in the shadow, what was sent is on the waveform. -/
theorem writeBytes_spec (i j : Nat) (ds : List Byte) (s : State) (hp : s.lines = ⟨true, false⟩) (hj : j + ds.length ≤ 256) :
    ∃ n, n ≤ ds.length ∧
      ((writeBytes i j ds s).1 = .ok ∧ n = ds.length
          ∧ Runs s (writeBytes i j ds s).2 (ds.flatMap (sentSlots true) ++ stopSlots ⟨true, false⟩) ⟨true, true⟩
              (burstPrefix s.shadow (i + j) ds n)
        ∨ (writeBytes i j ds s).1 = ⟨.nakData, BitVec.ofNat 8 (j + n), 0⟩ ∧ n < ds.length
          ∧ Runs s (writeBytes i j ds s).2 ((ds.take (n + 1)).flatMap (sentSlots true) ++ stopSlots ⟨true, false⟩)
              ⟨true, true⟩ (burstPrefix s.shadow (i + j) ds n)) := by
  induction ds generalizing j s with
  | nil =>
    refine ⟨0, le_refl _, Or.inl ⟨rfl, rfl, ?_⟩⟩
    have := stop_runs s
    rw [hp] at this
    simpa [writeBytes] using this
  | cons d ds ih =>
    have hs := sendAcked_runs d s
    rw [show s.i2c.lastSda = true from congrArg Slot.sda hp] at hs
    have hlen : j + 1 + ds.length ≤ 256 := by simp at hj; omega
    rw [writeBytes]
    by_cases hack : (sendAcked d s).1 = true
    · simp only [hack, if_true]
      obtain ⟨n, hn, hcase⟩ := ih (j + 1) ((sendAcked d s).2.setShadow (i + j) d) hs.lines hlen
      have hsh : ((sendAcked d s).2.setShadow (i + j) d).shadow = Memory.write s.shadow (i + j) d := by
        simp [hs.shadow]
      refine ⟨n + 1, by simpa using hn, ?_⟩
      rcases hcase with ⟨hr, hnl, hruns⟩ | ⟨hr, hnl, hruns⟩
      · refine Or.inl ⟨hr, by simpa using hnl, ?_⟩
        have := (hs.setShadow (i + j) d).trans hruns
        rw [hsh] at this
        simpa [List.append_assoc, Nat.add_assoc] using this
      · refine Or.inr ⟨by rw [hr]; congr 2; omega, by simpa using hnl, ?_⟩
        have := (hs.setShadow (i + j) d).trans hruns
        rw [hsh] at this
        simpa [List.append_assoc, Nat.add_assoc] using this
    · have hack' : (sendAcked d s).1 = false := by simpa using hack
      simp only [hack', if_false, Bool.false_eq_true]
      refine ⟨0, Nat.zero_le _, Or.inr ⟨rfl, by simp, ?_⟩⟩
      have := hs.trans (stop_runs (sendAcked d s).2)
      rw [hs.lines, hs.shadow] at this
      simpa using this

/-- XWRITE, whole (R65): its result, its waveform, and the shadow with the confirmed prefix. -/
theorem xwrite_spec (i : Nat) (data : List Byte) (s : State) (hk : data.length ≤ 255) :
    WriteStatus data.length (xwrite i data s).1.status (xwrite i data s).1.index
      ∧ (xwrite i data s).1.value = 0
      ∧ Runs s (xwrite i data s).2
          (burstSlots s.lines (sentBytes s.cfg i data (xwrite i data s).1.status (xwrite i data s).1.index)) ⟨true, true⟩
          (burstPrefix s.shadow i data
            (confirmedCount (xwrite i data s).1.status (xwrite i data s).1.index data.length)) := by
  have h0 := start_runs s
  have h1 := sendAcked_runs (writeAddr s.cfg) (start s)
  rw [h0.lastSda, h0.shadow] at h1
  have h01 := h0.trans h1
  rw [xwrite]
  by_cases ha : (sendAcked (writeAddr s.cfg) (start s)).1 = true
  · simp only [ha, if_true]
    have h2 := sendAcked_runs (regPtr s.cfg i) (sendAcked (writeAddr s.cfg) (start s)).2
    rw [h1.lastSda, h1.shadow] at h2
    have h02 := h01.trans h2
    by_cases hb : (sendAcked (regPtr s.cfg i) (sendAcked (writeAddr s.cfg) (start s)).2).1 = true
    · simp only [hb, if_true]
      obtain ⟨n, hn, hcase⟩ := writeBytes_spec i 0 data _ h2.lines (by omega)
      rw [h2.shadow] at hcase
      rcases hcase with ⟨hr, hnl, hruns⟩ | ⟨hr, hnl, hruns⟩
      · rw [hr]
        refine ⟨Or.inl ⟨rfl, rfl⟩, rfl, ?_⟩
        have := h02.trans hruns
        rw [hnl] at this
        simpa [burstSlots, sentBytes, confirmedCount, List.append_assoc] using this
      · rw [hr]
        have hmod : (BitVec.ofNat 8 (0 + n)).toNat = n := by
          rw [BitVec.toNat_ofNat, Nat.mod_eq_of_lt] <;> omega
        refine ⟨Or.inr (Or.inr (Or.inr ⟨rfl, by rw [hmod]; exact hnl⟩)), rfl, ?_⟩
        have := h02.trans hruns
        simp only [confirmedCount, sentBytes, hmod]
        simpa [burstSlots, List.append_assoc] using this
    · have hb' : (sendAcked (regPtr s.cfg i) (sendAcked (writeAddr s.cfg) (start s)).2).1 = false := by simpa using hb
      simp only [hb', if_false, Bool.false_eq_true]
      refine ⟨Or.inr (Or.inr (Or.inl (by simp))), by simp, ?_⟩
      have := h02.trans (stop_runs _)
      rw [h2.lines, h2.shadow] at this
      simpa [burstSlots, sentBytes, confirmedCount, List.append_assoc] using this
  · have ha' : (sendAcked (writeAddr s.cfg) (start s)).1 = false := by simpa using ha
    simp only [ha', if_false, Bool.false_eq_true]
    refine ⟨Or.inr (Or.inl (by simp)), by simp, ?_⟩
    have := h01.trans (stop_runs _)
    rw [h1.lines, h1.shadow] at this
    simpa [burstSlots, sentBytes, confirmedCount, List.append_assoc] using this

/-! ## XREAD -/

/-- The slots of the bytes of a read burst: each byte, then the master's acknowledge, or for the last one its absence (R66). -/
def readSlots : Nat → List Slot
  | 0 => []
  | k + 1 =>
    readByteSlots true ++ [⟨true, false⟩, ⟨decide (k = 0), false⟩, ⟨decide (k = 0), true⟩, ⟨decide (k = 0), false⟩, ⟨true, false⟩]
      ++ readSlots k

/-- The byte loop of XREAD: as many bytes as asked for, and with `update` each of them in the shadow. -/
theorem readBytes_spec (u : Bool) (k i : Nat) (s : State) (hp : s.lines = ⟨true, false⟩) :
    (readBytes u k i s).1.length = k
      ∧ Runs s (readBytes u k i s).2 (readSlots k) ⟨true, false⟩
          (if u then burstPrefix s.shadow i (readBytes u k i s).1 k else s.shadow) := by
  induction k generalizing i s with
  | zero =>
    refine ⟨rfl, ?_⟩
    have := Runs.refl s
    rw [hp] at this
    cases u <;> simpa [readBytes, readSlots] using this
  | succ k ih =>
    have h1 := readByte_runs s
    rw [show s.i2c.lastSda = true from congrArg Slot.sda hp] at h1
    have h2 := sendAck_runs (decide (k ≠ 0)) (readByte s).2
    rw [h1.lastSda, h1.shadow] at h2
    have h12 := h1.trans h2
    have hd : (!decide (k ≠ 0)) = decide (k = 0) := by by_cases hk : k = 0 <;> simp [hk]
    rw [hd] at h12
    rw [readBytes]
    cases u with
    | false =>
      obtain ⟨hl, hr⟩ := ih (i + 1) (sendAck (decide (k ≠ 0)) (readByte s).2) h2.lines
      refine ⟨by simpa using hl, ?_⟩
      have := h12.trans hr
      simp only [Bool.false_eq_true, if_false] at this ⊢
      rw [h2.shadow] at this
      simpa [readSlots, List.append_assoc] using this
    | true =>
      have hset := h12.setShadow i (readByte s).1
      obtain ⟨hl, hr⟩ := ih (i + 1) ((sendAck (decide (k ≠ 0)) (readByte s).2).setShadow i (readByte s).1) h2.lines
      refine ⟨by simpa using hl, ?_⟩
      have := hset.trans hr
      simp only [if_true] at this ⊢
      rw [setShadow_shadow, h2.shadow] at this
      simpa [readSlots, List.append_assoc] using this

/-- The waveform of XREAD, given how it ended (R66): the pointer write, a repeated START, the read address and the bytes. -/
def readBurstSlots (c : Config) (p : Slot) (i k : Nat) (status : Status) (index : Byte) : List Slot :=
  match status with
  | .nakAddr =>
    if index = 0 then startSlots p ++ sentSlots false (writeAddr c) ++ stopSlots ⟨true, false⟩
    else
      startSlots p ++ sentSlots false (writeAddr c) ++ sentSlots true (regPtr c i) ++ startSlots ⟨true, false⟩
        ++ sentSlots false (readAddr c) ++ stopSlots ⟨true, false⟩
  | .nakPtr => startSlots p ++ sentSlots false (writeAddr c) ++ sentSlots true (regPtr c i) ++ stopSlots ⟨true, false⟩
  | .ok | .nakData | .invalidArg | .queueFull | .illegalCmd =>
    startSlots p ++ sentSlots false (writeAddr c) ++ sentSlots true (regPtr c i) ++ startSlots ⟨true, false⟩
      ++ sentSlots false (readAddr c) ++ readSlots k ++ stopSlots ⟨true, false⟩

/-- XREAD, whole (R66): its result, the bytes it gives, its waveform, and the shadow, updated only by a read that succeeded. -/
theorem xread_spec (i k : Nat) (u : Bool) (s : State) :
    ReadStatus (xread i k u s).1.result.status (xread i k u s).1.result.index
      ∧ (xread i k u s).1.result.value = 0
      ∧ (xread i k u s).1.bytes.length = (if (xread i k u s).1.result.status = .ok then k else 0)
      ∧ Runs s (xread i k u s).2
          (readBurstSlots s.cfg s.lines i k (xread i k u s).1.result.status (xread i k u s).1.result.index) ⟨true, true⟩
          (if u then burstPrefix s.shadow i (xread i k u s).1.bytes k else s.shadow) := by
  have h0 := start_runs s
  have h1 := sendAcked_runs (writeAddr s.cfg) (start s)
  rw [h0.lastSda, h0.shadow] at h1
  have h01 := h0.trans h1
  rw [xread]
  by_cases ha : (sendAcked (writeAddr s.cfg) (start s)).1 = true
  · simp only [ha, if_true]
    have h2 := sendAcked_runs (regPtr s.cfg i) (sendAcked (writeAddr s.cfg) (start s)).2
    rw [h1.lastSda, h1.shadow] at h2
    have h02 := h01.trans h2
    by_cases hb : (sendAcked (regPtr s.cfg i) (sendAcked (writeAddr s.cfg) (start s)).2).1 = true
    · simp only [hb, if_true]
      have h3 := start_runs (sendAcked (regPtr s.cfg i) (sendAcked (writeAddr s.cfg) (start s)).2).2
      rw [h2.lines, h2.shadow] at h3
      have h4 := sendAcked_runs (readAddr s.cfg) (start (sendAcked (regPtr s.cfg i) (sendAcked (writeAddr s.cfg) (start s)).2).2)
      rw [h3.lastSda, h3.shadow] at h4
      have h04 := (h02.trans h3).trans h4
      by_cases hc : (sendAcked (readAddr s.cfg)
          (start (sendAcked (regPtr s.cfg i) (sendAcked (writeAddr s.cfg) (start s)).2).2)).1 = true
      · simp only [hc, if_true]
        obtain ⟨hl, hr⟩ := readBytes_spec u k i _ h4.lines
        rw [h4.shadow] at hr
        refine ⟨Or.inl (by simp), by simp, by simpa using hl, ?_⟩
        have := (h04.trans hr).trans (stop_runs _)
        rw [hr.lines, hr.shadow] at this
        simpa [readBurstSlots, List.append_assoc] using this
      · have hc' : (sendAcked (readAddr s.cfg)
          (start (sendAcked (regPtr s.cfg i) (sendAcked (writeAddr s.cfg) (start s)).2).2)).1 = false := by simpa using hc
        simp only [hc', if_false, Bool.false_eq_true]
        refine ⟨Or.inr (Or.inl (by simp)), by simp, by simp, ?_⟩
        have := h04.trans (stop_runs _)
        rw [h4.lines, h4.shadow] at this
        cases u <;> simpa [readBurstSlots, List.append_assoc] using this
    · have hb' : (sendAcked (regPtr s.cfg i) (sendAcked (writeAddr s.cfg) (start s)).2).1 = false := by simpa using hb
      simp only [hb', if_false, Bool.false_eq_true]
      refine ⟨Or.inr (Or.inr (by simp)), by simp, by simp, ?_⟩
      have := h02.trans (stop_runs _)
      rw [h2.lines, h2.shadow] at this
      cases u <;> simpa [readBurstSlots, List.append_assoc] using this
  · have ha' : (sendAcked (writeAddr s.cfg) (start s)).1 = false := by simpa using ha
    simp only [ha', if_false, Bool.false_eq_true]
    refine ⟨Or.inr (Or.inl (by simp)), by simp, by simp, ?_⟩
    have := h01.trans (stop_runs _)
    rw [h1.lines, h1.shadow] at this
    cases u <;> simpa [readBurstSlots, List.append_assoc] using this

theorem storeRead_env (u : Bool) (i : Nat) (v : Byte) (s : State) :
    (if u then s.setShadow i v else s).env = s.env := by cases u <;> rfl

/-- The byte loop of XREAD against an oracle that sends `bs`. -/
theorem readBytes_oracle {a : List Bool} {k : Nat} (u : Bool) (bs : List Byte) (rest : List Level) (i : Nat) (s : State)
    (h : s.env = ⟨.oracle (bs.flatMap levelsOf ++ rest), a, k⟩) :
    (readBytes u bs.length i s).1 = bs ∧ (readBytes u bs.length i s).2.env = ⟨.oracle rest, a, k⟩ := by
  induction bs generalizing i s with
  | nil => exact ⟨rfl, h⟩
  | cons b bs ih =>
    rw [List.flatMap_cons, List.append_assoc] at h
    obtain ⟨h1, h2⟩ := readByte_oracle b h
    have h3 := sendAck_env_oracle (decide (bs.length ≠ 0)) h2
    have h4 := (storeRead_env u i (readByte s).1 (sendAck (decide (bs.length ≠ 0)) (readByte s).2)).trans h3
    obtain ⟨h5, h6⟩ := ih (i + 1) _ h4
    rw [List.length_cons, readBytes]
    dsimp only
    rw [h5, h1]
    rw [h1] at h6
    exact ⟨rfl, h6⟩

/-- XREAD against an oracle that acknowledges the three address bytes and sends `bs`. -/
theorem xread_oracle {a : List Bool} {k : Nat} (i : Nat) (u : Bool) (bs : List Byte) (rest : List Level) (s : State)
    (h : s.env = ⟨.oracle (false :: false :: false :: (bs.flatMap levelsOf ++ rest)), a, k⟩) :
    (xread i bs.length u s).1 = ⟨.ok, bs⟩ ∧ (xread i bs.length u s).2.env = ⟨.oracle rest, a, k⟩ := by
  have h0 := start_env_oracle h
  obtain ⟨h1, h2⟩ := sendAcked_oracle (writeAddr s.cfg) h0
  obtain ⟨h3, h4⟩ := sendAcked_oracle (regPtr s.cfg i) h2
  have h5 := start_env_oracle h4
  obtain ⟨h6, h7⟩ := sendAcked_oracle (readAddr s.cfg) h5
  obtain ⟨h8, h9⟩ := readBytes_oracle u bs rest i _ h7
  rw [xread]
  simp only [h1, h3, h6, Bool.not_false, if_true]
  exact ⟨by rw [h8], stop_env_oracle h9⟩

/-- The data loop of XWRITE against an oracle that acknowledges `m` bytes and then none. -/
theorem writeBytes_oracle_nak {a : List Bool} {k : Nat} (i j : Nat) (ds : List Byte) (m : Nat) (rest : List Level) (s : State)
    (hm : m < ds.length) (h : s.env = ⟨.oracle (List.replicate m false ++ true :: rest), a, k⟩) :
    (writeBytes i j ds s).1 = ⟨.nakData, BitVec.ofNat 8 (j + m), 0⟩
      ∧ (writeBytes i j ds s).2.env = ⟨.oracle rest, a, k⟩ := by
  induction ds generalizing j m s with
  | nil => simp at hm
  | cons d ds ih =>
    cases m with
    | zero =>
      obtain ⟨h1, h2⟩ := sendAcked_oracle (b := true) d h
      rw [writeBytes]
      simp only [h1, Bool.not_true, Bool.false_eq_true, if_false]
      exact ⟨rfl, stop_env_oracle h2⟩
    | succ m =>
      rw [List.replicate_succ, List.cons_append] at h
      obtain ⟨h1, h2⟩ := sendAcked_oracle (b := false) d h
      obtain ⟨h3, h4⟩ := ih (j + 1) m ((sendAcked d s).2.setShadow (i + j) d) (by simpa using hm) h2
      rw [writeBytes]
      simp only [h1, Bool.not_false, if_true]
      rw [show j + (m + 1) = j + 1 + m by omega]
      exact ⟨h3, h4⟩

/-- The data loop of XWRITE against an oracle that acknowledges every byte. -/
theorem writeBytes_oracle_ok {a : List Bool} {k : Nat} (i j : Nat) (ds : List Byte) (rest : List Level) (s : State)
    (h : s.env = ⟨.oracle (List.replicate ds.length false ++ rest), a, k⟩) :
    (writeBytes i j ds s).1 = .ok ∧ (writeBytes i j ds s).2.env = ⟨.oracle rest, a, k⟩ := by
  induction ds generalizing j s with
  | nil =>
    rw [writeBytes]
    exact ⟨rfl, stop_env_oracle h⟩
  | cons d ds ih =>
    rw [List.length_cons, List.replicate_succ, List.cons_append] at h
    obtain ⟨h1, h2⟩ := sendAcked_oracle (b := false) d h
    rw [writeBytes]
    simp only [h1, Bool.not_false, if_true]
    exact ih (j + 1) ((sendAcked d s).2.setShadow (i + j) d) h2

end Sys2Proof.Machine
end

