-- ==== Sys2Proof/Laws/Wave.lean ====
section
/-! SUPPORT. Laws/Wave.lean: what an observer decodes from each piece of a waveform (spec/20_memory.md R75, spec/40_i2c_engine.md R124). -/
namespace Sys2Proof.Machine

theorem byteOf_levelsOf : ∀ v : Byte, byteOf (levelsOf v) = v := by decide

/-- A sent byte with its acknowledge clock is that byte, the master leaving the ninth level high. -/
theorem busItems_sentSlots (p : Slot) (v : Byte) (rest : List Slot) :
    busItems p [] (sentSlots p.sda v ++ rest) = .byte v true :: busItems ⟨true, false⟩ [] rest := by
  have h := byteOf_levelsOf v
  unfold levelsOf at h
  simp [sentSlots, byteSlots_eq, bitSlots, ackSlots, busItems]
  simpa using h

theorem busItems_start_idle (rest : List Slot) :
    busItems ⟨true, true⟩ [] (startSlots ⟨true, true⟩ ++ rest) = .start :: busItems ⟨false, true⟩ [] rest := rfl

/-- A repeated START after an acknowledge: no STOP before it (R66). -/
theorem busItems_start_repeated (rest : List Slot) :
    busItems ⟨true, false⟩ [] (startSlots ⟨true, false⟩ ++ rest) = .start :: busItems ⟨false, true⟩ [] rest := rfl

theorem busItems_stop (rest : List Slot) :
    busItems ⟨true, false⟩ [] (stopSlots ⟨true, false⟩ ++ rest) = .stop :: busItems ⟨true, true⟩ [] rest := rfl

theorem busItems_sent_flatMap (bs : List Byte) (rest : List Slot) :
    busItems ⟨true, false⟩ [] (bs.flatMap (sentSlots true) ++ rest)
      = bs.map (fun b => .byte b true) ++ busItems ⟨true, false⟩ [] rest := by
  induction bs with
  | nil => rfl
  | cons b bs ih =>
    rw [List.flatMap_cons, List.append_assoc, busItems_sentSlots ⟨true, false⟩, ih]
    rfl

/-- The waveform of a write burst from the idle bus: START, the bytes, STOP. -/
theorem busItems_burstSlots (b : Byte) (bs : List Byte) :
    busItems ⟨true, true⟩ [] (burstSlots ⟨true, true⟩ (b :: bs))
      = .start :: (b :: bs).map (fun b => .byte b true) ++ [.stop] := by
  unfold burstSlots
  simp only [List.append_assoc]
  rw [busItems_start_idle, busItems_sentSlots ⟨false, true⟩, busItems_sent_flatMap]
  rfl

/-- The bytes of a read burst: the master drives nothing during a byte, and its acknowledge in the ninth clock pulse of every byte
but the last (R66). -/
theorem busItems_readSlots (k : Nat) (rest : List Slot) :
    busItems ⟨true, false⟩ [] (readSlots k ++ rest)
      = (List.range k).map (fun j => .byte 0xFF (decide (j + 1 = k))) ++ busItems ⟨true, false⟩ [] rest := by
  have key : ∀ k, busItems ⟨true, false⟩ [] (readSlots k ++ rest)
      = ((List.range k).reverse.map fun j => .byte 0xFF (decide (j = 0))) ++ busItems ⟨true, false⟩ [] rest := by
    intro k
    induction k with
    | zero => rfl
    | succ k ih =>
      rw [List.range_succ, List.reverse_append, readSlots, List.append_assoc]
      simp only [List.reverse_cons, List.reverse_nil, List.nil_append, List.map_cons, List.cons_append]
      rw [← ih]
      rfl
  rw [key k]
  congr 1
  apply List.ext_getElem
  · simp
  · intro n h1 h2
    simp at h1 h2 ⊢
    omega

/-! ## START and STOP conditions, by slot number (R124) -/

theorem conditions_append (k : Nat) (p : Slot) (a b : List Slot) :
    conditions k p (a ++ b) = conditions k p a ++ conditions (k + a.length) (lastSlot p a) b := by
  induction a generalizing k p with
  | nil => simp [conditions]
  | cons q qs ih =>
    simp only [List.cons_append, conditions, List.length_cons]
    rw [ih, show k + 1 + qs.length = k + (qs.length + 1) by omega]
    split <;> simp

theorem conditions_sentSlots (k : Nat) (p : Slot) (v : Byte) : conditions k p (sentSlots p.sda v) = [] := by
  simp [sentSlots, byteSlots_eq, bitSlots, ackSlots, conditions]

@[simp] theorem lastSlot_sentSlots (p : Slot) (x : Level) (v : Byte) : lastSlot p (sentSlots x v) = ⟨true, false⟩ := rfl

theorem conditions_sent_flatMap (k : Nat) (bs : List Byte) :
    conditions k ⟨true, false⟩ (bs.flatMap (sentSlots true)) = []
      ∧ lastSlot ⟨true, false⟩ (bs.flatMap (sentSlots true)) = ⟨true, false⟩
      ∧ (bs.flatMap (sentSlots true)).length = 29 * bs.length := by
  induction bs generalizing k with
  | nil => exact ⟨rfl, rfl, rfl⟩
  | cons b bs ih =>
    rw [List.flatMap_cons, conditions_append, conditions_sentSlots k ⟨true, false⟩, lastSlot_append, lastSlot_sentSlots,
      List.length_append, sentSlots_length]
    obtain ⟨h1, h2, h3⟩ := ih (k + (sentSlots true b).length)
    exact ⟨by simpa using h1, h2, by rw [h3]; simp; omega⟩

/-- The slot count of a write burst of `n` bytes, address and pointer among them (R270). -/
theorem burstSlots_length (p : Slot) (b : Byte) (bs : List Byte) :
    (burstSlots p (b :: bs)).length = 6 + 29 * (bs.length + 1) := by
  have := (conditions_sent_flatMap 0 bs).2.2
  simp only [burstSlots, startSlots, stopSlots, List.length_append, this, sentSlots_length, List.length_cons,
    List.length_nil]
  omega

/-- The slot count of a read burst's bytes (R270). -/
theorem readSlots_length (k : Nat) : (readSlots k).length = 23 * k := by
  induction k with
  | zero => rfl
  | succ k ih =>
    rw [readSlots, List.length_append, ih]
    simp [readByteSlots, readBitSlots]
    omega

end Sys2Proof.Machine
end

