-- ==== Sys2Proof/Laws/Slave.lean ====
section
/-! SUPPORT. Laws/Slave.lean: the reference device (spec/20_memory.md R80) seen byte by byte: what the slots of each primitive make it do. -/
namespace Sys2Proof.Machine

/-- The device's reaction to a run of slots in each of which at most one line changes. -/
def edges (c : Config) : Slot → List Slot → Device → Device
  | _, [], d => d
  | p, q :: qs, d => edges c q qs (Device.edge c p q d)

/-- In no slot of a run do both lines change (R124). -/
def oneLine : Slot → List Slot → Bool
  | _, [] => true
  | p, q :: qs => (p.sda == q.sda || p.scl == q.scl) && oneLine q qs

theorem edges_append (c : Config) (p : Slot) (a b : List Slot) (d : Device) :
    edges c p (a ++ b) d = edges c (lastSlot p a) b (edges c p a d) := by
  induction a generalizing p d with
  | nil => rfl
  | cons q qs ih => exact ih q _

theorem observeAll_reference (c : Config) (p : Slot) (sl : List Slot) (d : Device) (a : List Bool) (k : Nat)
    (h : oneLine p sl = true) :
    observeAll c p sl ⟨.reference d, a, k⟩ = ⟨.reference (edges c p sl d), a, k⟩ := by
  induction sl generalizing p d with
  | nil => rfl
  | cons q qs ih =>
    simp only [oneLine, Bool.and_eq_true, Bool.or_eq_true, beq_iff_eq] at h
    have hne : ¬ (p.sda ≠ q.sda ∧ p.scl ≠ q.scl) := by
      rintro ⟨h1, h2⟩
      rcases h.1 with h3 | h3
      · exact h1 h3
      · exact h2 h3
    rw [observeAll, show Env.observe c p q ⟨.reference d, a, k⟩ = ⟨.reference (Device.edge c p q d), a, k⟩ by
      simp [Env.observe, hne]]
    exact ih q _ h.2

theorem drive_env_reference {s : State} {d : Device} {a : List Bool} {k : Nat} (sl : List Slot)
    (h : s.env = ⟨.reference d, a, k⟩) (h1 : oneLine s.lines sl = true) :
    (drive sl s).env = ⟨.reference (edges s.cfg s.lines sl d), a, k⟩ := by
  rw [drive_env, h, observeAll_reference _ _ _ _ _ _ h1]

/-! ## A byte sent by the master -/

/-- One bit of SENDBYTE, not the last, to a device that has taken `n` bits. -/
theorem edges_bit (c : Config) (y b : Level) (n : Nat) (hn : n < 7) (d : Device) (sh : Byte) :
    edges c ⟨y, false⟩ (bitSlots b) { d with link := .recv n, shift := sh }
      = { d with link := .recv (n + 1), shift := (sh <<< 1) ||| bit b } := by
  have h8 : ¬ (n + 1 = 8) := by omega
  have h7 : n < 8 := by omega
  simp [bitSlots, edges, Device.edge, Device.onRise, Device.onFall, h7, h8]

/-- The last bit of SENDBYTE: the device takes the byte when SCL falls. -/
theorem edges_bit_last (c : Config) (y b : Level) (d : Device) (sh : Byte) :
    edges c ⟨y, false⟩ (bitSlots b) { d with link := .recv 7, shift := sh }
      = Device.onByte c ((sh <<< 1) ||| bit b) { d with link := .recv 8, shift := (sh <<< 1) ||| bit b } := by
  simp [bitSlots, edges, Device.edge, Device.onRise, Device.onFall]

theorem shift_levels (v s : Byte) :
    ((((((((s <<< 1 ||| bit (v.getLsbD 7)) <<< 1 ||| bit (v.getLsbD 6)) <<< 1 ||| bit (v.getLsbD 5)) <<< 1
      ||| bit (v.getLsbD 4)) <<< 1 ||| bit (v.getLsbD 3)) <<< 1 ||| bit (v.getLsbD 2)) <<< 1
      ||| bit (v.getLsbD 1)) <<< 1 ||| bit (v.getLsbD 0)) = v := by
  have hb : ∀ (b : Bool) (i : Nat), (bit b : Byte).getLsbD i = (b && decide (i = 0)) := by
    intro b i
    cases b
    · simp [bit]
    · by_cases hi : i = 0 <;> simp [bit, BitVec.getLsbD_one, hi]
  apply BitVec.eq_of_getLsbD_eq
  intro i hi
  simp only [BitVec.getLsbD_or, BitVec.getLsbD_shiftLeft, hb]
  have : i = 0 ∨ i = 1 ∨ i = 2 ∨ i = 3 ∨ i = 4 ∨ i = 5 ∨ i = 6 ∨ i = 7 := by omega
  rcases this with rfl | rfl | rfl | rfl | rfl | rfl | rfl | rfl <;> simp

/-- The slots of SENDBYTE deliver the byte to a device that listens (R80 "on byte B"). -/
theorem edges_sendByte (c : Config) (p : Slot) (v : Byte) (d : Device) (h : d.link = .recv 0) :
    edges c p (⟨p.sda, false⟩ :: byteSlots v) d = Device.onByte c v { d with link := .recv 8, shift := v } := by
  have h0 : Device.edge c p ⟨p.sda, false⟩ d = d := by
    simp [Device.edge, Device.onFall, h]
  have hl : ∀ q b, lastSlot q (bitSlots b) = ⟨b, false⟩ := fun _ _ => rfl
  rw [edges, h0, byteSlots_eq]
  simp only [edges_append, lastSlot_append, hl]
  have hd : d = { d with link := .recv 0, shift := d.shift } := by cases d; simp_all
  conv_lhs => rw [hd]
  rw [edges_bit c _ _ 0 (by omega) d, edges_bit c _ _ 1 (by omega) d, edges_bit c _ _ 2 (by omega) d,
    edges_bit c _ _ 3 (by omega) d, edges_bit c _ _ 4 (by omega) d, edges_bit c _ _ 5 (by omega) d,
    edges_bit c _ _ 6 (by omega) d, edges_bit_last c _ _ d]
  simp only [shift_levels]

theorem oneLine_sendByte (p : Slot) (v : Byte) : oneLine p (⟨p.sda, false⟩ :: byteSlots v) = true := by
  simp [oneLine, byteSlots_eq, bitSlots]

/-- SENDBYTE to a device that listens. -/
theorem sendByte_reference {s : State} {d : Device} {a : List Bool} {k : Nat} (v : Byte)
    (h : s.env = ⟨.reference d, a, k⟩) (hl : d.link = .recv 0) :
    (sendByte v s).env = ⟨.reference (Device.onByte s.cfg v { d with link := .recv 8, shift := v }), a, k⟩ := by
  have h1 : oneLine s.lines (⟨s.i2c.lastSda, false⟩ :: byteSlots v) = true := oneLine_sendByte s.lines v
  rw [sendByte, drive_env_reference _ h h1]
  exact congrArg (fun x => (⟨.reference x, a, k⟩ : Env)) (edges_sendByte s.cfg s.lines v d hl)

/-! ## The acknowledge clock -/

/-- What an acknowledging device does when the ninth clock pulse ends. -/
def Device.afterAck (d : Device) : Device :=
  if d.sel = .read then d.onByteWanted else { d with link := .recv 0, shift := 0, drive := true }

/-- READACK of a device that acknowledges. -/
theorem readAck_reference {s : State} {d : Device} {a : List Bool} {k : Nat}
    (h : s.env = ⟨.reference d, a, k⟩) (hs : s.i2c.lastScl = false) (hl : d.link = .acking) (hd : d.drive = false) :
    (readAck s).1 = true ∧ (readAck s).2.env = ⟨.reference d.afterAck, a, k⟩ := by
  have h1 : oneLine s.lines [⟨s.i2c.lastSda, false⟩, ⟨true, false⟩, ⟨true, true⟩] = true := by
    simp [oneLine, State.lines]
  have he : edges s.cfg s.lines [⟨s.i2c.lastSda, false⟩, ⟨true, false⟩, ⟨true, true⟩] d = d := by
    simp [edges, Device.edge, State.lines, hs, Device.onRise, hl]
  have hv := drive_env_reference _ h h1
  rw [he] at hv
  have hrun := drive_runs [⟨s.i2c.lastSda, false⟩, ⟨true, false⟩, ⟨true, true⟩] s
  refine ⟨by rw [readAck_level, hv]; simp [Env.sda, hd], ?_⟩
  have h2 : (sampleSda (drive [⟨s.i2c.lastSda, false⟩, ⟨true, false⟩, ⟨true, true⟩] s)).2.env = ⟨.reference d, a, k⟩ := by
    simp only [sampleSda, hv, Env.sda]
  have hlines : (sampleSda (drive [⟨s.i2c.lastSda, false⟩, ⟨true, false⟩, ⟨true, true⟩] s)).2.lines = ⟨true, true⟩ := hrun.lines
  have := drive_env_reference [⟨true, false⟩] h2 (by rw [hlines]; rfl)
  rw [hlines] at this
  simpa [readAck, edges, Device.edge, Device.onFall, hl, Device.afterAck] using this

/-- READACK of a device that takes no part. -/
theorem readAck_reference_idle {s : State} {d : Device} {a : List Bool} {k : Nat}
    (h : s.env = ⟨.reference d, a, k⟩) (hs : s.i2c.lastScl = false) (hl : d.link = .idle) (hd : d.drive = true) :
    (readAck s).1 = false ∧ (readAck s).2.env = ⟨.reference d, a, k⟩ := by
  have h1 : oneLine s.lines [⟨s.i2c.lastSda, false⟩, ⟨true, false⟩, ⟨true, true⟩] = true := by
    simp [oneLine, State.lines]
  have he : edges s.cfg s.lines [⟨s.i2c.lastSda, false⟩, ⟨true, false⟩, ⟨true, true⟩] d = d := by
    simp [edges, Device.edge, State.lines, hs, Device.onRise, hl]
  have hv := drive_env_reference _ h h1
  rw [he] at hv
  have hrun := drive_runs [⟨s.i2c.lastSda, false⟩, ⟨true, false⟩, ⟨true, true⟩] s
  refine ⟨by rw [readAck_level, hv]; simp [Env.sda, hd], ?_⟩
  have h2 : (sampleSda (drive [⟨s.i2c.lastSda, false⟩, ⟨true, false⟩, ⟨true, true⟩] s)).2.env = ⟨.reference d, a, k⟩ := by
    simp only [sampleSda, hv, Env.sda]
  have hlines : (sampleSda (drive [⟨s.i2c.lastSda, false⟩, ⟨true, false⟩, ⟨true, true⟩] s)).2.lines = ⟨true, true⟩ := hrun.lines
  have := drive_env_reference [⟨true, false⟩] h2 (by rw [hlines]; rfl)
  rw [hlines] at this
  simpa [readAck, edges, Device.edge, Device.onFall, hl] using this

/-- A byte sent with its acknowledge clock: acknowledged by a device whose reaction to the byte is to acknowledge. -/
theorem sendAcked_reference {s : State} {d d' : Device} {a : List Bool} {k : Nat} (v : Byte)
    (h : s.env = ⟨.reference d, a, k⟩) (hl : d.link = .recv 0)
    (hb : Device.onByte s.cfg v { d with link := .recv 8, shift := v } = Device.acknowledge d') :
    (sendAcked v s).1 = true ∧ (sendAcked v s).2.env = ⟨.reference (Device.acknowledge d').afterAck, a, k⟩ := by
  refine readAck_reference (by rw [sendByte_reference v h hl, hb]) ?_ rfl rfl
  rw [(sendByte_runs v s).lastScl]

/-- A byte sent with its acknowledge clock: not acknowledged by a device whose reaction to the byte is to let go. -/
theorem sendAcked_reference_nak {s : State} {d d' : Device} {a : List Bool} {k : Nat} (v : Byte)
    (h : s.env = ⟨.reference d, a, k⟩) (hl : d.link = .recv 0)
    (hb : Device.onByte s.cfg v { d with link := .recv 8, shift := v } = Device.release d') :
    (sendAcked v s).1 = false ∧ (sendAcked v s).2.env = ⟨.reference (Device.release d'), a, k⟩ := by
  refine readAck_reference_idle (by rw [sendByte_reference v h hl, hb]) ?_ rfl rfl
  rw [(sendByte_runs v s).lastScl]

/-! ## START and STOP -/

/-- START on the idle bus. -/
theorem start_reference_idle {s : State} {d : Device} {a : List Bool} {k : Nat}
    (h : s.env = ⟨.reference d, a, k⟩) (hs : s.lines = ⟨true, true⟩) :
    (start s).env = ⟨.reference d.onStart, a, k⟩ := by
  rw [start_eq_drive, drive_env_reference _ h (by rw [hs]; rfl), hs]
  rfl

/-- A repeated START after an acknowledge, to a device that listens and is not deaf. -/
theorem start_reference_repeated {s : State} {d : Device} {a : List Bool} {k : Nat}
    (h : s.env = ⟨.reference d, a, k⟩) (hs : s.lines = ⟨true, false⟩) (hl : d.link = .recv 0) (hd : d.deaf = false) :
    (start s).env = ⟨.reference d.onStart, a, k⟩ := by
  rw [start_eq_drive, drive_env_reference _ h (by rw [hs]; rfl), hs]
  simp [edges, startSlots, Device.edge, Device.onRise, hl, Device.onStart, hd]

/-- STOP after an acknowledge clock: the device is out of the transaction; only its bit shift register may have taken the level of the
last rise. -/
theorem stop_reference {s : State} {d : Device} {a : List Bool} {k : Nat}
    (h : s.env = ⟨.reference d, a, k⟩) (hs : s.lines = ⟨true, false⟩) :
    ∃ sh, (stop s).env = ⟨.reference { d.onStop with shift := sh }, a, k⟩ := by
  have e : (stop s).env = ⟨.reference (edges s.cfg s.lines (stopSlots s.lines) d), a, k⟩ := by
    rw [stop_eq_drive, drive_env_reference _ h (by rw [hs]; rfl)]
  rw [e, hs]
  cases hl : d.link with
  | recv n =>
    by_cases hn : n < 8
    · exact ⟨d.shift <<< 1 ||| bit false, by
        simp [edges, stopSlots, Device.edge, Device.onRise, hl, hn, Device.onStop, Device.release]⟩
    · exact ⟨d.shift, by simp [edges, stopSlots, Device.edge, Device.onRise, hl, hn, Device.onStop, Device.release]⟩
  | idle => exact ⟨d.shift, by simp [edges, stopSlots, Device.edge, Device.onRise, hl, Device.onStop, Device.release]⟩
  | acking => exact ⟨d.shift, by simp [edges, stopSlots, Device.edge, Device.onRise, hl, Device.onStop, Device.release]⟩
  | send n => exact ⟨d.shift, by simp [edges, stopSlots, Device.edge, Device.onRise, hl, Device.onStop, Device.release]⟩
  | awaitAck => exact ⟨d.shift, by simp [edges, stopSlots, Device.edge, Device.onRise, hl, Device.onStop, Device.release]⟩
  | gotAck b => exact ⟨d.shift, by simp [edges, stopSlots, Device.edge, Device.onRise, hl, Device.onStop, Device.release]⟩

/-! ## A byte read by the master -/

/-- The bit loop of READBYTE against a device that is sending, `m` bits to go: it gives the device's bits, and the device ends on its
last bit with SCL high. -/
theorem readBits_reference {a : List Bool} {k : Nat} (m : Nat) (v : Byte) (s : State) (d : Device)
    (h : s.env = ⟨.reference d, a, k⟩) (hs : s.lines.sda = true) (hm : m ≤ 7)
    (hl : (s.lines.scl = false ∧ d.link = .send (7 - m) ∧ d.drive = d.shift.getLsbD m)
      ∨ (s.lines.scl = true ∧ m < 7 ∧ d.link = .send (6 - m))) :
    (readBits ((List.range (m + 1)).reverse) v s).1
        = ((List.range (m + 1)).reverse).foldl (fun w n => setBit w n (d.shift.getLsbD n)) v
      ∧ ∃ x, (readBits ((List.range (m + 1)).reverse) v s).2.env
          = ⟨.reference { d with link := .send 7, drive := x }, a, k⟩ := by
  induction m generalizing v s d with
  | zero =>
    have hrun := drive_runs readBitSlots s
    have h1 : oneLine s.lines readBitSlots = true := by simp [oneLine, readBitSlots, hs]
    have hd : edges s.cfg s.lines readBitSlots d = { d with link := .send 7, drive := d.shift.getLsbD 0 } := by
      rcases hl with ⟨h2, h3, h4⟩ | ⟨h2, h3, h4⟩
      · simp [edges, readBitSlots, Device.edge, Device.onRise, h2, h3]
        cases d; simp_all
      · simp [edges, readBitSlots, Device.edge, Device.onFall, Device.onRise, h2, h4]
    have hv := drive_env_reference readBitSlots h h1
    rw [hd] at hv
    have hlev : (sampleSda (drive readBitSlots s)).1 = d.shift.getLsbD 0 := by
      rw [sampleSda_level, hv, hrun.lastSda]; rfl
    have hr : readBits ((List.range 1).reverse) v s
        = (setBit v 0 (sampleSda (drive readBitSlots s)).1, (sampleSda (drive readBitSlots s)).2) := rfl
    rw [hr, hlev]
    exact ⟨rfl, d.shift.getLsbD 0, by simp only [sampleSda, hv, Env.sda]⟩
  | succ m ih =>
    have hrun := drive_runs readBitSlots s
    have h1 : oneLine s.lines readBitSlots = true := by simp [oneLine, readBitSlots, hs]
    have hd : edges s.cfg s.lines readBitSlots d
        = { d with link := .send (6 - m), drive := d.shift.getLsbD (m + 1) } := by
      rcases hl with ⟨h2, h3, h4⟩ | ⟨h2, h3, h4⟩
      · have e : 7 - (m + 1) = 6 - m := by omega
        rw [e] at h3
        simp [edges, readBitSlots, Device.edge, Device.onRise, h2, h3]
        cases d; simp_all
      · have e : 6 - (m + 1) = 5 - m := by omega
        rw [e] at h4
        have e2 : 5 - m + 1 = 6 - m := by omega
        have e3 : 6 - (5 - m) = m + 1 := by omega
        have e4 : 5 - m < 7 := by omega
        simp [edges, readBitSlots, Device.edge, Device.onFall, Device.onRise, h2, h4, e2, e3, e4]
    have hv := drive_env_reference readBitSlots h h1
    rw [hd] at hv
    have hlev : (sampleSda (drive readBitSlots s)).1 = d.shift.getLsbD (m + 1) := by
      rw [sampleSda_level, hv, hrun.lastSda]; rfl
    have hsv : (sampleSda (drive readBitSlots s)).2.env
        = ⟨.reference { d with link := .send (6 - m), drive := d.shift.getLsbD (m + 1) }, a, k⟩ := by
      simp only [sampleSda, hv, Env.sda]
    have hsl : (sampleSda (drive readBitSlots s)).2.lines = ⟨true, true⟩ := hrun.lines
    have hrev : (List.range (m + 1 + 1)).reverse = (m + 1) :: (List.range (m + 1)).reverse := by
      rw [List.range_succ]; simp
    rw [hrev, show readBits ((m + 1) :: (List.range (m + 1)).reverse) v s
      = readBits ((List.range (m + 1)).reverse) (setBit v (m + 1) (sampleSda (drive readBitSlots s)).1)
        (sampleSda (drive readBitSlots s)).2 from rfl, hlev]
    obtain ⟨hb, x, hx⟩ := ih (setBit v (m + 1) (d.shift.getLsbD (m + 1))) _ _ hsv (by rw [hsl]) (by omega)
      (Or.inr ⟨by rw [hsl], by omega, rfl⟩)
    exact ⟨hb, x, hx⟩

theorem foldl_setBit (v : Byte) :
    ([7, 6, 5, 4, 3, 2, 1, 0]).foldl (fun w n => setBit w n (v.getLsbD n)) (0 : Byte) = v := by
  revert v; decide

/-- READBYTE from a device that is sending a byte: the byte, and the device then waits for the master's acknowledge. -/
theorem readByte_reference {s : State} {d : Device} {a : List Bool} {k : Nat}
    (h : s.env = ⟨.reference d, a, k⟩) (hs : s.lines = ⟨true, false⟩) (hl : d.link = .send 0)
    (hd : d.drive = d.shift.getLsbD 7) :
    (readByte s).1 = d.shift
      ∧ (readByte s).2.env = ⟨.reference { d with link := .awaitAck, drive := true }, a, k⟩ := by
  have hsda : s.i2c.lastSda = true := congrArg Slot.sda hs
  have h0 : (drive [⟨s.i2c.lastSda, false⟩] s).env = ⟨.reference d, a, k⟩ := by
    rw [drive_env_reference _ h (by rw [hs, hsda]; rfl), hs, hsda]
    rfl
  have hlin : (drive [⟨s.i2c.lastSda, false⟩] s).lines = ⟨true, false⟩ := by
    rw [(drive_runs _ s).lines, hsda]; rfl
  obtain ⟨hb, x, hx⟩ := readBits_reference 7 0 (drive [⟨s.i2c.lastSda, false⟩] s) d h0 (by rw [hlin]) (by omega)
    (Or.inl ⟨by rw [hlin], hl, hd⟩)
  have hrange : (List.range (7 + 1)).reverse = [7, 6, 5, 4, 3, 2, 1, 0] := rfl
  rw [hrange] at hb hx
  refine ⟨by rw [readByte]; simp only; rw [hb, foldl_setBit], ?_⟩
  have hlines : (readBits [7, 6, 5, 4, 3, 2, 1, 0] 0 (drive [⟨s.i2c.lastSda, false⟩] s)).2.lines = ⟨true, true⟩ :=
    (readBits_runs [7, 6, 5, 4, 3, 2, 1, 0] 0 _).lines
  rw [readByte]
  simp only
  rw [drive_env_reference [⟨true, false⟩] hx (by rw [hlines]; rfl), hlines]
  simp [edges, Device.edge, Device.onFall]

/-- SENDACK to a device that waits for it: it sends the next byte after an acknowledge, and lets go without one. -/
theorem sendAck_reference {s : State} {d : Device} {a : List Bool} {k : Nat} (low : Bool)
    (h : s.env = ⟨.reference d, a, k⟩) (hs : s.lines = ⟨true, false⟩) (hl : d.link = .awaitAck) :
    (sendAck low s).env
      = ⟨.reference (if low then Device.onByteWanted { d with link := .gotAck true } else Device.release { d with link := .gotAck false }),
          a, k⟩ := by
  have hsda : s.i2c.lastSda = true := congrArg Slot.sda hs
  rw [sendAck, drive_env_reference _ h (by rw [hs, hsda]; cases low <;> rfl), hs, hsda]
  cases low <;> simp [edges, Device.edge, Device.onRise, Device.onFall, hl, Device.onByteWanted, Device.release]

end Sys2Proof.Machine
end

