-- ==== Sys2Proof/Laws/DeviceBus.lean ====
section
/-! SUPPORT. Laws/DeviceBus.lean: XWRITE and XREAD against the reference device without fault injection (spec/20_memory.md R65, R66, R80):
every byte is acknowledged and lands in, or comes from, the register meant. -/
namespace Sys2Proof.Machine

/-- Between transactions, without fault injection. -/
structure Device.Quiet (d : Device) : Prop where
  inTx  : d.inTx = false
  nakAt : d.nakAt = none

/-- The device takes data bytes for register `i` and up. -/
structure Device.Taking (d : Device) (i : Nat) : Prop where
  link  : d.link = .recv 0
  sel   : d.sel = .write
  first : d.first = false
  ptr   : d.ptr = i

/-- The register file after the device stored a burst. -/
def Device.storeBurst (d : Device) : Nat → List Byte → Memory
  | _, [] => d.reg
  | i, b :: bs => Device.storeBurst { d with reg := d.storeReg i b } (i + 1) bs

/-- `storeBurst` looks at the register file and the pins of a device, at nothing else. -/
theorem Device.storeBurst_congr (d e : Device) (i : Nat) (bs : List Byte) (hr : d.reg = e.reg) (hp : d.pins = e.pins) :
    d.storeBurst i bs = e.storeBurst i bs := by
  induction bs generalizing d e i with
  | nil => exact hr
  | cons b bs ih =>
    refine ih _ _ _ ?_ hp
    simp [Device.storeReg, hr, hp]

/-- With the plain register file the device stores what the shadow takes (R65, R80). -/
theorem Device.storeBurst_plain (d : Device) (i : Nat) (bs : List Byte) (hp : d.pins = none) :
    d.storeBurst i bs = burstPrefix d.reg i bs bs.length := by
  induction bs generalizing d i with
  | nil => rfl
  | cons b bs ih =>
    rw [Device.storeBurst, ih { d with reg := d.storeReg i b } (i + 1) hp, List.length_cons, burstPrefix_cons]
    simp [Device.storeReg, hp]

/-- The pointer byte of register `i` selects register `i` (R61, R15 (d)). -/
theorem ptrOf_regPtr {c : Config} {i : Nat} (hc : c.regBase.toNat ≤ 234) (hi : i < 22) : ptrOf c (regPtr c i) = i := by
  have h1 : (regPtr c i).toNat = c.regBase.toNat + i := by
    rw [regPtr, BitVec.toNat_add, BitVec.toNat_ofNat]
    omega
  unfold ptrOf
  rw [h1]
  omega

theorem writeAddr_addr (c : Config) : (writeAddr c).extractLsb' 1 7 = c.devAddr7 := by
  apply BitVec.eq_of_getLsbD_eq
  intro i hi
  rw [BitVec.getLsbD_extractLsb', show (writeAddr c).getLsbD (1 + i) = (c.devAddr7 ++ 0#1 : BitVec (7 + 1)).getLsbD (1 + i) from rfl,
    BitVec.getLsbD_append]
  simp [hi]

theorem writeAddr_bit (c : Config) : (writeAddr c).getLsbD 0 = false := by
  rw [show (writeAddr c).getLsbD 0 = (c.devAddr7 ++ 0#1 : BitVec (7 + 1)).getLsbD 0 from rfl, BitVec.getLsbD_append]
  simp

theorem readAddr_addr (c : Config) : (readAddr c).extractLsb' 1 7 = c.devAddr7 := by
  rw [← writeAddr_addr c]
  apply BitVec.eq_of_getLsbD_eq
  intro i hi
  simp [readAddr, hi, BitVec.getLsbD_one]

theorem readAddr_bit (c : Config) : (readAddr c).getLsbD 0 = true := by
  simp [readAddr]

/-- After the address byte of a write, acknowledged. -/
theorem sendAcked_writeAddr {s : State} {d : Device} {a : List Bool} {k : Nat}
    (h : s.env = ⟨.reference d, a, k⟩) (hl : d.link = .recv 0) (hs : d.sel = .addr) (hn : d.nakAt ≠ some d.count) :
    (sendAcked (writeAddr s.cfg) s).1 = true
      ∧ (sendAcked (writeAddr s.cfg) s).2.env
        = ⟨.reference { d with link := .recv 0, shift := 0, drive := true, sel := .write, first := true, count := d.count + 1 }, a, k⟩ := by
  have hb : Device.onByte s.cfg (writeAddr s.cfg) { d with link := .recv 8, shift := writeAddr s.cfg }
      = Device.acknowledge { d with link := .recv 8, shift := writeAddr s.cfg, count := d.count + 1, sel := .write, first := true } := by
    have e1 := writeAddr_addr s.cfg
    have e2 := writeAddr_bit s.cfg
    unfold Device.onByte
    rw [if_neg hn, hs, e1, e2]
    simp
  obtain ⟨h1, h2⟩ := sendAcked_reference (writeAddr s.cfg) h hl hb
  exact ⟨h1, by rw [h2]; simp [Device.acknowledge, Device.afterAck]⟩

/-- After the register-pointer byte, acknowledged: the device takes data for that register. -/
theorem sendAcked_regPtr {s : State} {d : Device} {a : List Bool} {k : Nat} (i : Nat)
    (h : s.env = ⟨.reference d, a, k⟩) (hl : d.link = .recv 0) (hs : d.sel = .write) (hf : d.first = true)
    (hn : d.nakAt ≠ some d.count) (hc : s.cfg.regBase.toNat ≤ 234) (hi : i < 22) :
    (sendAcked (regPtr s.cfg i) s).1 = true
      ∧ (sendAcked (regPtr s.cfg i) s).2.env
        = ⟨.reference { d with link := .recv 0, shift := 0, drive := true, ptr := i, first := false, count := d.count + 1 }, a, k⟩ := by
  have hb : Device.onByte s.cfg (regPtr s.cfg i) { d with link := .recv 8, shift := regPtr s.cfg i }
      = Device.acknowledge { d with link := .recv 8, shift := regPtr s.cfg i, count := d.count + 1, ptr := i, first := false } := by
    have e1 := ptrOf_regPtr hc hi
    unfold Device.onByte
    rw [if_neg hn, hs, hf, e1]
    simp
  obtain ⟨h1, h2⟩ := sendAcked_reference (regPtr s.cfg i) h hl hb
  exact ⟨h1, by rw [h2]; simp [Device.acknowledge, Device.afterAck, hs]⟩

/-- After a data byte, acknowledged: it is stored and the pointer advances (R74). -/
theorem sendAcked_data {s : State} {d : Device} {a : List Bool} {k i : Nat} (v : Byte)
    (h : s.env = ⟨.reference d, a, k⟩) (ht : d.Taking i) (hn : d.nakAt ≠ some d.count) :
    (sendAcked v s).1 = true
      ∧ (sendAcked v s).2.env
        = ⟨.reference { d with link := .recv 0, shift := 0, drive := true, reg := d.storeReg i v, ptr := (i + 1) % 22, count := d.count + 1 }, a, k⟩ := by
  have hb : Device.onByte s.cfg v { d with link := .recv 8, shift := v }
      = Device.acknowledge { d with link := .recv 8, shift := v, count := d.count + 1, reg := d.storeReg i v, ptr := (i + 1) % 22 } := by
    have hp := ht.ptr
    unfold Device.onByte
    rw [if_neg hn, ht.sel, ht.first, hp]
    simp [Device.storeReg]
  obtain ⟨h1, h2⟩ := sendAcked_reference v h ht.link hb
  exact ⟨h1, by rw [h2]; simp [Device.acknowledge, Device.afterAck, ht.sel]⟩

/-- The byte numbered `nak_at` is not acknowledged and not stored, and ends the device's part in the transaction (R81). -/
theorem sendAcked_nakAt {s : State} {d : Device} {a : List Bool} {k : Nat} (v : Byte)
    (h : s.env = ⟨.reference d, a, k⟩) (hl : d.link = .recv 0) (hn : d.nakAt = some d.count) :
    (sendAcked v s).1 = false
      ∧ (sendAcked v s).2.env
        = ⟨.reference { d with link := .idle, shift := v, drive := true, sel := .none, deaf := true, count := d.count + 1 }, a, k⟩ := by
  have hb : Device.onByte s.cfg v { d with link := .recv 8, shift := v }
      = Device.release { d with link := .recv 8, shift := v, sel := .none, deaf := true, count := d.count + 1 } := by
    unfold Device.onByte
    rw [if_pos hn]
  obtain ⟨h1, h2⟩ := sendAcked_reference_nak v h hl hb
  exact ⟨h1, by rw [h2]; rfl⟩

/-- What is left of the device after a transaction: between transactions again, with the register file `m`. -/
structure Device.Left (d e : Device) (m : Memory) : Prop where
  reg   : e.reg = m
  quiet : e.Quiet
  pins  : e.pins = d.pins

/-- The data loop of XWRITE against the device. -/
theorem writeBytes_reference (i j : Nat) (ds : List Byte) {s : State} {d : Device} {a : List Bool} {k : Nat}
    (h : s.env = ⟨.reference d, a, k⟩) (hs : s.lines = ⟨true, false⟩) (ht : d.Taking (i + j)) (hn : d.nakAt = none)
    (hlen : i + j + ds.length ≤ 22) :
    (writeBytes i j ds s).1 = .ok
      ∧ ∃ e, (writeBytes i j ds s).2.env = ⟨.reference e, a, k⟩ ∧ d.Left e (d.storeBurst (i + j) ds) := by
  induction ds generalizing j s d with
  | nil =>
    obtain ⟨sh, hstop⟩ := stop_reference h hs
    exact ⟨rfl, _, hstop, rfl, ⟨rfl, hn⟩, rfl⟩
  | cons v ds ih =>
    obtain ⟨h1, h2⟩ := sendAcked_data v h ht (by rw [hn]; simp)
    have hlen' : i + (j + 1) + ds.length ≤ 22 := by simp at hlen; omega
    rw [writeBytes]
    simp only [h1, if_true]
    have hlines : ((sendAcked v s).2.setShadow (i + j) v).lines = ⟨true, false⟩ := (sendAcked_runs v s).lines
    cases ds with
    | nil =>
      obtain ⟨sh, hstop⟩ := stop_reference (s := (sendAcked v s).2.setShadow (i + j) v) h2 hlines
      exact ⟨rfl, _, hstop, rfl, ⟨rfl, hn⟩, rfl⟩
    | cons w ds =>
      have hmod : (i + j + 1) % 22 = i + (j + 1) := by
        simp only [List.length_cons] at hlen'
        rw [Nat.mod_eq_of_lt] <;> omega
      obtain ⟨hr, e, he, hleft⟩ := ih (j + 1) (s := (sendAcked v s).2.setShadow (i + j) v) h2 hlines
        ⟨rfl, ht.sel, ht.first, hmod⟩ hn hlen'
      refine ⟨hr, e, he, ?_, hleft.quiet, hleft.pins⟩
      rw [hleft.reg]
      exact Device.storeBurst_congr _ _ _ _ rfl rfl

/-- XWRITE to the device (R65, R80): acknowledged whole, every byte stored. -/
theorem xwrite_reference (i : Nat) (ds : List Byte) {s : State} {d : Device} {a : List Bool} {k : Nat}
    (h : s.env = ⟨.reference d, a, k⟩) (hs : s.BusIdle) (hq : d.Quiet) (hc : s.cfg.regBase.toNat ≤ 234)
    (hi : i < 22) (hlen : i + ds.length ≤ 22) :
    (xwrite i ds s).1 = .ok
      ∧ ∃ e, (xwrite i ds s).2.env = ⟨.reference e, a, k⟩ ∧ d.Left e (d.storeBurst i ds) := by
  have h0 := start_reference_idle h hs
  have hstart : d.onStart = { d with sel := .addr, link := .recv 0, shift := 0, drive := true, count := 0, inTx := true, deaf := false } := by
    simp [Device.onStart, hq.inTx]
  rw [hstart] at h0
  have hcfg0 : (start s).cfg = s.cfg := (start_runs s).cfg
  obtain ⟨h1, h2⟩ := sendAcked_writeAddr h0 rfl rfl (by rw [hq.nakAt]; simp)
  have hcfg1 : (sendAcked (writeAddr s.cfg) (start s)).2.cfg = s.cfg := by
    rw [(sendAcked_runs _ _).cfg, hcfg0]
  rw [hcfg0] at h1 h2
  obtain ⟨h3, h4⟩ := sendAcked_regPtr i h2 rfl rfl rfl (by rw [hq.nakAt]; simp) (by rw [hcfg1]; exact hc) hi
  rw [hcfg1] at h3 h4
  have hlines := (sendAcked_runs (regPtr s.cfg i) (sendAcked (writeAddr s.cfg) (start s)).2).lines
  obtain ⟨h5, e, h6, hleft⟩ := writeBytes_reference i 0 ds h4 hlines ⟨rfl, rfl, rfl, rfl⟩ hq.nakAt (by omega)
  rw [xwrite]
  simp only [h1, if_true, h3]
  refine ⟨h5, e, h6, ?_, hleft.quiet, hleft.pins⟩
  rw [hleft.reg]
  exact Device.storeBurst_congr _ _ _ _ rfl rfl

/-- The device sends register `i` and has advanced its pointer. -/
structure Device.Sending (d : Device) (i : Nat) : Prop where
  link  : d.link = .send 0
  shift : d.shift = d.readReg i
  drive : d.drive = d.shift.getLsbD 7
  nakAt : d.nakAt = none
  ptr   : d.ptr = (i + 1) % 22

/-- The byte loop of XREAD against the device. -/
theorem readBytes_reference (u : Bool) (n i : Nat) {s : State} {d : Device} {a : List Bool} {k : Nat}
    (h : s.env = ⟨.reference d, a, k⟩) (hs : s.lines = ⟨true, false⟩) (hd : d.Sending i) (hlen : i + (n + 1) ≤ 22) :
    (readBytes u (n + 1) i s).1 = (List.range (n + 1)).map (fun j => d.readReg (i + j))
      ∧ ∃ e, (readBytes u (n + 1) i s).2.env = ⟨.reference e, a, k⟩ ∧ e.reg = d.reg ∧ e.pins = d.pins ∧ e.nakAt = none := by
  induction n generalizing i s d with
  | zero =>
    obtain ⟨h1, h2⟩ := readByte_reference h hs hd.link hd.drive
    have hl2 := (readByte_runs s).lines
    have h3 := sendAck_reference false h2 hl2 rfl
    rw [readBytes]
    refine ⟨by simp [readBytes, h1, hd.shift], ?_⟩
    cases u <;> exact ⟨_, h3, rfl, rfl, hd.nakAt⟩
  | succ n ih =>
    obtain ⟨h1, h2⟩ := readByte_reference h hs hd.link hd.drive
    have hl2 := (readByte_runs s).lines
    have h3 := sendAck_reference true h2 hl2 rfl
    have hl3 := (sendAck_runs true (readByte s).2).lines
    have hmod : (i + 1) % 22 = i + 1 := by rw [Nat.mod_eq_of_lt]; omega
    have hptr := hd.ptr
    rw [hmod] at hptr
    simp only [if_true] at h3
    have key : ∀ t : State, t.env = ⟨.reference (Device.onByteWanted { d with link := .gotAck true, drive := true }), a, k⟩ →
        t.lines = ⟨true, false⟩ →
        (readBytes u (n + 1) (i + 1) t).1 = (List.range (n + 1)).map (fun j => d.readReg (i + 1 + j))
        ∧ ∃ e, (readBytes u (n + 1) (i + 1) t).2.env = ⟨.reference e, a, k⟩ ∧ e.reg = d.reg ∧ e.pins = d.pins ∧ e.nakAt = none := by
      intro t ht hlt
      have hread : ∀ (x : Device), x.reg = d.reg → x.pins = d.pins → ∀ r, x.readReg r = d.readReg r := by
        intro x hx hp r
        simp [Device.readReg, hx, hp]
      obtain ⟨hb, e, he, h4, h5, h6⟩ := ih (i + 1) ht hlt
        ⟨rfl, by rw [← hptr]; simp [Device.onByteWanted, Device.readReg], rfl, hd.nakAt, by simp [Device.onByteWanted, hptr]⟩ (by omega)
      refine ⟨?_, e, he, h4, h5, h6⟩
      rw [hb]
      exact List.map_congr_left fun j _ => hread _ rfl rfl _
    have hne : decide (n + 1 ≠ 0) = true := by simp
    have hrange : (List.range (n + 1 + 1)).map (fun j => d.readReg (i + j))
        = d.readReg i :: (List.range (n + 1)).map (fun j => d.readReg (i + 1 + j)) := by
      rw [List.range_succ_eq_map]
      simp [Function.comp_def, Nat.add_comm, Nat.add_left_comm]
    rw [readBytes, hrange]
    cases u with
    | false =>
      obtain ⟨hb, e, he⟩ := key (sendAck true (readByte s).2) h3 hl3
      exact ⟨by simp only [hne, Bool.false_eq_true, if_false]; rw [hb, h1, hd.shift],
        e, by simpa only [hne, Bool.false_eq_true, if_false] using he⟩
    | true =>
      obtain ⟨hb, e, he⟩ := key ((sendAck true (readByte s).2).setShadow i (readByte s).1) h3 hl3
      exact ⟨by simp only [hne, if_true]; rw [hb, h1, hd.shift], e, by simpa only [hne, if_true] using he⟩

/-- After the read address, acknowledged: the device sends the register its pointer selects (R74). -/
theorem sendAcked_readAddr {s : State} {d : Device} {a : List Bool} {k i : Nat}
    (h : s.env = ⟨.reference d, a, k⟩) (hl : d.link = .recv 0) (hs : d.sel = .addr) (hn : d.nakAt = none) (hp : d.ptr = i) :
    (sendAcked (readAddr s.cfg) s).1 = true
      ∧ ∃ e, (sendAcked (readAddr s.cfg) s).2.env = ⟨.reference e, a, k⟩ ∧ e.Sending i ∧ e.reg = d.reg ∧ e.pins = d.pins := by
  have hb : Device.onByte s.cfg (readAddr s.cfg) { d with link := .recv 8, shift := readAddr s.cfg }
      = Device.acknowledge { d with link := .recv 8, shift := readAddr s.cfg, count := d.count + 1, sel := .read, first := true } := by
    have e1 := readAddr_addr s.cfg
    have e2 := readAddr_bit s.cfg
    unfold Device.onByte
    rw [hs, hn, e1, e2]
    simp
  obtain ⟨h1, h2⟩ := sendAcked_reference (readAddr s.cfg) h hl hb
  refine ⟨h1, _, h2, ?_, rfl, rfl⟩
  exact ⟨rfl, by rw [← hp]; rfl, rfl, hn, by rw [← hp]; rfl⟩

/-- XREAD from the device (R66, R80): acknowledged whole, the bytes are the registers meant. -/
theorem xread_reference (i n : Nat) (u : Bool) {s : State} {d : Device} {a : List Bool} {k : Nat}
    (h : s.env = ⟨.reference d, a, k⟩) (hs : s.BusIdle) (hq : d.Quiet) (hc : s.cfg.regBase.toNat ≤ 234)
    (hlen : i + (n + 1) ≤ 22) :
    (xread i (n + 1) u s).1 = ⟨.ok, (List.range (n + 1)).map (fun j => d.readReg (i + j))⟩
      ∧ ∃ e, (xread i (n + 1) u s).2.env = ⟨.reference e, a, k⟩ ∧ d.Left e d.reg := by
  have h0 := start_reference_idle h hs
  have hstart : d.onStart = { d with sel := .addr, link := .recv 0, shift := 0, drive := true, count := 0, inTx := true, deaf := false } := by
    simp [Device.onStart, hq.inTx]
  rw [hstart] at h0
  have hcfg0 : (start s).cfg = s.cfg := (start_runs s).cfg
  obtain ⟨h1, h2⟩ := sendAcked_writeAddr h0 rfl rfl (by rw [hq.nakAt]; simp)
  have hcfg1 : (sendAcked (writeAddr s.cfg) (start s)).2.cfg = s.cfg := by
    rw [(sendAcked_runs _ _).cfg, hcfg0]
  rw [hcfg0] at h1 h2
  obtain ⟨h3, h4⟩ := sendAcked_regPtr i h2 rfl rfl rfl (by rw [hq.nakAt]; simp) (by rw [hcfg1]; exact hc) (by omega)
  rw [hcfg1] at h3 h4
  have hrun4 := sendAcked_runs (regPtr s.cfg i) (sendAcked (writeAddr s.cfg) (start s)).2
  have h5 := start_reference_repeated h4 hrun4.lines rfl rfl
  have hcfg5 : (start (sendAcked (regPtr s.cfg i) (sendAcked (writeAddr s.cfg) (start s)).2).2).cfg = s.cfg := by
    rw [(start_runs _).cfg, hrun4.cfg, hcfg1]
  obtain ⟨h6, e, h7, hsend, hreg, hpins⟩ := sendAcked_readAddr (i := i) h5 rfl rfl hq.nakAt rfl
  rw [hcfg5] at h6 h7
  have hl7 := (sendAcked_runs (readAddr s.cfg) (start (sendAcked (regPtr s.cfg i) (sendAcked (writeAddr s.cfg) (start s)).2).2)).lines
  obtain ⟨hb, f, h8, hfr, hfp, hfn⟩ := readBytes_reference u n i h7 hl7 hsend hlen
  have hl8 := (readBytes_spec u (n + 1) i _ hl7).2.lines
  obtain ⟨sh, h9⟩ := stop_reference h8 hl8
  rw [xread]
  simp only [h1, if_true, h3, h6]
  refine ⟨?_, _, h9, by rw [← show f.reg = d.reg from hfr.trans hreg]; rfl, ⟨rfl, hfn⟩, by rw [← show f.pins = d.pins from hfp.trans hpins]; rfl⟩
  rw [hb]
  have : ∀ r, e.readReg r = d.readReg r := by
    intro r
    have h1 : e.reg = d.reg := hreg
    have h2 : e.pins = d.pins := hpins
    simp [Device.readReg, h1, h2]
  simp [this]

end Sys2Proof.Machine
end

