-- ==== Sys2Proof/Laws/Driver.lean ====
section
/-! SUPPORT. Laws/Driver.lean: what the driver operations that others invoke in place do (spec/41_expander_driver.md R134, R136, R137). -/
namespace Sys2Proof.Machine

/-! ## Bits, bytes and pairs -/

theorem pack16_bytes (v : Half) : pack16 (hiByte v) (loByte v) = v := by
  apply BitVec.eq_of_getLsbD_eq
  intro i hi
  rw [show (pack16 (hiByte v) (loByte v)).getLsbD i = (hiByte v ++ loByte v : BitVec (8 + 8)).getLsbD i from rfl,
    BitVec.getLsbD_append]
  by_cases h : i < 8
  · simp [h, loByte]
  · simp [h, hiByte, show i - 8 < 8 by omega, show 8 + (i - 8) = i by omega]

theorem loByte_pack16 (hi lo : Byte) : loByte (pack16 hi lo) = lo := by
  apply BitVec.eq_of_getLsbD_eq
  intro i h
  rw [loByte, BitVec.getLsbD_extractLsb',
    show (pack16 hi lo).getLsbD (0 + i) = (hi ++ lo : BitVec (8 + 8)).getLsbD (0 + i) from rfl, BitVec.getLsbD_append]
  simp [h]

theorem hiByte_pack16 (hi lo : Byte) : hiByte (pack16 hi lo) = hi := by
  apply BitVec.eq_of_getLsbD_eq
  intro i h
  rw [hiByte, BitVec.getLsbD_extractLsb',
    show (pack16 hi lo).getLsbD (8 + i) = (hi ++ lo : BitVec (8 + 8)).getLsbD (8 + i) from rfl, BitVec.getLsbD_append]
  simp [h]

/-- `v[i] <- b`: bit `i` is `b` and every other bit is as before. -/
theorem getLsbD_setBit {n : Nat} (v : BitVec n) (i k : Nat) (b : Bool) (hi : i < n) (hk : k < n) :
    (setBit v i b).getLsbD k = if k = i then b else v.getLsbD k := by
  have h1 : ∀ j, (1#n).getLsbD j = decide (j = 0 ∧ 0 < n) := by
    intro j
    rw [BitVec.getLsbD_one]
    by_cases hj : j = 0 <;> simp [hj]
  unfold setBit
  by_cases hki : k = i
  · subst hki
    cases b <;> simp [hk]
  · cases b
    · have : ¬ k - i = 0 ∨ k < i := by omega
      rcases this with h | h <;> simp [hk, hki, h]
    · have : ¬ k - i = 0 ∨ k < i := by omega
      rcases this with h | h <;> simp [hk, hki, h]

/-- After a burst of two bytes the pair reads as the value sent (R30, R63). -/
theorem pairAt_burst {m : Memory} (i : Nat) (v : Half) (hm : Memory.wf m) :
    pairAt (burstPrefix m i (portBytes v) 2) i = v := by
  have h0 := read_burstPrefix_inside i (portBytes v) 2 0 hm (by omega) (by simp [portBytes])
  have h1 := read_burstPrefix_inside i (portBytes v) 2 1 hm (by omega) (by simp [portBytes])
  simp only [Nat.add_zero] at h0
  unfold pairAt
  rw [h0, h1]
  exact pack16_bytes v

@[simp] theorem portBytes_length (v : Half) : (portBytes v).length = 2 := rfl

/-! ## DWRITE16, DWRITE, DREAD16 as procedures -/

/-- DWRITE16 (R136), from `xwrite_spec`. -/
theorem dwrite16_spec (v : Half) (s : State) :
    WriteStatus 2 (dwrite16 v s).1.status (dwrite16 v s).1.index ∧ (dwrite16 v s).1.value = 0
      ∧ Runs s (dwrite16 v s).2
          (burstSlots s.lines (sentBytes s.cfg 18 (portBytes v) (dwrite16 v s).1.status (dwrite16 v s).1.index)) ⟨true, true⟩
          (burstPrefix s.shadow 18 (portBytes v) (confirmedCount (dwrite16 v s).1.status (dwrite16 v s).1.index 2)) :=
  xwrite_spec 18 (portBytes v) s (by simp)

/-- DREAD16 (R134), from `xread_spec`: the value is the pair as the shadow then stands. -/
theorem dread16_spec (s : State) :
    ReadStatus (dread16 s).1.status (dread16 s).1.index
      ∧ (dread16 s).1.value = pairAt (dread16 s).2.shadow 18
      ∧ ∃ bytes : List Byte, bytes.length = (if (dread16 s).1.status = .ok then 2 else 0)
        ∧ Runs s (dread16 s).2 (readBurstSlots s.cfg s.lines 18 2 (dread16 s).1.status (dread16 s).1.index) ⟨true, true⟩
            (burstPrefix s.shadow 18 bytes 2) := by
  obtain ⟨h1, _, h3, h4⟩ := xread_spec 18 2 true s
  exact ⟨h1, rfl, _, h3, h4⟩

/-- What a bus run leaves alone of the block (R26, R230). -/
theorem Runs.pub {s t : State} {w p m} (h : Runs s t w p m) : t.pub = s.pub := by rw [h.eq]
theorem Runs.queue {s t : State} {w p m} (h : Runs s t w p m) : t.queue = s.queue := by rw [h.eq]
theorem Runs.dspErr {s t : State} {w p m} (h : Runs s t w p m) : t.dspErr = s.dspErr := by rw [h.eq]
theorem Runs.res {s t : State} {w p m} (h : Runs s t w p m) : t.res = s.res := by rw [h.eq]
theorem Runs.chans {s t : State} {w p m} (h : Runs s t w p m) : t.chans = s.chans := by rw [h.eq]
theorem Runs.actDuration {s t : State} {w p m} (h : Runs s t w p m) : t.actDuration = s.actDuration := by rw [h.eq]
theorem Runs.delayLog {s t : State} {w p m} (h : Runs s t w p m) : t.delayLog = s.delayLog := by rw [h.eq]

end Sys2Proof.Machine
end

