-- ==== Sys2Proof/Laws/Exec.lean ====
section
/-! SUPPORT. Laws/Exec.lean: the operand checks and WellFormed agree; `exec` of an accepted operation as the procedure it runs; what one
burst leaves, in the words of Safety; what the bus operations of U1 and U2 leave alone. -/
namespace Sys2Proof.Machine

/-! ## Operand checks -/

theorem linesOf_some : ∀ a : Byte, a.toNat < 4 → linesOf a = some ⟨a.getLsbD 1, a.getLsbD 0⟩ := by unfold linesOf; decide
theorem linesOf_none : ∀ a : Byte, ¬ a.toNat < 4 → linesOf a = none := by unfold linesOf; decide
theorem flagOf_none : ∀ a : Byte, ¬ a.toNat ≤ 1 → flagOf a = none := by unfold flagOf; decide
theorem pinModeOf_none : ∀ a : Byte, ¬ a.toNat ≤ 2 → pinModeOf a = none := by unfold pinModeOf; decide
theorem pinModeOf_isSome : ∀ a : Byte, a.toNat ≤ 2 → (pinModeOf a).isSome = true := by unfold pinModeOf; decide
theorem pudBitOf_none : ∀ a : Byte, ¬ (a.toNat = 0 ∨ a.toNat = 2) → pudBitOf a = none := by unfold pudBitOf; decide

theorem pinOk_eq (pin : Byte) : pinOk pin = decide (pin.toNat ≤ 15) := by
  unfold pinOk
  show decide (pin < 16) = _
  rw [decide_eq_decide, BitVec.lt_def]
  simp; omega

theorem byte_eq_iff (b : Byte) (n : Nat) (hn : n < 256) : b = BitVec.ofNat 8 n ↔ b.toNat = n := by
  constructor
  · rintro rfl; simp; omega
  · intro h; subst h; simp

/-! ## Accepted operations as the procedures they run -/

theorem finish_next {r : Result} {a b : State} (h : finish r a = .next b) : b = a.setResult r := by
  injection h with h
  exact h.symm

theorem exec_pinmode {pin mode : Byte} {m : PinMode} (s : State) (hp : pin.toNat ≤ 15) (hm : pinModeOf mode = some m) :
    exec (.pinmode pin mode) s = finishWith (pinMode pin.toNat m s) := by
  simp only [exec, execPinmode, pinOk_eq, hp, decide_true, hm]

theorem exec_pudctl {pin pud : Byte} {u : Bool} (s : State) (hp : pin.toNat ≤ 15) (hm : pudBitOf pud = some u) :
    exec (.pudctl pin pud) s
      = finishWith (xwrite regPullupA (portBytes (setBit (pairAt s.shadow regPullupA) pin.toNat u)) s) := by
  simp only [exec, execPudctl, pinOk_eq, hp, decide_true, hm]

theorem exec_dwrite {pin l : Byte} {u : Bool} (s : State) (hp : pin.toNat ≤ 15) (hm : flagOf l = some u) :
    exec (.dwrite pin l) s = finishWith (dwriteBit pin.toNat u s) := by
  simp only [exec, execDwrite, pinOk_eq, hp, decide_true, hm]

theorem exec_dread {pin : Byte} (s : State) (hp : pin.toNat ≤ 15) :
    exec (.dread pin) s
      = finish { (dread16 s).1 with value := bit ((dread16 s).1.value.getLsbD pin.toNat) } (dread16 s).2 := by
  simp only [exec, execDread, pinOk_eq, hp, decide_true]; rfl

/-- The DWRITE of a handler's pin parameter, always accepted. -/
theorem exec_dwrite_pin (pin : BitVec 4) (level : Bool) (s : State) :
    exec (.dwrite (pin.setWidth 8) (if level then 1 else 0)) s
      = .next ((dwriteBit pin.toNat level s).2.setResult (dwriteBit pin.toNat level s).1) := by
  have h : (pin.setWidth 8).toNat = pin.toNat := by simp; omega
  rw [exec_dwrite _ (by rw [h]; omega) (u := level) (by cases level <;> rfl), h]; rfl

/-! ## A run of the bus, in the words of Safety -/

theorem Runs.frame {s t : State} {w p m} (h : Runs s t w p m) :
    t = { s with
      i2c := { s.i2c with lastSda := p.sda, lastScl := p.scl }, wave := t.wave, env := t.env, shadow := m, res := t.res } := by
  have := h.eq
  rw [h.wave, h.res]
  exact this

theorem Runs.synced {s t : State} {w p m} (h : Runs s t w p m) : t.synced = s.synced := by rw [h.eq]

theorem newSlots_runs {s t : State} {w p m} (h : Runs s t w p m) : newSlots s t = w := by
  unfold newSlots; rw [h.wave]; simp

theorem newSlots_length_trans {a b c : State} (h1 : a.wave <+: b.wave) (h2 : b.wave <+: c.wave) :
    (newSlots a c).length = (newSlots a b).length + (newSlots b c).length := by
  unfold newSlots
  simp only [List.length_drop]
  have := h1.length_le; have := h2.length_le
  omega

theorem setResult_outcome {s t : State} (h : t.res = s.res) (st : Status) (ix : Byte) (v : Half) :
    (t.setResult ⟨st, ix, v⟩).res = s.outcome st ix v := by
  show ({ t.res with status := st, index := ix, value := v } : Res) = _
  rw [h]; rfl

theorem OneBurst.withResult {s t : State} {i d st ix} (h : OneBurst s t i d st ix) (r : Result) :
    OneBurst s (t.setResult r) i d st ix := by
  refine ⟨h.ends, ?_, h.inside, h.outside, h.grows, h.bus⟩
  have := h.frame
  conv_lhs => rw [this]
  rfl

theorem OneRead.withRes {s t : State} {i k u b st ix} (h : OneRead s t i k u b st ix) (r : Res) :
    OneRead s { t with res := r } i k u b st ix := by
  refine ⟨h.ends, h.count, ?_, h.inside, h.outside, h.kept, h.grows, h.bus⟩
  have := h.frame
  conv_lhs => rw [this]

/-- The slots of a read burst carry the items of R66. -/
theorem busItems_readBurstSlots (c : Config) (i k : Nat) (status : Status) (index : Byte) :
    busItems ⟨true, true⟩ [] (readBurstSlots c ⟨true, true⟩ i k status index) = readItems c i k status index := by
  have a : ∀ rest, busItems ⟨true, true⟩ [] (startSlots ⟨true, true⟩ ++ (sentSlots false (writeAddr c) ++ rest))
      = [.start, .byte (writeAddr c) true] ++ busItems ⟨true, false⟩ [] rest := by
    intro rest; rw [busItems_start_idle, busItems_sentSlots ⟨false, true⟩]; rfl
  have b : ∀ v rest, busItems ⟨true, false⟩ [] (sentSlots true v ++ rest) = .byte v true :: busItems ⟨true, false⟩ [] rest :=
    fun v rest => busItems_sentSlots ⟨true, false⟩ v rest
  have d : ∀ rest, busItems ⟨true, false⟩ [] (startSlots ⟨true, false⟩ ++ (sentSlots false (readAddr c) ++ rest))
      = [.start, .byte (readAddr c) true] ++ busItems ⟨true, false⟩ [] rest := by
    intro rest; rw [busItems_start_repeated, busItems_sentSlots ⟨false, true⟩]; rfl
  have e : busItems ⟨true, false⟩ [] (stopSlots ⟨true, false⟩) = [.stop] := rfl
  unfold readBurstSlots readItems
  cases status
  case nakAddr =>
    dsimp only
    split <;> simp only [List.append_assoc, a, b, d, e] <;> rfl
  case nakPtr => simp only [List.append_assoc, a, b, e]; rfl
  all_goals
    simp only [List.append_assoc, a, b, d, busItems_readSlots, e]; rfl

/-! ## The shadow BEGIN sets -/

theorem read_beginShadow (dirA dirB puA puB polA polB : Byte) (r : Nat) :
    Memory.read (beginShadow dirA dirB puA puB polA polB) r =
      if r = 0 then dirA else if r = 1 then dirB else if r = 2 then polA else if r = 3 then polB
      else if r = 12 then puA else if r = 13 then puB else 0 := by
  have w0 : Memory.wf [] := ⟨List.Pairwise.nil, by simp⟩
  unfold beginShadow
  dsimp only
  rw [Memory.read_write, Memory.read_write, Memory.read_write, Memory.read_write, Memory.read_write, Memory.read_write]
  · simp only [Memory.read_nil, regPullupA, regPullupB, regPolA, regPolB, regDirA, regDirB]
    by_cases h0 : r = 0; · simp [h0]
    by_cases h1 : r = 1; · simp [h1]
    by_cases h2 : r = 2; · simp [h2]
    by_cases h3 : r = 3; · simp [h3]
    by_cases h4 : r = 12; · simp [h4]
    by_cases h5 : r = 13; · simp [h5]
    simp [h0, h1, h2, h3, h4, h5]
  all_goals (repeat' apply Memory.write_wf); exact w0

theorem beginShadow_wf (dirA dirB puA puB polA polB : Byte) : Memory.wf (beginShadow dirA dirB puA puB polA polB) := by
  unfold beginShadow; dsimp only; (repeat' apply Memory.write_wf); exact ⟨List.Pairwise.nil, by simp⟩

theorem write_self {m : Memory} (hm : Memory.wf m) (a : Nat) : Memory.write m a (Memory.read m a) = m := by
  apply Memory.ext_read (Memory.write_wf _ _ hm) hm
  intro k
  rw [Memory.read_write _ _ _ hm]; split
  · next h => rw [h]
  · rfl

/-- Writing a burst of what is already there changes nothing, confirmed in part or whole. -/
theorem burstPrefix_self {m : Memory} (hm : Memory.wf m) (i k n : Nat) :
    burstPrefix m i ((List.range' i k).map (Memory.read m)) n = m := by
  induction k generalizing i n with
  | zero => simp
  | succ k ih =>
    cases n with
    | zero => simp
    | succ n => rw [List.range'_succ, List.map_cons, burstPrefix_cons, write_self hm]; exact ih (i + 1) n

/-! ## What the bus operations leave alone -/

/-- Only the I2C handle, the waveform, the environment, the shadow, `synced` and the result record differ, and the waveform only
grew. -/
structure BusEffect (s t : State) : Prop where
  frame : t = { s with
    i2c := t.i2c, wave := t.wave, env := t.env, shadow := t.shadow, synced := t.synced, res := t.res }
  grows : s.wave <+: t.wave

theorem BusEffect.refl (s : State) : BusEffect s s := ⟨rfl, List.prefix_refl _⟩

theorem BusEffect.trans {s t u : State} (h : BusEffect s t) (k : BusEffect t u) : BusEffect s u :=
  ⟨by rw [k.frame, h.frame], h.grows.trans k.grows⟩

theorem BusEffect.setResult {s t : State} (h : BusEffect s t) (r : Result) : BusEffect s (t.setResult r) :=
  ⟨by rw [h.frame]; rfl, h.grows⟩

theorem BusEffect.withRes {s t : State} (h : BusEffect s t) (r : Res) : BusEffect s { t with res := r } :=
  ⟨by rw [h.frame], h.grows⟩

theorem Runs.busEffect {s t : State} {w p m} (h : Runs s t w p m) : BusEffect s t :=
  ⟨by rw [h.eq], by rw [h.wave]; exact List.prefix_append _ _⟩

/-- The two transactions of PINMODE as one run of the bus, ending with both lines released. -/
theorem pinMode_runs (pin : Nat) (m : PinMode) (s : State) : ∃ w sh, Runs s (pinMode pin m s).2 w ⟨true, true⟩ sh := by
  have a := (xwrite_spec regDirA (portBytes (setBit (pairAt s.shadow regDirA) pin m.dirBit)) s (by simp)).2.2
  unfold pinMode
  dsimp only
  split
  · exact ⟨_, _, a.trans
      (xwrite_spec regPullupA (portBytes (setBit (pairAt s.shadow regPullupA) pin m.puBit)) _ (by simp)).2.2⟩
  · exact ⟨_, _, a⟩

/-- Every operation of U1 and U2 has at most a bus effect, and only BEGIN writes `synced`. -/
theorem exec_busEffect (i : Instr) (s t : State) (h : exec i s = .next t) (hb : Instr.isEngine i = true ∨ Instr.isDriver i = true) :
    BusEffect s t ∧ (t.synced ≠ s.synced → ∃ a b c d e f g h, i = .begin a b c d e f g h) := by
  have run : ∀ {u w p m r}, Runs s u w p m → finish r u = .next t →
      BusEffect s t ∧ (t.synced ≠ s.synced → ∃ a b c d e f g h, i = .begin a b c d e f g h) := by
    intro u w p m r hr hf
    rw [finish_next hf]
    exact ⟨hr.busEffect.setResult r, fun k => absurd hr.synced k⟩
  have stay : ∀ {r}, finish r s = .next t →
      BusEffect s t ∧ (t.synced ≠ s.synced → ∃ a b c d e f g h, i = .begin a b c d e f g h) := by
    intro r hf
    rw [finish_next hf]
    exact ⟨(BusEffect.refl s).setResult r, fun k => absurd rfl k⟩
  cases i <;> simp only [exec] at h <;> try (rcases hb with hb | hb <;> cases hb)
  case i2cinit a b =>
    rw [finish_next h]
    exact ⟨⟨rfl, List.prefix_append _ _⟩, fun k => absurd rfl k⟩
  case setlines a =>
    unfold execSetlines at h
    split at h
    · exact run (drive_runs [_] s) h
    · exact stay h
  case start => exact run (start_runs s) h
  case stop => exact run (stop_runs s) h
  case sendbyte v => exact run (sendByte_runs v s) h
  case readack => exact run (readAck_runs s) h
  case ack => exact run (sendAck_runs _ s) h
  case nack => exact run (sendAck_runs _ s) h
  case sendack =>
    unfold execSendack at h
    split at h
    · exact run (sendAck_runs _ s) h
    · exact stay h
  case readbyte => exact run (readByte_runs s) h
  case begin a b c d e f g k =>
    refine ⟨?_, fun _ => ⟨_, _, _, _, _, _, _, _, rfl⟩⟩
    rw [finish_next h]
    refine BusEffect.setResult ?_ _
    have h1 : BusEffect s (i2cInit a b { s with shadow := beginShadow c d e f g k }) := ⟨rfl, List.prefix_append _ _⟩
    have h2 := h1.trans
      (xwrite_spec 0 ((List.range 14).map (Memory.read (beginShadow c d e f g k))) _ (by simp)).2.2.busEffect
    exact h2.trans ⟨rfl, List.prefix_refl _⟩
  case pinmode pin mode =>
    unfold execPinmode at h
    split at h
    · next m _ _ =>
      obtain ⟨_, _, hr⟩ := pinMode_runs pin.toNat m s
      exact run hr h
    all_goals exact stay h
  case pudctl pin pud =>
    unfold execPudctl at h
    split at h
    · exact run (xwrite_spec _ _ s (by simp)).2.2 h
    all_goals exact stay h
  case dread16 =>
    obtain ⟨_, _, _, _, a⟩ := dread16_spec s
    exact run a h
  case dread pin =>
    unfold execDread at h
    split at h
    · obtain ⟨_, _, _, _, a⟩ := dread16_spec s
      exact run a h
    all_goals exact stay h
  case dwrite16 v => exact run (dwrite16_spec v s).2.2 h
  case dwrite pin l =>
    unfold execDwrite at h
    split at h
    · exact run (dwrite16_spec _ s).2.2 h
    all_goals exact stay h
  case dumpregs =>
    have a := (xread_spec 0 nReg false s).2.2.2
    rw [finish_next h]
    exact ⟨(a.busEffect.withRes _).setResult _, fun k => absurd a.synced k⟩

/-- Every operation is one of U1 or U2, of the callback context, or DISPATCH, WRCFG or RDCFG. -/
theorem instr_kinds (i : Instr) : (Instr.isEngine i = true ∨ Instr.isDriver i = true) ∨ Instr.isCallback i = true
    ∨ i = .dispatch ∨ (∃ r w, i = .wrcfg r w) ∨ (∃ r, i = .rdcfg r) := by
  cases i <;> simp [Instr.isEngine, Instr.isDriver, Instr.isCallback]

end Sys2Proof.Machine
end

