-- ==== Sys2Proof/Laws/Environment.lean ====
section
/-! SUPPORT. Laws/Environment.lean: the environment stays in a legal state whatever the master drives (spec/20_memory.md R80 to R83): the
reference device's registers stay canonical and within 0..21, its pointer within 0..21. -/
namespace Sys2Proof.Machine

theorem Device.Good.store {d : Device} (h : d.Good) (i : Nat) (hi : i < 22) (v : Byte) :
    Memory.wf (d.storeReg i v) ∧ Memory.inRange (d.storeReg i v) := by
  have one : ∀ (m : Memory) (j : Nat) (w : Byte), j < 22 → Memory.wf m ∧ Memory.inRange m →
      Memory.wf (Memory.write m j w) ∧ Memory.inRange (Memory.write m j w) :=
    fun m j w hj hm => ⟨Memory.write_wf _ _ hm.1, Memory.write_inRange w hm.2 hj⟩
  unfold Device.storeReg
  split
  · exact one _ _ _ hi ⟨h.reg, h.range⟩
  · split
    · exact one _ _ _ (by decide) (one _ _ _ (by decide) ⟨h.reg, h.range⟩)
    · split
      · exact one _ _ _ (by decide) (one _ _ _ (by decide) ⟨h.reg, h.range⟩)
      · split
        · exact ⟨h.reg, h.range⟩
        · exact one _ _ _ hi ⟨h.reg, h.range⟩

theorem ptrOf_lt (c : Config) (b : Byte) : ptrOf c b < 22 := by
  unfold ptrOf
  omega

/-- The device in a state that differs in no register and has a legal pointer. -/
theorem Device.Good.of_eq {d e : Device} (h : d.Good) (hr : e.reg = d.reg) (hp : e.ptr < 22) : e.Good :=
  ⟨by rw [hr]; exact h.reg, by rw [hr]; exact h.range, hp⟩

theorem Device.onByte_good {d : Device} (h : d.Good) (c : Config) (b : Byte) : (d.onByte c b).Good := by
  unfold Device.onByte
  dsimp only
  split
  · exact h.of_eq rfl h.ptr
  · split
    · split <;> exact h.of_eq rfl h.ptr
    · split
      · exact h.of_eq rfl (ptrOf_lt c b)
      · obtain ⟨a, r⟩ := h.store d.ptr h.ptr b
        exact ⟨a, r, Nat.mod_lt _ (by decide)⟩
    · exact h.of_eq rfl h.ptr
    · exact h.of_eq rfl h.ptr

theorem Device.onByteWanted_good {d : Device} (h : d.Good) : d.onByteWanted.Good :=
  h.of_eq rfl (Nat.mod_lt _ (by decide))

/-- Every line change keeps the device legal. -/
theorem Device.edge_good {d : Device} (h : d.Good) (c : Config) (p q : Slot) : (Device.edge c p q d).Good := by
  unfold Device.edge
  split
  · split
    · unfold Device.onStart; split <;> exact h.of_eq rfl h.ptr
    · split
      · exact h.of_eq rfl h.ptr
      · exact h
  · split
    · unfold Device.onRise; split
      · split <;> [exact h.of_eq rfl h.ptr; exact h]
      all_goals first | exact h | exact h.of_eq rfl h.ptr
    · split
      · unfold Device.onFall; split
        · split <;> [exact Device.onByte_good h c _; exact h]
        · split <;> [exact Device.onByteWanted_good h; exact h.of_eq rfl h.ptr]
        · split <;> exact h.of_eq rfl h.ptr
        · split <;> [exact Device.onByteWanted_good h; exact h.of_eq rfl h.ptr]
        · exact h
        · exact h
      · exact h

theorem Device.bothEdges_good {d : Device} (h : d.Good) (c : Config) (p q : Slot) (o : EdgeOrder) : (d.bothEdges c p q o).Good := by
  cases o
  · exact Device.edge_good (Device.edge_good h c _ _) c _ _
  · exact Device.edge_good (Device.edge_good h c _ _) c _ _
  · exact Device.edge_good h c _ _

theorem Env.observe_good {e : Env} (h : e.Good) (c : Config) (p q : Slot) : (e.observe c p q).Good := by
  unfold Env.observe
  split
  · exact h
  · exact h
  · next d hd =>
    split
    · intro x hx
      dsimp only at hx
      injection hx with hx
      subst hx
      exact Device.bothEdges_good (h d hd) c _ _ _
    · intro x hx
      dsimp only at hx
      injection hx with hx
      subst hx
      exact Device.edge_good (h d hd) c _ _

theorem Env.sda_good {e : Env} (h : e.Good) : e.sda.2.Good := by
  unfold Env.sda
  split
  · exact h
  · intro d hd; cases hd
  · next hs => intro d hd; dsimp only at hd; rw [hs] at hd; cases hd
  · exact h

theorem drive_good {s : State} (h : s.env.Good) (sl : List Slot) : (drive sl s).env.Good := by
  induction sl generalizing s with
  | nil => exact h
  | cons q qs ih => exact ih (Env.observe_good h _ _ _)

theorem readAck_good {s : State} (h : s.env.Good) : (readAck s).2.env.Good :=
  drive_good (Env.sda_good (drive_good h _)) _

theorem sendAcked_good {s : State} (h : s.env.Good) (v : Byte) : (sendAcked v s).2.env.Good :=
  readAck_good (drive_good h _)

theorem readBits_good (ns : List Nat) (v : Byte) {s : State} (h : s.env.Good) : (readBits ns v s).2.env.Good := by
  induction ns generalizing v s with
  | nil => exact h
  | cons n ns ih => exact ih _ (Env.sda_good (drive_good h _))

theorem readByte_good {s : State} (h : s.env.Good) : (readByte s).2.env.Good :=
  drive_good (readBits_good _ _ (drive_good h _)) _

theorem writeBytes_good (i j : Nat) (ds : List Byte) {s : State} (h : s.env.Good) : (writeBytes i j ds s).2.env.Good := by
  induction ds generalizing j s with
  | nil => exact drive_good h _
  | cons d ds ih =>
    unfold writeBytes
    dsimp only
    split
    · exact ih _ (sendAcked_good h d)
    · exact drive_good (sendAcked_good h d) _

/-- XWRITE keeps the environment legal. -/
theorem xwrite_good (i : Nat) (data : List Byte) {s : State} (h : s.env.Good) : (xwrite i data s).2.env.Good := by
  have h0 := sendAcked_good (s := start s) (drive_good h _) (writeAddr s.cfg)
  have h1 := sendAcked_good h0 (regPtr s.cfg i)
  unfold xwrite
  dsimp only
  split
  · split
    · exact writeBytes_good _ _ _ h1
    · exact drive_good h1 _
  · exact drive_good h0 _

theorem readBytes_good (u : Bool) (k i : Nat) {s : State} (h : s.env.Good) : (readBytes u k i s).2.env.Good := by
  induction k generalizing i s with
  | zero => exact h
  | succ k ih =>
    have h1 : (sendAck (decide (k ≠ 0)) (readByte s).2).env.Good := drive_good (readByte_good h) _
    unfold readBytes
    dsimp only
    apply ih
    split
    · exact h1
    · exact h1

/-- XREAD keeps the environment legal. -/
theorem xread_good (i k : Nat) (u : Bool) {s : State} (h : s.env.Good) : (xread i k u s).2.env.Good := by
  have h0 := sendAcked_good (s := start s) (drive_good h _) (writeAddr s.cfg)
  have h1 := sendAcked_good h0 (regPtr s.cfg i)
  have h2 := sendAcked_good (s := start _) (drive_good h1 _) (readAddr s.cfg)
  unfold xread
  dsimp only
  split
  · split
    · split
      · exact drive_good (readBytes_good _ _ _ h2) _
      · exact drive_good h2 _
    · exact drive_good h1 _
  · exact drive_good h0 _

end Sys2Proof.Machine
end

