-- ==== Sys2Proof/Laws/Handlers.lean ====
section
/-! SUPPORT. Laws/Handlers.lean: what the signal handlers do (spec/43_dispatcher_actuator.md R182, R188 to R194), said once: the bus access
of a handler in closed form, and what any handler can change. -/
namespace Sys2Proof.Machine

/-- A handler's DWRITE: the write, and the sticky record of it (R194). -/
theorem handlerWrite_eq (pin : BitVec 4) (l : Level) (s : State) :
    handlerWrite pin l s = ((dwriteBit pin.toNat l s).1, { (dwriteBit pin.toNat l s).2 with
      dspErr := notedErr (dwriteBit pin.toNat l s).1.status (dwriteBit pin.toNat l s).1.index s.dspErr }) := by
  have h := (dwrite16_spec (setBit (pairAt s.shadow regGpioA) pin.toNat l) s).2.2.dspErr
  have h' : (dwriteBit pin.toNat l s).2.dspErr = s.dspErr := h
  unfold handlerWrite noteErr notedErr
  dsimp only
  split
  · rw [← h']
  · rfl

/-- A handler's DREAD16: the read, and the sticky record of it (R194). -/
theorem handlerRead_eq (s : State) :
    handlerRead s = ((dread16 s).1, { (dread16 s).2 with
      dspErr := notedErr (dread16 s).1.status (dread16 s).1.index s.dspErr }) := by
  have h' : (dread16 s).2.dspErr = s.dspErr := by
    obtain ⟨_, _, _, _, h⟩ := dread16_spec s; exact h.dspErr
  unfold handlerRead noteErr notedErr
  dsimp only
  split
  · rw [← h']
  · rfl

/-- DISPATCH: nothing on an empty queue, else the head's handler on the rest of the queue. -/
theorem exec_dispatch_cases (s t : State) (h : exec .dispatch s = .next t) :
    (s.queue = [] ∧ t = s.setResult (.okFlag false))
      ∨ ∃ g rest, s.queue = g :: rest ∧ t = (handleSignal g { s with queue := rest }).setResult (.okFlag true) := by
  simp only [exec] at h
  unfold execDispatch at h
  split at h
  · next hq => exact Or.inl ⟨hq, finish_next h⟩
  · next g rest hq => exact Or.inr ⟨g, rest, hq, finish_next h⟩

/-- Everything a handler can change: the logs grow, the sticky record takes a NAK status only, the shadow changes at GPIO_A and
GPIO_B only, an idle bus is idle again. -/
structure HandlerEffect (s t : State) : Prop where
  frame : t = { s with
    i2c := t.i2c, wave := t.wave, env := t.env, shadow := t.shadow, dspErr := t.dspErr, delayLog := t.delayLog, pub := t.pub,
    actOn := t.actOn, minArmed := t.minArmed, actCountdown := t.actCountdown, upgLast := t.upgLast,
    upgVersion := t.upgVersion, upgLog := t.upgLog }
  wave     : s.wave <+: t.wave
  pub      : s.pub <+: t.pub
  delayLog : s.delayLog <+: t.delayLog
  upgLog   : s.upgLog <+: t.upgLog
  err      : t.dspErr ≠ s.dspErr →
    t.dspErr.flag = true ∧ (t.dspErr.status = .nakAddr ∨ t.dspErr.status = .nakPtr ∨ t.dspErr.status = .nakData)
  shadow   : ∀ a, Memory.read t.shadow a ≠ Memory.read s.shadow a → a = 18 ∨ a = 19
  idle     : s.BusIdle → t.BusIdle

theorem HandlerEffect.trans {s t u : State} (h : HandlerEffect s t) (k : HandlerEffect t u) : HandlerEffect s u := by
  refine ⟨by rw [k.frame, h.frame], h.wave.trans k.wave, h.pub.trans k.pub, h.delayLog.trans k.delayLog,
    h.upgLog.trans k.upgLog, ?_, ?_, fun a => k.idle (h.idle a)⟩
  · intro hne
    by_cases e : u.dspErr = t.dspErr
    · rw [e] at hne ⊢; exact h.err hne
    · exact k.err e
  · intro a hne
    by_cases e : Memory.read u.shadow a = Memory.read t.shadow a
    · rw [e] at hne; exact h.shadow a hne
    · exact k.shadow a e

theorem handlerWrite_effect (pin : BitVec 4) (l : Level) (s : State) : HandlerEffect s (handlerWrite pin l s).2 := by
  rw [handlerWrite_eq]
  obtain ⟨ws, _, a⟩ := dwrite16_spec (setBit (pairAt s.shadow regGpioA) pin.toNat l) s
  change WriteStatus 2 (dwriteBit pin.toNat l s).1.status (dwriteBit pin.toNat l s).1.index at ws
  change Runs s (dwriteBit pin.toNat l s).2 _ _ (burstPrefix s.shadow 18 _ _) at a
  have sh : (dwriteBit pin.toNat l s).2.shadow = _ := a.shadow
  refine ⟨?_, a.busEffect.grows, ?_, ?_, ?_, ?_, ?_, fun _ => ?_⟩
  · dsimp only; rw [a.eq]
  · dsimp only; rw [a.pub]
  · dsimp only; rw [a.delayLog]
  · dsimp only; rw [a.eq]
  · dsimp only
    unfold notedErr
    split
    · intro h; exact absurd rfl h
    · next hne =>
      refine fun _ => ⟨rfl, ?_⟩
      rcases ws with ⟨h, _⟩ | ⟨h, _⟩ | ⟨h, _⟩ | ⟨h, _⟩
      · exact absurd h hne
      all_goals simp [h]
  · intro x hx
    by_contra hh
    apply hx
    show Memory.read (dwriteBit pin.toNat l s).2.shadow x = _
    rw [sh]
    apply read_burstPrefix_outside
    simp
    omega
  · show (dwriteBit pin.toNat l s).2.lines = _
    rw [a.lines]

theorem handlerRead_effect (s : State) : HandlerEffect s (handlerRead s).2 := by
  rw [handlerRead_eq]
  obtain ⟨ws, _, b, hb, a⟩ := dread16_spec s
  have sh : (dread16 s).2.shadow = _ := a.shadow
  refine ⟨?_, a.busEffect.grows, ?_, ?_, ?_, ?_, ?_, fun _ => ?_⟩
  · dsimp only; rw [a.eq]
  · dsimp only; rw [a.pub]
  · dsimp only; rw [a.delayLog]
  · dsimp only; rw [a.eq]
  · dsimp only
    unfold notedErr
    split
    · intro h; exact absurd rfl h
    · next hne =>
      refine fun _ => ⟨rfl, ?_⟩
      rcases ws with ⟨h, _⟩ | ⟨h, _⟩ | ⟨h, _⟩
      · exact absurd h hne
      all_goals simp [h]
  · intro x hx
    by_contra hh
    apply hx
    show Memory.read (dread16 s).2.shadow x = _
    rw [sh]
    apply read_burstPrefix_outside
    have : b.length ≤ 2 := by rw [hb]; split <;> omega
    omega
  · show (dread16 s).2.lines = _
    rw [a.lines]

/-- A step off the bus. -/
theorem HandlerEffect.offBus {s t : State}
    (h1 : t = { s with
      pub := t.pub, delayLog := t.delayLog, actOn := t.actOn, minArmed := t.minArmed, actCountdown := t.actCountdown,
      upgLast := t.upgLast, upgVersion := t.upgVersion, upgLog := t.upgLog, env := t.env })
    (h2 : s.pub <+: t.pub) (h3 : s.delayLog <+: t.delayLog) (h4 : s.upgLog <+: t.upgLog) : HandlerEffect s t := by
  refine ⟨?_, ?_, h2, h3, h4, ?_, ?_, ?_⟩
  · conv_lhs => rw [h1]
    rw [h1]
  · rw [h1]
  · intro h; rw [h1] at h; exact absurd rfl h
  · intro a h; rw [h1] at h; exact absurd rfl h
  · intro h; rw [h1]; exact h

theorem handleLevelSample_effect (s : State) : HandlerEffect s (handleLevelSample s) := by
  have w := handlerWrite_effect s.cfg.lvlPin
  unfold handleLevelSample
  generalize hw : handlerWrite s.cfg.lvlPin s.cfg.lvlActive s = p
  have a : HandlerEffect s p.2 := hw ▸ w s.cfg.lvlActive s
  dsimp only
  split
  · have d : HandlerEffect p.2 (delayMs s.cfg.tSettleMs p.2) :=
      .offBus rfl (List.prefix_refl _) (List.prefix_append _ _) (List.prefix_refl _)
    generalize delayMs s.cfg.tSettleMs p.2 = q at *
    have r := handlerRead_effect q
    generalize handlerRead q = r' at *
    have x := ((a.trans d).trans r).trans (w (!s.cfg.lvlActive) r'.2)
    generalize handlerWrite s.cfg.lvlPin (!s.cfg.lvlActive) r'.2 = y at *
    split
    · exact x.trans (.offBus rfl (List.prefix_append _ _) (List.prefix_refl _) (List.prefix_refl _))
    · exact x
  · exact a.trans (w (!s.cfg.lvlActive) p.2)

theorem handleActOn_effect (s : State) : HandlerEffect s (handleActOn s) := by
  have a : HandlerEffect s { s with actOn := true } :=
    .offBus rfl (List.prefix_refl _) (List.prefix_refl _) (List.prefix_refl _)
  have w := handlerWrite_effect s.cfg.pumpPin s.cfg.pumpActive { s with actOn := true }
  unfold handleActOn
  generalize handlerWrite s.cfg.pumpPin s.cfg.pumpActive { s with actOn := true } = p at *
  exact (a.trans w).trans (.offBus rfl (List.prefix_append _ _) (List.prefix_refl _) (List.prefix_refl _))

theorem handleActOff_effect (s : State) : HandlerEffect s (handleActOff s) := by
  have a : HandlerEffect s { s with actOn := false } :=
    .offBus rfl (List.prefix_refl _) (List.prefix_refl _) (List.prefix_refl _)
  have w := handlerWrite_effect s.cfg.pumpPin (!s.cfg.pumpActive) { s with actOn := false }
  unfold handleActOff
  generalize handlerWrite s.cfg.pumpPin (!s.cfg.pumpActive) { s with actOn := false } = p at *
  exact (a.trans w).trans (.offBus rfl (List.prefix_append _ _) (List.prefix_refl _) (List.prefix_refl _))

/-- Every handler has at most the effect above. -/
theorem handleSignal_effect (g : Signal) (s : State) : HandlerEffect s (handleSignal g s) := by
  unfold handleSignal
  split
  · split
    · exact handleActOn_effect s
    · exact handleActOff_effect s
  · exact handleLevelSample_effect s
  · exact .offBus rfl (List.prefix_append _ _) (List.prefix_refl _) (List.prefix_refl _)
  · exact .offBus rfl (List.prefix_refl _) (List.prefix_refl _) (List.prefix_append _ _)

/-- The loop of R191: the answer lies between its bounds, every bit below it is set, and it ends at the bound or at a clear bit. -/
theorem onesFrom_spec (pat : BitVec 10) (fuel n : Nat) :
    n ≤ onesFrom pat fuel n ∧ onesFrom pat fuel n ≤ n + fuel
      ∧ (∀ k, n ≤ k → k < onesFrom pat fuel n → pat.getLsbD k = true)
      ∧ (onesFrom pat fuel n = n + fuel ∨ pat.getLsbD (onesFrom pat fuel n) = false) := by
  induction fuel generalizing n with
  | zero => exact ⟨Nat.le_refl _, Nat.le_refl _, fun k h1 h2 => absurd h2 (by simp [onesFrom]; omega), Or.inl rfl⟩
  | succ f ih =>
    unfold onesFrom
    split
    · next h =>
      obtain ⟨a, b, c, d⟩ := ih (n + 1)
      refine ⟨by omega, by omega, ?_, ?_⟩
      · intro k h1 h2
        by_cases hk : k = n
        · subst hk; exact h
        · exact c k (by omega) h2
      · rcases d with d | d
        · left; omega
        · right; exact d
    · next h => exact ⟨Nat.le_refl _, by omega, fun k h1 h2 => by omega, Or.inr (by simpa using h)⟩

/-- The sensor pattern bit by bit (R190). -/
theorem levelPattern_bit (c : Config) (v : Half) (k : Nat) (hk : k < 10) :
    (levelPattern c v).getLsbD k = (v.getLsbD (k + c.lvlShift) ^^ c.lvlInvert.getLsbD k) := by
  unfold levelPattern
  rw [BitVec.getLsbD_xor, BitVec.getLsbD_extractLsb']
  simp [hk, Nat.add_comm]

end Sys2Proof.Machine
end

