-- ==== Sys2Proof/Laws/PerInstr.lean ====
section
/-! SUPPORT. Laws/PerInstr.lean: one lemma per constructor of Instr: the command decodes from its encoding, whatever follows it on the
stream (spec/30_encoding.md R91, R92, R95). -/
namespace Sys2Proof.Laws.DecodeEncode
open Sys2Proof Sys2Proof.Machine

/-- The family's statement of one instruction. -/
def Statement (i : Instr) : Prop := ∀ rest : List Byte, decode (encode i ++ rest) = .ok i rest

theorem pack32_bytes (w : Word) :
    pack32 (w.extractLsb' 24 8) (w.extractLsb' 16 8) (w.extractLsb' 8 8) (w.extractLsb' 0 8) = w := by
  apply BitVec.eq_of_getLsbD_eq
  intro i hi
  rw [show (pack32 (w.extractLsb' 24 8) (w.extractLsb' 16 8) (w.extractLsb' 8 8) (w.extractLsb' 0 8)).getLsbD i
    = (w.extractLsb' 24 8 ++ w.extractLsb' 16 8 ++ w.extractLsb' 8 8 ++ w.extractLsb' 0 8 : BitVec (8 + 8 + 8 + 8)).getLsbD i
    from rfl, BitVec.getLsbD_append, BitVec.getLsbD_append, BitVec.getLsbD_append]
  by_cases h0 : i < 8
  · simp [h0]
  · by_cases h1 : i - 8 < 8
    · simp [h0, h1, show 8 + (i - 8) = i by omega]
    · by_cases h2 : i - 8 - 8 < 8
      · simp [h0, h1, h2, show 16 + (i - 8 - 8) = i by omega]
      · simp [h0, h1, h2, show i - 8 - 8 - 8 < 8 by omega, show 24 + (i - 8 - 8 - 8) = i by omega]

theorem decodeH_bytes (f : Half → Instr) (v : Half) (rest : List Byte) :
    decodeH f (loByte v :: hiByte v :: rest) = .ok (f v) rest := by
  rw [decodeH, pack16_bytes]

theorem decodeKW_bytes (f : Byte → Word → Instr) (k : Byte) (w : Word) (rest : List Byte) :
    decodeKW f (k :: (bytes32 w ++ rest)) = .ok (f k w) rest := by
  rw [bytes32]
  simp only [List.cons_append, List.nil_append, decodeKW, pack32_bytes]

theorem i2cinit (a b : Byte) : Statement (.i2cinit a b) := fun _ => rfl
theorem setlines (a : Byte) : Statement (.setlines a) := fun _ => rfl
theorem start : Statement .start := fun _ => rfl
theorem stop : Statement .stop := fun _ => rfl
theorem sendbyte (a : Byte) : Statement (.sendbyte a) := fun _ => rfl
theorem readack : Statement .readack := fun _ => rfl
theorem sendack (a : Byte) : Statement (.sendack a) := fun _ => rfl
theorem ack : Statement .ack := fun _ => rfl
theorem nack : Statement .nack := fun _ => rfl
theorem readbyte : Statement .readbyte := fun _ => rfl
theorem begin (a b c d e f g h : Byte) : Statement (.begin a b c d e f g h) := fun _ => rfl
theorem pinmode (a b : Byte) : Statement (.pinmode a b) := fun _ => rfl
theorem pudctl (a b : Byte) : Statement (.pudctl a b) := fun _ => rfl
theorem dread16 : Statement .dread16 := fun _ => rfl
theorem dread (a : Byte) : Statement (.dread a) := fun _ => rfl
theorem dwrite16 (v : Half) : Statement (.dwrite16 v) := fun rest => decodeH_bytes .dwrite16 v rest
theorem dwrite (a b : Byte) : Statement (.dwrite a b) := fun _ => rfl
theorem dumpregs : Statement .dumpregs := fun _ => rfl
theorem sample (a : Byte) : Statement (.sample a) := fun _ => rfl
theorem post (k : Byte) (w : Word) : Statement (.post k w) := fun rest => decodeKW_bytes .post k w rest
theorem dispatch : Statement .dispatch := fun _ => rfl
theorem mintick : Statement .mintick := fun _ => rfl
theorem retrytick (a : Byte) : Statement (.retrytick a) := fun _ => rfl
theorem leveltick : Statement .leveltick := fun _ => rfl
theorem wrcfg (k : Byte) (w : Word) : Statement (.wrcfg k w) := fun rest => decodeKW_bytes .wrcfg k w rest
theorem rdcfg (a : Byte) : Statement (.rdcfg a) := fun _ => rfl

end Sys2Proof.Laws.DecodeEncode
end

