-- ==== Sys2Proof/Tests/Slice0.lean ====
section
/-! SUPPORT. Slice0.lean: the model's own tests. Expected values come from spec/95_test_vectors.md (its row is named in each comment) or
from the encoding tables of spec/30_encoding.md. The `witness_` theorems show, for each obligation with hypotheses, a concrete
state and operands that meet them. -/
namespace Sys2Proof.Tests
open Sys2Proof Sys2Proof.Machine

/-! ## The bench -/

/-- The test configuration of spec/95_test_vectors.md after reset, in an environment. -/
def bench (e : Env) : State := State.resetWith Config.reference [ChannelCfg.door] e

/-- Nothing on the bus. -/
def noDevice : Env := ⟨.absent, [], 0⟩

/-- A slave that drives the given levels in the sampled slots. -/
def script (levels : List Level) : Env := ⟨.oracle levels, [], 0⟩

/-- The reference device of R80, all registers 0, with the fault injection of R81 and the pins of R82. -/
def device (nakAt : Option Nat) (pins : Option Half) : Device :=
  ⟨[], 0, .none, false, nakAt, pins, .idle, 0, true, 0, false, false⟩

/-- The bench with the lines at the levels `p`. -/
def linesAt (p : Slot) (e : Env) : State := { bench e with i2c := ⟨0, 0, p.sda, p.scl⟩ }

/-- The bench with this queue. -/
def queued (q : List Signal) (e : Env) : State := { bench e with queue := q }

/-- The operation answers a next state of which `p` holds. -/
def after (o : Host.Outcome State Fault Refusal) (p : State → Bool) : Bool :=
  match o with
  | .next t => p t
  | .fault _ => false
  | .refused _ => false

/-- The result record holds this status, index and value. -/
def result (st : Status) (ix : Byte) (v : Half) (t : State) : Bool :=
  decide (t.res.status = st) && decide (t.res.index = ix) && decide (t.res.value = v)

/-- Slots as spec/95_test_vectors.md writes them: two digits a slot, SDA then SCL. -/
def slots : List Nat → List Slot
  | [] => []
  | n :: ns => ⟨decide (10 ≤ n), decide (n % 10 = 1)⟩ :: slots ns

/-- What a decoded word is, with everything after it consumed. -/
def whole (bytes : List Byte) (i : Instr) : Bool := decide (decode bytes = .ok i [])

/-! ## WellFormed: an ill-formed term for every check, refused -/

theorem smoke_setlines : (Instr.setlines 0x04).wellFormed 1 = false := by decide
theorem smoke_sendack : (Instr.sendack 2).wellFormed 1 = false := by decide
theorem smoke_pinmode_pin : (Instr.pinmode 16 1).wellFormed 1 = false := by decide
theorem smoke_pinmode_mode : (Instr.pinmode 3 3).wellFormed 1 = false := by decide
theorem smoke_pudctl_pin : (Instr.pudctl 16 2).wellFormed 1 = false := by decide
theorem smoke_pudctl_down : (Instr.pudctl 3 1).wellFormed 1 = false := by decide
theorem smoke_dread_pin : (Instr.dread 16).wellFormed 1 = false := by decide
theorem smoke_dwrite_pin : (Instr.dwrite 16 1).wellFormed 1 = false := by decide
theorem smoke_dwrite_level : (Instr.dwrite 3 2).wellFormed 1 = false := by decide
theorem smoke_post_kind : (Instr.post 5 0).wellFormed 1 = false := by decide
theorem smoke_post_param : (Instr.post 3 0xFFFFFFFF).wellFormed 1 = false := by decide
theorem smoke_retrytick_slot : (Instr.retrytick 1).wellFormed 1 = false := by decide
theorem smoke_wrcfg_reg : (Instr.wrcfg 3 0).wellFormed 1 = false := by decide
theorem smoke_rdcfg_reg : (Instr.rdcfg 0x08).wellFormed 1 = false := by decide
theorem smoke_rdcfg_channel : (Instr.rdcfg 0x11).wellFormed 1 = false := by decide
theorem smoke_rdcfg_shadow : (Instr.rdcfg 0x36).wellFormed 1 = false := by decide

/-! ## Decoding: every constructor, a word written out from R91, R92 and R95 -/

theorem test_decode_engine :
    whole [0x10, 0x04, 0x05] (.i2cinit 4 5) && whole [0x11, 0x01] (.setlines 1) && whole [0x12] .start && whole [0x13] .stop
      && whole [0x14, 0x40] (.sendbyte 0x40) && whole [0x15] .readack && whole [0x16, 0x01] (.sendack 1) && whole [0x17] .ack
      && whole [0x18] .nack && whole [0x19] .readbyte = true := by decide

theorem test_decode_driver :
    whole [0x20, 0x04, 0x05, 0xFF, 0x3F, 0xAA, 0x55, 0x01, 0x02] (.begin 4 5 0xFF 0x3F 0xAA 0x55 1 2)
      && whole [0x21, 0x03, 0x01] (.pinmode 3 1) && whole [0x22, 0x09, 0x02] (.pudctl 9 2) && whole [0x23] .dread16
      && whole [0x24, 0x0F] (.dread 15) && whole [0x25, 0x01, 0x80] (.dwrite16 0x8001) && whole [0x26, 0x0F, 0x01] (.dwrite 15 1)
      && whole [0x27] .dumpregs = true := by decide

theorem test_decode_debounce : whole [0x30, 0x01] (.sample 1) = true := by decide

theorem test_decode_dispatcher :
    whole [0x40, 0x01, 0x04, 0x03, 0x02, 0x01] (.post 1 0x01020304) && whole [0x41] .dispatch && whole [0x42] .mintick
      && whole [0x43, 0x08] (.retrytick 8) && whole [0x44] .leveltick && whole [0x45, 0x00, 0x1E, 0x00, 0x00, 0x00] (.wrcfg 0 30)
      && whole [0x46, 0x03] (.rdcfg 3) = true := by decide

/-- The corner cases of spec/95_test_vectors.md "Decoding corner cases". -/
theorem test_decode_corners :
    decode [0x1A, 0x12] = .illegal 0x1A [0x12] ∧ decode [0x00] = .illegal 0x00 [] ∧ decode [0x28] = .illegal 0x28 []
      ∧ decode [0x31] = .illegal 0x31 [] ∧ decode [0x47] = .illegal 0x47 [] ∧ decode [0x50] = .illegal 0x50 []
      ∧ decode [0xFF] = .illegal 0xFF [] ∧ decode [0x21, 0x10, 0x01, 0x12] = .ok (.pinmode 16 1) [0x12]
      ∧ decode [0x40, 0x05, 0, 0, 0] = .incomplete := by decide

/-- R100: names, indexed names, binary numbers, blanks and comments; and lines that are no command. -/
theorem test_assemble :
    assembleBytes Config.reference ["RDCFG SHADOW(18)", "", "  SAMPLE 0b101 ; three", "PUDCTL 9, PUD_UP"]
        = some [0x46, 0x32, 0x30, 0x05, 0x22, 0x09, 0x02]
      ∧ assembleBytes Config.reference ["SETLINES 0, 2"] = none ∧ assembleBytes Config.reference ["NOSUCH"] = none := by decide

/-! ## U1 -/

-- W15
theorem test_i2cinit : after (exec (.i2cinit 4 5) (linesAt ⟨false, false⟩ noDevice)) (fun t =>
    decide (t.wave = slots [11] ∧ t.lines = ⟨true, true⟩ ∧ t.i2c.sdaPin = 4 ∧ t.i2c.sclPin = 5)) = true := by decide
-- W16, and R112's example: SDA falls under high SCL
/-- R113: both lines rising in one slot are neither START nor STOP for a device that sees SCL rise first (U5 admits the other readings). -/
theorem test_both_lines_rise :
    ((device none none).onStart.bothEdges Config.reference ⟨false, false⟩ ⟨true, true⟩ .sclAlone).sel = .addr
      ∧ ((device none none).onStart.bothEdges Config.reference ⟨false, false⟩ ⟨true, true⟩ .sclFirst).sel = .none := by decide

theorem test_setlines : after (exec (.setlines 1) (bench noDevice)) (fun t =>
    decide (t.wave = slots [1] ∧ t.lines = ⟨false, true⟩)) = true := by decide
-- W17
theorem test_setlines_reserved : after (exec (.setlines 4) (bench noDevice)) (fun t =>
    result .invalidArg 0 0 t && decide (t.wave = [])) = true := by decide
-- W2, W3
theorem test_start : after (exec .start (linesAt ⟨true, false⟩ noDevice)) (fun t => decide (t.wave = slots [10, 11, 1]))
    && after (exec .start (linesAt ⟨false, true⟩ noDevice)) (fun t => decide (t.wave = slots [11, 11, 1])) = true := by decide
-- W4, W5
theorem test_stop : after (exec .stop (linesAt ⟨true, false⟩ noDevice)) (fun t => decide (t.wave = slots [0, 1, 11]))
    && after (exec .stop (bench noDevice)) (fun t => decide (t.wave = slots [1, 1, 11])) = true := by decide
-- W8
theorem test_sendbyte : after (exec (.sendbyte 0xA5) (linesAt ⟨true, false⟩ noDevice)) (fun t =>
    decide (t.wave = slots [10, 10, 11, 10, 0, 1, 0, 10, 11, 10, 0, 1, 0, 0, 1, 0, 10, 11, 10, 0, 1, 0, 10, 11, 10])) = true := by
  decide
-- W9
theorem test_readack : after (exec .readack (linesAt ⟨false, false⟩ (script [false]))) (fun t =>
    result .ok 0 1 t && decide (t.wave = slots [0, 10, 11, 10])) = true := by decide
-- W10
theorem test_readack_nothing : after (exec .readack (linesAt ⟨false, false⟩ noDevice)) (result .ok 0 0) = true := by decide
-- W11
theorem test_sendack : after (exec (.sendack 1) (linesAt ⟨true, false⟩ noDevice)) (fun t =>
    decide (t.wave = slots [10, 0, 1, 0, 10])) = true := by decide
-- W18
theorem test_sendack_refused : after (exec (.sendack 2) (bench noDevice)) (fun t =>
    result .invalidArg 0 0 t && decide (t.wave = [])) = true := by decide
-- W11, W12
theorem test_ack : after (exec .ack (linesAt ⟨true, false⟩ noDevice)) (fun t => decide (t.wave = slots [10, 0, 1, 0, 10])) = true := by
  decide
theorem test_nack : after (exec .nack (linesAt ⟨true, false⟩ noDevice)) (fun t => decide (t.wave = slots [10, 10, 11, 10, 10])) = true := by
  decide
-- W13
theorem test_readbyte : after (exec .readbyte (linesAt ⟨true, false⟩ (script [true, false, true, false, false, true, false, true])))
    (fun t => result .ok 0 0xA5 t && decide (t.wave.length = 18)) = true := by decide
-- W14
theorem test_readbyte_nothing : after (exec .readbyte (linesAt ⟨true, false⟩ noDevice)) (result .ok 0 0xFF) = true := by decide

/-! ## U2 -/

-- X2
theorem test_begin_nothing : after (exec (.begin 4 5 0xFF 0x3F 0 0 0 0) (bench noDevice)) (fun t =>
    result .nakAddr 0 0 t && decide (t.shadow = [(0, 0xFF), (1, 0x3F)] ∧ t.synced = false ∧ t.wave.length = 36)) = true := by decide +kernel
-- X3, against an oracle that withholds the acknowledge of data byte 5
theorem test_begin_torn : after (exec (.begin 4 5 0xFF 0x3F 0xAA 0x55 1 2)
      (bench (script [false, false, false, false, false, false, false, true]))) (fun t =>
    result .nakData 5 0 t && decide (t.synced = false
      ∧ t.shadow = [(0, 0xFF), (1, 0x3F), (2, 1), (3, 2), (12, 0xAA), (13, 0x55)])) = true := by decide +kernel

/-- An environment that acknowledges ten bytes. -/
def acks : Env := script (List.replicate 10 false)

-- X4
theorem test_pinmode : after (exec (.pinmode 8 2) { bench acks with shadow := [(0, 0xFF), (1, 0xFF)] }) (fun t =>
    result .ok 0 0 t && decide (t.shadow = [(0, 0xFF), (1, 0xFF), (13, 0x01)])) = true := by decide +kernel
-- X4c
theorem test_pudctl : after (exec (.pudctl 9 2) { bench acks with shadow := [(13, 0x01)] }) (fun t =>
    result .ok 0 0 t && decide (t.shadow = [(13, 0x03)] ∧ t.wave.length = 122)) = true := by decide +kernel
-- X15
theorem test_pudctl_down : after (exec (.pudctl 3 1) (bench acks)) (fun t => result .invalidArg 0 0 t && decide (t.wave = [])) = true := by
  decide
-- X9
theorem test_dread16 : after (exec .dread16 (bench (script ([false, false, false] ++ levelsOf 0xA5 ++ levelsOf 0x3C)))) (fun t =>
    result .ok 0 0x3CA5 t && decide (t.shadow = [(18, 0xA5), (19, 0x3C)])) = true := by decide +kernel
-- X11
theorem test_dread16_nak : after (exec .dread16 { bench (script [false, false, true]) with shadow := [(18, 7)] }) (fun t =>
    result .nakAddr 1 7 t && decide (t.wave.length = 96)) = true := by decide +kernel
-- X10
theorem test_dread : after (exec (.dread 13) (bench (script ([false, false, false] ++ levelsOf 0xA5 ++ levelsOf 0x3C))))
    (result .ok 0 1) = true := by decide +kernel
-- X5, against the reference device with the fault of R81
theorem test_dwrite16_torn : after (exec (.dwrite16 0x8001) (bench ⟨.reference (device (some 3) none), [], 0⟩)) (fun t =>
    result .nakData 1 0 t && decide (t.shadow = [(18, 0x01)])
      && (match t.env.slave with
          | .reference d => decide (d.reg = [(18, 0x01)])
          | .absent => false
          | .oracle _ => false)) = true := by decide +kernel
-- X7
theorem test_dwrite16_pointer : after (exec (.dwrite16 0x8001) (bench ⟨.reference (device (some 1) none), [], 0⟩)) (fun t =>
    result .nakPtr 0 0 t && decide (t.shadow = [] ∧ t.wave.length = 64)) = true := by decide +kernel
-- X13
theorem test_dwrite : after (exec (.dwrite 15 1) { bench acks with shadow := [(18, 0x01)] }) (fun t =>
    result .ok 0 0 t && decide (t.shadow = [(18, 0x01), (19, 0x80)])) = true := by decide +kernel
-- X14
theorem test_dwrite_low : after (exec (.dwrite 0 0) { bench acks with shadow := [(18, 0x01), (19, 0x80)] }) (fun t =>
    decide (t.shadow = [(19, 0x80)])) = true := by decide +kernel
-- X16, with the bytes sent by an oracle
theorem test_dumpregs : after (exec .dumpregs (bench (script
      ([false, false, false] ++ ([0xF7, 0x3F] ++ List.replicate 20 0).flatMap levelsOf)))) (fun t =>
    result .ok 0 0 t && decide (t.res.data = [0xF7, 0x3F] ++ List.replicate 20 0)) = true := by
  have h := (xread_oracle (a := []) (k := 0) 0 false ([0xF7, 0x3F] ++ List.replicate 20 0) []
    (bench (script ([false, false, false] ++ ([0xF7, 0x3F] ++ List.replicate 20 0).flatMap levelsOf)))
    (by simp [bench, script, State.resetWith])).1
  generalize bench (script ([false, false, false] ++ ([0xF7, 0x3F] ++ List.replicate 20 0).flatMap levelsOf)) = s at *
  have h' : (xread 0 nReg false s).1 = _ := h
  simp [exec, execDumpregs, h', after, finish, result, State.setResult]

/-! ## U3 -/

/-- The bench with channel 0 at this count. -/
def counting (n : Int) (q : List Signal) : State :=
  { bench noDevice with chans := [⟨ChannelCfg.door, n, none⟩], queue := q }

-- B8, B3
theorem test_sample_reset : after (exec (.sample 1) (counting (-3) [])) (fun t => decide (t.cnt 0 = some 1 ∧ t.queue = []))
    && after (exec (.sample 0) (counting 5 [])) (fun t => decide (t.cnt 0 = some (-1))) = true := by decide
-- B1, B2, B10
theorem test_sample_fires : after (exec (.sample 1) (counting 4 [])) (fun t => decide (t.cnt 0 = some 5 ∧ t.queue = [⟨.doorEdge, 1⟩]))
    && after (exec (.sample 1) (counting 5 [])) (fun t => decide (t.cnt 0 = some 5 ∧ t.queue = []))
    && after (exec (.sample 1) (counting 4 [⟨.actSet, 1⟩])) (fun t =>
      decide (t.retry (.dbn 0) = some ⟨.doorEdge, 1⟩ ∧ t.queue = [⟨.actSet, 1⟩])) = true := by decide

/-! ## U4 -/

-- A1, A2, A4
theorem test_post : after (exec (.post 1 1) (bench noDevice)) (fun t => result .ok 0 1 t && decide (t.queue = [⟨.actSet, 1⟩]))
    && after (exec (.post 3 1) (queued [⟨.actSet, 1⟩] noDevice)) (fun t => result .queueFull 0 0 t && decide (t.queue.length = 1))
    && after (exec (.post 2 7) (bench noDevice)) (fun t => decide (t.queue = [⟨.levelSample, 0⟩])) = true := by decide
-- A3
theorem test_post_refused : after (exec (.post 1 2) (bench noDevice)) (result .invalidArg 0 0)
    && after (exec (.post 0 0) (bench noDevice)) (result .invalidArg 0 0) = true := by decide
-- A15
theorem test_dispatch_upgrade : after (exec .dispatch { queued [⟨.upgrade, 0⟩] ⟨.absent, [false], 0⟩ with upgVersion := 0x01020304 })
    (fun t => result .ok 0 1 t && decide (t.upgLog = [0x01020304] ∧ t.upgVersion = 0 ∧ t.upgLast = false)) = true := by decide
-- P5 step 3 against an oracle that reads 0x4007
theorem test_dispatch_level : after (exec .dispatch (queued [⟨.levelSample, 0⟩] (script (List.replicate 7 false ++ levelsOf 0x07
      ++ levelsOf 0x40 ++ List.replicate 4 false)))) (fun t =>
    decide (t.pub = [("Cistern level", "30")] ∧ t.delayLog = [50] ∧ t.shadow = [(18, 0x07)]
      ∧ t.dspErr.flag = false)) = true := by decide +kernel
-- A7, A8, A9
theorem test_mintick :
    after (exec .mintick { bench noDevice with minArmed := true, actOn := true, actCountdown := 1 }) (fun t =>
      result .ok 0 1 t && decide (t.actCountdown = 0 ∧ t.minArmed = false ∧ t.queue = [⟨.actSet, 0⟩] ∧ t.actOn = true))
    && after (exec .mintick { queued [⟨.doorEdge, 1⟩] noDevice with minArmed := true, actCountdown := 1 }) (fun t =>
      decide (t.heldAct = some ⟨.actSet, 0⟩))
    && after (exec .mintick { bench noDevice with minArmed := true, actCountdown := 0 }) (fun t =>
      decide (t.actCountdown = 0 ∧ t.queue = [⟨.actSet, 0⟩])) = true := by decide
-- A6
theorem test_mintick_disarmed : after (exec .mintick (bench noDevice)) (result .ok 0 0) = true := by decide
-- A10, A11, A12
theorem test_retrytick :
    after (exec (.retrytick 8) { bench noDevice with heldAct := some ⟨.actSet, 0⟩ }) (fun t =>
      result .ok 0 1 t && decide (t.queue = [⟨.actSet, 0⟩] ∧ t.heldAct = none))
    && after (exec (.retrytick 8) { queued [⟨.doorEdge, 1⟩] noDevice with heldAct := some ⟨.actSet, 0⟩ }) (fun t =>
      result .queueFull 0 0 t && decide (t.heldAct = some ⟨.actSet, 0⟩))
    && after (exec (.retrytick 9) (bench noDevice)) (result .ok 0 0) = true := by decide
-- A13
theorem test_retrytick_refused : after (exec (.retrytick 1) (bench noDevice)) (result .invalidArg 0 0)
    && after (exec (.retrytick 10) (bench noDevice)) (result .invalidArg 0 0) = true := by decide
-- A14
theorem test_leveltick : after (exec .leveltick (queued [⟨.actSet, 1⟩] noDevice)) (fun t =>
    decide (t.heldLvl = some ⟨.levelSample, 0⟩ ∧ t.queue = [⟨.actSet, 1⟩])) = true := by decide
-- R187's example, A17
theorem test_wrcfg : after (exec (.wrcfg 0 30) (bench noDevice)) (fun t => decide (t.actDuration = 30))
    && after (exec (.wrcfg 3 0) (bench noDevice)) (result .invalidArg 0 0)
    && after (exec (.wrcfg 0x10 0) (bench noDevice)) (result .invalidArg 0 0) = true := by decide
-- A18
theorem test_wrcfg_clears : after (exec (.wrcfg 2 0) { bench noDevice with dspErr := ⟨true, .nakAddr, 0⟩ }) (fun t =>
    decide (t.dspErr = ⟨false, .ok, 0⟩)) = true := by decide
-- A16, A19, A18, P6 step 6
theorem test_rdcfg :
    after (exec (.rdcfg 3) { bench noDevice with minArmed := true, actOn := true, actCountdown := 29 }) (fun t =>
      decide (t.res.word = 0x0003001D))
    && after (exec (.rdcfg 0x10) (counting (-5) [])) (fun t => decide (t.res.word = 0xFFFFFFFB))
    && after (exec (.rdcfg 2) { bench noDevice with dspErr := ⟨true, .nakAddr, 0⟩ }) (fun t => decide (t.res.word = 0x00010100))
    && after (exec (.rdcfg 6) { queued [⟨.levelSample, 0⟩] noDevice with chans := [⟨ChannelCfg.door, 5, some ⟨.doorEdge, 1⟩⟩] })
      (fun t => decide (t.res.word = 0x00010001)) = true := by decide
-- A17
theorem test_rdcfg_refused : after (exec (.rdcfg 8) (bench noDevice)) (fun t => result .invalidArg 0 0 t && decide (t.res.word = 0))
    && after (exec (.rdcfg 0x36) (bench noDevice)) (result .invalidArg 0 0) = true := by decide

/-- R191: the six patterns of spec/95_test_vectors.md. -/
theorem test_percent : [0b0000000111, 0, 0b1111111111, 0b0000001011, 0b1111111110, 0b0111111111].map percent
    = [30, 0, 100, 20, 0, 90] := by decide

/-! ## The ports and the step -/

/-- The result port after `RDCFG ACT_STATE` of A16. -/
theorem test_step_port : after (step { bench noDevice with cmd := [0x46, 0x03, 0x12], minArmed := true, actOn := true, actCountdown := 29 })
    (fun t => decide (t.port = [0, 0, 0, 0, 0x1D, 0x00, 0x03, 0x00] ∧ t.cmd = [0x12])) = true := by decide

/-- `1A 12`: the illegal byte is consumed alone. -/
theorem test_step_illegal : after (step { bench noDevice with cmd := [0x1A, 0x12] }) (fun t =>
    result .illegalCmd 0 0 t && decide (t.cmd = [0x12] ∧ t.wave = [] ∧ t.port = [6, 0, 0, 0])) = true := by decide

/-- From the machine right after reset, the next step runs the word placed by `withFetchWord`, and consumes it. -/
theorem test_step_fetch : after (step (State.reset.withFetchWord 16 0x0111)) (fun t =>
    result .ok 0 0 t && decide (t.wave = slots [1] ∧ t.cmd = [] ∧ t.port = [0, 0, 0, 0])) = true := by decide

/-- Right after reset every word of spec/opcode_table.json runs as the first command, whatever the bus answers. -/
theorem test_first_step : [(24, 0x050410), (16, 0x0111), (8, 0x12), (8, 0x13), (16, 0x4014), (8, 0x15), (16, 0x0116), (8, 0x17), (8, 0x18),
      (8, 0x19), (72, 0x000000003FFF050420), (24, 0x010321), (24, 0x020922), (8, 0x23), (16, 0x0F24), (24, 0x800125), (24, 0x010F26),
      (8, 0x27), (16, 0x0130), (48, 0x000000010140), (8, 0x41), (8, 0x42), (16, 0x0843), (8, 0x44), (48, 0x0000001E0045),
      (16, 0x0346)].all (fun p => after (step (State.reset.withFetchWord p.1 p.2)) fun _ => true) = true := by decide

/-! ## Witnesses: states and operands that meet the hypotheses of the obligations -/

theorem after_next {o : Host.Outcome State Fault Refusal} {p : State → Bool} (h : after o p = true) : ∃ t, o = .next t ∧ p t = true := by
  cases o with
  | next t => exact ⟨t, rfl, h⟩
  | fault r => cases h
  | refused r => cases h

/-- A state with something in every part: a door signal waiting, the actuator on, a held minute signal, a shadow, a device. -/
def busy : State :=
  { bench ⟨.reference { device (some 3) (some 7) with reg := [(0, 0xFF), (21, 1)], ptr := 21 }, [true], 3⟩ with
    cmd := [0x41], shadow := [(0, 0xFF), (21, 0x80)], synced := true, queue := [⟨.doorEdge, 1⟩], heldAct := some ⟨.actSet, 0⟩,
    heldLvl := some ⟨.levelSample, 0⟩, actOn := true, actCountdown := 29, minArmed := true, actDuration := 30, upgVersion := 7,
    chans := [⟨ChannelCfg.door, 5, some ⟨.doorEdge, 0⟩⟩] }

theorem busy_inv : busy.Inv where
  cfg := by decide
  nch_pos := by decide
  nch_le := by decide
  chans := by
    intro ch h
    rw [List.mem_singleton.mp h]
    exact ⟨by decide, by decide, by decide, by decide⟩
  queue_len := by decide
  queue_wf := by decide
  heldAct := by decide
  heldLvl := by decide
  actOff := by decide
  shadow_wf := by decide
  shadow_rng := by decide
  data_len := by decide
  env := by
    intro d h
    injection h with h
    subst h
    exact ⟨by decide, by decide, by decide⟩

theorem witness_DecodedCommandIsItsEncoding : decode [0x11, 0x01, 0x12] = .ok (.setlines 1) [0x12] := by decide

theorem witness_OpcodeByteDecidesLength :
    (∀ op ∈ [(0x00 : Byte), 0x0F, 0x1A, 0x1F, 0x28, 0x2F, 0x31, 0x3F, 0x47, 0x4F, 0x50, 0xFF], IllegalOpcode op)
      ∧ ¬ IllegalOpcode 0x20 ∧ (List.replicate 7 (0 : Byte)).length + 1 < commandLength 0x20
      ∧ commandLength 0x20 ≤ (List.replicate 8 (0 : Byte)).length + 1 := by unfold IllegalOpcode; decide

theorem witness_IllegalCommandsLeaveOnlyTheirResult :
    { bench noDevice with cmd := [0x1A, 0x12] }.cmd = 0x1A :: [0x12] ∧ IllegalOpcode 0x1A
      ∧ (Instr.pinmode 16 1).wellFormed (bench noDevice).nch = false ∧ (∀ reg, Instr.pinmode 16 1 ≠ .rdcfg reg)
      ∧ (Instr.rdcfg 0x08).wellFormed (bench noDevice).nch = false := by
  refine ⟨rfl, by unfold IllegalOpcode; decide, by decide, (by intro reg h; cases h), by decide⟩

theorem witness_InvalidArgIffOperandsOutOfRange :
    after (exec (.dread 16) (bench noDevice)) (fun t => decide (t.res.status = .invalidArg)) = true
      ∧ after (exec (.dread 15) (bench noDevice)) (fun t => decide (t.res.status ≠ .invalidArg)) = true := by decide +kernel

theorem witness_StepRunsDecodedCommand :
    decode { bench noDevice with cmd := [0x26, 0x0F, 0x01, 0x41] }.cmd = .ok (.dwrite 15 1) [0x41] := by decide

theorem witness_ResultPortPresentsRecord :
    ∀ p ∈ [([0x27], Instr.dumpregs), ([0x46, 0x03], .rdcfg 3), ([0x12], .start)],
      decode { bench noDevice with cmd := p.1 }.cmd = .ok p.2 [] ∧ ∃ t, step { bench noDevice with cmd := p.1 } = .next t := by
  intro p hp
  simp only [List.mem_cons, List.not_mem_nil, or_false] at hp
  rcases hp with rfl | rfl | rfl
  · exact ⟨rfl, _, rfl⟩
  · exact ⟨rfl, _, rfl⟩
  · exact ⟨rfl, _, rfl⟩

theorem witness_StepWaitsForWholeCommand :
    (bench noDevice).cmd = [] ∧ ¬ IllegalOpcode 0x40 ∧ [(1 : Byte), 1, 0, 0].length + 1 < commandLength 0x40 := by
  refine ⟨rfl, by unfold IllegalOpcode; decide, by decide⟩

theorem witness_ResetHasTheSpecValues : State.reset = State.resetWith Config.reference [ChannelCfg.door] Env.free ∧ State.reset.chans ≠ [] :=
  ⟨rfl, by decide⟩

theorem witness_ResetMeetsTheInvariant :
    Config.reference.wf = true ∧ 1 ≤ [ChannelCfg.door].length ∧ (List.replicate 8 ChannelCfg.door).length ≤ 8
      ∧ ChannelCfg.door.wf = true ∧ (⟨.reference (device none none), [], 0⟩ : Env).Good := by
  refine ⟨by decide, by decide, by decide, by decide, ?_⟩
  intro d h
  injection h with h
  subst h
  exact ⟨by decide, by decide, by decide⟩

theorem witness_StepKeepsTheInvariant : busy.Inv ∧ ∃ t, step busy = .next t := ⟨busy_inv, _, rfl⟩

theorem witness_BusIdleAfterEveryOperation :
    Instr.isDriver (.pudctl 15 2) = true ∧ (Instr.pudctl 15 2).wellFormed busy.nch = true ∧ (∃ t, exec (.pudctl 15 2) busy = .next t)
      ∧ Instr.isEngine .dispatch = false ∧ busy.BusIdle ∧ ∃ t, exec .dispatch busy = .next t :=
  ⟨rfl, rfl, ⟨_, rfl⟩, rfl, rfl, _, rfl⟩

theorem witness_ParametersNeverChange : ∃ t, step busy = .next t := ⟨_, rfl⟩

theorem witness_OutputsOnlyGrow : after (step busy) (fun t => decide (t.pub = [("Garage door", "open")])) = true := by decide

theorem witness_ShadowWrittenOnlyByTheDriver :
    after (exec (.begin 4 5 1 2 3 4 5 6) (bench noDevice)) (fun t => decide (Memory.read t.shadow 2 ≠ 0))
    && after (exec (.pinmode 0 2) (bench acks)) (fun t => decide (Memory.read t.shadow 0 ≠ 0 ∧ Memory.read t.shadow 12 ≠ 0))
    && after (exec (.pudctl 15 2) (bench acks)) (fun t => decide (Memory.read t.shadow 13 ≠ 0))
    && after (exec (.dwrite16 0x8001) (bench acks)) (fun t => decide (Memory.read t.shadow 19 ≠ 0))
    && after (exec .dispatch (queued [⟨.actSet, 1⟩] acks)) (fun t => decide (Memory.read t.shadow 19 ≠ 0)) = true := by
  decide +kernel

theorem witness_CallbackContextStaysOffTheBus :
    Instr.isCallback (.sample 0) = true ∧ (∃ t, exec (.sample 0) busy = .next t) ∧ Instr.isCallback .mintick = true
      ∧ ∃ t, exec .mintick busy = .next t := ⟨rfl, ⟨_, rfl⟩, rfl, _, rfl⟩

theorem witness_StatusChangesOnlyByItsRules :
    after (exec (.begin 4 5 0 0 0 0 0 0) (bench (script (List.replicate 16 false)))) (fun t => decide (t.synced ≠ false))
    && after (exec .dispatch (queued [⟨.actSet, 1⟩] noDevice)) (fun t =>
      decide (t.actOn ≠ false ∧ t.minArmed = true ∧ t.pub ≠ []))
    && after (exec .dispatch { queued [⟨.actSet, 0⟩] noDevice with minArmed := true, actOn := true }) (fun t =>
      decide (t.actOn ≠ true ∧ t.minArmed = false))
    && after (exec .mintick { bench noDevice with minArmed := true }) (fun t => decide (t.minArmed = false))
    && after (exec (.wrcfg 0 30) (bench noDevice)) (fun t => decide (t.actDuration ≠ 0))
    && after (exec (.wrcfg 1 7) (bench noDevice)) (fun t => decide (t.upgVersion ≠ 0))
    && after (exec .dispatch { queued [⟨.upgrade, 0⟩] ⟨.absent, [true], 0⟩ with upgVersion := 7 }) (fun t =>
      decide (t.upgVersion ≠ 7 ∧ t.upgLast ≠ false)) = true := by decide +kernel

theorem witness_HandlerErrorIsSticky :
    after (exec .dispatch (queued [⟨.actSet, 1⟩] noDevice)) (fun t => decide (t.dspErr ≠ ⟨false, .ok, 0⟩))
    && after (exec (.wrcfg 2 0) { bench noDevice with dspErr := ⟨true, .nakAddr, 0⟩ }) (fun t =>
      decide (t.dspErr ≠ ⟨true, .nakAddr, 0⟩)) = true := by decide +kernel

theorem witness_DisabledEventIsNoOp :
    (∀ i ∈ [Instr.mintick, .retrytick 0, .retrytick 8, .retrytick 9],
      i.wellFormed (bench noDevice).nch = true ∧ (bench noDevice).enabled i = false) := by decide

theorem witness_SetlinesDrivesAndRecords : (3 : Byte).toNat < 4 ∧ 4 ≤ (4 : Byte).toNat ∧ 4 ≤ (0xFF : Byte).toNat := by decide

theorem witness_ReadackReportsTheSlaveLevel :
    (bench noDevice).env.slave = .absent ∧ (bench (script [true, false])).env = ⟨.oracle (true :: [false]), [], 0⟩ := ⟨rfl, rfl⟩

theorem witness_SendackDrivesTheFlag : ((1 : Byte) = 1 ∧ false = false) ∧ ((0 : Byte) = 0 ∧ true = true) ∧ 2 ≤ (2 : Byte).toNat := by decide

theorem witness_ReadbyteSamplesMsbFirst :
    (bench noDevice).env.slave = .absent ∧ (bench (script (levelsOf 0xA5 ++ [true]))).env = ⟨.oracle (levelsOf 0xA5 ++ [true]), [], 0⟩ :=
  ⟨rfl, rfl⟩

theorem witness_PrimitiveSlotTable :
    (∀ i ∈ [Instr.start, .stop, .readack, .sendack 0, .sendack 1, .ack, .nack, .readbyte, .i2cinit 4 5, .setlines 3, .sendbyte 0x80],
      after (exec i (bench (script (List.replicate 8 true)))) (fun _ => true) = true)
      ∧ (bench (script (List.replicate 8 true))).env = ⟨.oracle (List.replicate 8 true), [], 0⟩ ∧ 8 ≤ (List.replicate 8 true).length
      ∧ (3 : Byte).toNat < 4 := by decide

/-- The two ends of the range: one byte to register 21, 22 bytes from register 0. -/
theorem witness_WriteBurstOnTheBus :
    (1 ≤ [(0 : Byte)].length ∧ 21 + [(0 : Byte)].length ≤ 22)
      ∧ 1 ≤ (List.replicate 22 (0 : Byte)).length ∧ 0 + (List.replicate 22 (0 : Byte)).length ≤ 22 := by decide

theorem witness_ReadBurstOnTheBus : (1 ≤ 1 ∧ 21 + 1 ≤ 22) ∧ 1 ≤ 22 ∧ 0 + 22 ≤ 22 := by decide

theorem witness_FirstMissingAckDecides :
    (1 ≤ [(1 : Byte), 2].length ∧ 20 + [(1 : Byte), 2].length ≤ 22)
      ∧ (bench (script (true :: []))).env = ⟨.oracle (true :: []), [], 0⟩
      ∧ (bench (script (false :: true :: []))).env = ⟨.oracle (false :: true :: []), [], 0⟩
      ∧ 1 < [(1 : Byte), 2].length
      ∧ (bench (script (false :: false :: (List.replicate 1 false ++ true :: [])))).env
          = ⟨.oracle (false :: false :: (List.replicate 1 false ++ true :: [])), [], 0⟩
      ∧ (bench (script (false :: false :: (List.replicate [(1 : Byte), 2].length false ++ [])))).env
          = ⟨.oracle (false :: false :: (List.replicate [(1 : Byte), 2].length false ++ [])), [], 0⟩
      ∧ (bench (script (false :: false :: true :: []))).env = ⟨.oracle (false :: false :: true :: []), [], 0⟩
      ∧ (bench (script (false :: false :: false :: ([(1 : Byte), 2].flatMap levelsOf ++ [])))).env
          = ⟨.oracle (false :: false :: false :: ([(1 : Byte), 2].flatMap levelsOf ++ [])), [], 0⟩ :=
  ⟨by decide, rfl, rfl, by decide, rfl, rfl, rfl, rfl⟩

theorem witness_SlotCounts :
    (xwrite 20 [1, 2] (bench acks)).1 = ⟨.ok, 0, 0⟩ ∧ (xwrite 20 [1, 2] (bench noDevice)).1 = ⟨.nakAddr, 0, 0⟩
      ∧ (xwrite 20 [1, 2] (bench (script [false, true]))).1 = ⟨.nakPtr, 0, 0⟩
      ∧ (xwrite 20 [1, 2] (bench (script [false, false, false, true]))).1 = ⟨.nakData, 1, 0⟩
      ∧ (xread 21 1 true (bench (script ([false, false, false] ++ levelsOf 7)))).1 = ⟨⟨.ok, 0, 0⟩, [7]⟩
      ∧ (xread 21 1 true (bench noDevice)).1 = ⟨⟨.nakAddr, 0, 0⟩, []⟩
      ∧ (xread 21 1 true (bench (script [false, true]))).1 = ⟨⟨.nakPtr, 0, 0⟩, []⟩
      ∧ (xread 21 1 true (bench (script [false, false, true]))).1 = ⟨⟨.nakAddr, 1, 0⟩, []⟩ := by decide +kernel

theorem witness_SlotCounts_operations :
    after (exec (.begin 4 5 0 0 0 0 0 0) (bench (script (List.replicate 16 false)))) (result .ok 0 0)
    && after (exec (.pinmode 15 2) (bench acks)) (result .ok 0 0)
    && after (exec (.dwrite 0 0) (bench acks)) (result .ok 0 0)
    && after (exec .dread16 (bench (script (List.replicate 19 false)))) (result .ok 0 0)
    && after (exec .dispatch (queued [⟨.actSet, 0⟩] acks)) (fun t => decide (t.dspErr.flag = false))
    && after (exec .dispatch (queued [⟨.levelSample, 0⟩] (script (List.replicate 27 false)))) (fun t =>
      decide (t.dspErr.flag = false)) = true := by decide +kernel

theorem witness_ConditionsOnlyAtStartAndStop :
    (bench acks).BusIdle ∧ (1 ≤ [(0 : Byte)].length ∧ 21 + [(0 : Byte)].length ≤ 22) ∧ (1 ≤ 22 ∧ 0 + 22 ≤ 22) := ⟨rfl, by decide, by decide⟩

/-- The three modes, at the last pin of either port. -/
theorem witness_PinmodeWritesBothPairs : (15 : Byte).toNat ≤ 15 ∧ (7 : Byte).toNat ≤ 15
    ∧ ∀ x ∈ [((0 : Byte), true, false), (1, false, false), (2, true, true)],
      (x.1 = 0 ∧ x.2.1 = true ∧ x.2.2 = false ∨ x.1 = 1 ∧ x.2.1 = false ∧ x.2.2 = false ∨ x.1 = 2 ∧ x.2.1 = true ∧ x.2.2 = true) := by
  decide +kernel

/-- The refused operands of the driver operations, at the edge of each range. -/
theorem witness_driver_refusals : 16 ≤ (16 : Byte).toNat ∧ 3 ≤ (3 : Byte).toNat ∧ (1 : Byte).toNat = 1 ∧ 2 ≤ (2 : Byte).toNat := by decide

theorem witness_PudctlWritesThePullupPair : (15 : Byte).toNat ≤ 15
    ∧ ∀ x ∈ [((0 : Byte), false), (2, true)], (x.1 = 0 ∧ x.2 = false ∨ x.1 = 2 ∧ x.2 = true) := by decide +kernel

theorem witness_DwriteSetsOneBit : (15 : Byte).toNat ≤ 15
    ∧ ∀ x ∈ [((0 : Byte), false), (1, true)], (x.1 = 0 ∧ x.2 = false ∨ x.1 = 1 ∧ x.2 = true) := by decide +kernel

theorem witness_Dread16ReadsTheGpioPair :
    (bench (script (false :: false :: false :: (levelsOf 0xA5 ++ levelsOf 0x3C ++ [])))).env
        = ⟨.oracle (false :: false :: false :: (levelsOf 0xA5 ++ levelsOf 0x3C ++ [])), [], 0⟩
      ∧ Memory.wf (bench acks).shadow := ⟨rfl, by decide⟩

theorem witness_DreadGivesOneBit : (0 : Byte).toNat ≤ 15 ∧ (15 : Byte).toNat ≤ 15 := by decide

theorem witness_DumpregsFillsTheData :
    (List.replicate 22 (0x5A : Byte)).length = 22
      ∧ (bench (script (false :: false :: false :: ((List.replicate 22 (0x5A : Byte)).flatMap levelsOf ++ [])))).env
        = ⟨.oracle (false :: false :: false :: ((List.replicate 22 (0x5A : Byte)).flatMap levelsOf ++ [])), [], 0⟩ := ⟨rfl, rfl⟩

theorem witness_TornWrite :
    (bench ⟨.reference (device (some 3) none), [], 0⟩).env = ⟨.reference (device (some 3) none), [], 0⟩
      ∧ (device (some 3) none).inTx = false ∧ (device (some 3) none).nakAt = some 3 ∧ Config.reference.wf = true
      ∧ (bench ⟨.reference (device (some 3) none), [], 0⟩).BusIdle
      ∧ Memory.wf (bench ⟨.reference (device (some 3) none), [], 0⟩).shadow
      ∧ (∀ i ∈ [Instr.dwrite16 0x8001, .pudctl 15 2, .pudctl 7 0, .pudctl 0 2, .pinmode 15 1, .pinmode 7 0, .pinmode 0 2],
        i.wellFormed (bench ⟨.reference (device (some 3) none), [], 0⟩).nch = true) :=
  ⟨rfl, rfl, rfl, by decide, rfl, by decide, by decide⟩

theorem witness_PinRoundTrip :
    (∀ pins : Option Half, (device none pins).inTx = false ∧ (device none pins).nakAt = none ∧ (device none pins).Good
      ∧ (bench ⟨.reference (device none pins), [], 0⟩).env = ⟨.reference (device none pins), [], 0⟩
      ∧ (bench ⟨.reference (device none pins), [], 0⟩).BusIdle)
      ∧ (device none none).pins = none ∧ Config.reference.wf = true ∧ (15 : Byte).toNat ≤ 15 := by
  refine ⟨fun pins => ⟨rfl, rfl, ⟨?_, ?_, ?_⟩, rfl, rfl⟩, rfl, by decide, by decide⟩
  · show Memory.wf []
    decide
  · show Memory.inRange []
    decide
  · show 0 < 22
    decide

/-- The bench with the plain device, and an operation that runs there. -/
theorem witness_RegistersStayCoherent :
    Config.reference.wf = true ∧ Memory.wf (bench ⟨.reference (device none none), [], 0⟩).shadow
      ∧ (bench ⟨.reference (device none none), [], 0⟩).Coherent ∧ Instr.isEngine (.pudctl 3 2) = false
      ∧ (∃ t, exec (.pudctl 3 2) (bench ⟨.reference (device none none), [], 0⟩) = .next t)
      ∧ ∃ t, exec (.begin 4 5 1 2 3 4 5 6) (bench ⟨.reference (device none none), [], 0⟩) = .next t := by
  refine ⟨by decide, by decide, ⟨⟨rfl, _, _, _, rfl, rfl, rfl, rfl, ?_, ?_, ?_⟩, ?_⟩, rfl, ⟨_, rfl⟩, _, rfl⟩
  · show Memory.wf []
    decide
  · show Memory.inRange []
    decide
  · show 0 < 22
    decide
  · intro d acks n h r _
    injection h with h
    injection h with h
    subst h
    rfl

/-- Two channels at the two bounds, one of them holding a signal. -/
def twoChannels : State :=
  { bench noDevice with chans := [⟨ChannelCfg.door, 5, none⟩, ⟨ChannelCfg.door, -5, some ⟨.doorEdge, 1⟩⟩] }

theorem witness_SampleStepsEveryCounter : 1 ≤ twoChannels.cfg.nDeb
    ∧ twoChannels.chans[0]? = some ⟨ChannelCfg.door, 5, none⟩
    ∧ twoChannels.chans[1]? = some ⟨ChannelCfg.door, -5, some ⟨.doorEdge, 1⟩⟩
    ∧ -(twoChannels.cfg.nDeb : Int) ≤ -5 ∧ (5 : Int) ≤ (twoChannels.cfg.nDeb : Int) := by decide

theorem witness_SamplePostsConfirmedEdges : 1 ≤ twoChannels.cfg.nDeb
    ∧ (∀ ch ∈ twoChannels.chans, -(twoChannels.cfg.nDeb : Int) ≤ ch.cnt ∧ ch.cnt ≤ (twoChannels.cfg.nDeb : Int))
    ∧ postings 5 1 0 [⟨ChannelCfg.door, 4, none⟩] = [⟨.doorEdge, 1⟩] := by decide

/-- From either confirmed state, at a run shorter than N and at N. -/
theorem witness_DebounceNeedsNSamples :
    ∀ x ∈ [((-5 : Int), (1 : Byte), (0 : Byte)), (0, 1, 0), (5, 0, 1), (0, 0, 1)],
      (counting x.1 []).chans = [⟨ChannelCfg.door, x.1, none⟩] ∧ (counting x.1 []).queue.length < (counting x.1 []).cfg.qcap
        ∧ 2 ≤ (counting x.1 []).cfg.nDeb ∧ 4 < (counting x.1 []).cfg.nDeb ∧ -((counting x.1 []).cfg.nDeb : Int) ≤ x.1
        ∧ x.1 ≤ ((counting x.1 []).cfg.nDeb : Int)
        ∧ (x.2.1.getLsbD 0 = ChannelCfg.door.activeLevel ∧ x.1 ≤ 0 ∧ x.2.2.getLsbD 0 ≠ ChannelCfg.door.activeLevel
          ∨ x.2.1.getLsbD 0 ≠ ChannelCfg.door.activeLevel ∧ 0 ≤ x.1 ∧ x.2.2.getLsbD 0 = ChannelCfg.door.activeLevel) := by decide

theorem witness_PostEnqueuesOrRefuses :
    (∀ x ∈ [((1 : Byte), (1 : Word), (⟨.actSet, 1⟩ : Signal)), (2, 0xFFFFFFFF, ⟨.levelSample, 0⟩), (3, 0, ⟨.doorEdge, 0⟩),
        (4, 7, ⟨.upgrade, 0⟩)],
      (x.1 = 1 ∧ x.2.1.toNat ≤ 1 ∧ x.2.2 = ⟨.actSet, x.2.1⟩ ∨ x.1 = 2 ∧ x.2.2 = ⟨.levelSample, 0⟩
        ∨ x.1 = 3 ∧ x.2.1.toNat ≤ 1 ∧ x.2.2 = ⟨.doorEdge, x.2.1⟩ ∨ x.1 = 4 ∧ x.2.2 = ⟨.upgrade, 0⟩))
      ∧ (bench noDevice).queue.length < (bench noDevice).cfg.qcap ∧ busy.cfg.qcap ≤ busy.queue.length := by decide

theorem witness_PostEnqueuesOrRefuses_refusals :
    5 ≤ (5 : Byte).toNat ∧ 2 ≤ (2 : Word).toNat ∧ 5 ≤ (0xFF : Byte).toNat := by decide

theorem witness_DispatchConsumesTheHead : (bench noDevice).queue = [] ∧ busy.queue = ⟨.doorEdge, 1⟩ :: [] := ⟨rfl, rfl⟩

theorem witness_RetrytickDeliversTheHeldSignal :
    twoChannels.nch ≤ 8 ∧ twoChannels.chans[(0 : Byte).toNat]? = some ⟨ChannelCfg.door, 5, none⟩
      ∧ twoChannels.chans[(1 : Byte).toNat]? = some ⟨ChannelCfg.door, -5, some ⟨.doorEdge, 1⟩⟩
      ∧ twoChannels.queue.length < twoChannels.cfg.qcap ∧ busy.cfg.qcap ≤ busy.queue.length
      ∧ busy.chans[(0 : Byte).toNat]? = some ⟨ChannelCfg.door, 5, some ⟨.doorEdge, 0⟩⟩
      ∧ twoChannels.heldAct = none ∧ twoChannels.heldLvl = none ∧ busy.heldAct = some ⟨.actSet, 0⟩
      ∧ busy.heldLvl = some ⟨.levelSample, 0⟩ ∧ { busy with queue := [] }.queue.length < busy.cfg.qcap
      ∧ twoChannels.nch ≤ (2 : Byte).toNat ∧ (2 : Byte).toNat ≠ 8 ∧ twoChannels.nch ≤ (10 : Byte).toNat ∧ (10 : Byte).toNat ≠ 9 := by decide

theorem witness_MintickCountsDown :
    (bench noDevice).minArmed = false ∧ busy.minArmed = true ∧ 2 ≤ busy.actCountdown.toNat
      ∧ { busy with actCountdown := 0 }.actCountdown.toNat ≤ 1 ∧ { busy with actCountdown := 1 }.actCountdown.toNat ≤ 1
      ∧ { busy with heldAct := none, queue := [] }.queue.length < busy.cfg.qcap ∧ busy.heldAct ≠ none
      ∧ busy.cfg.qcap ≤ busy.queue.length := by decide

theorem witness_MinuteTicksReachOff :
    { busy with heldAct := none, queue := [], actCountdown := 3 }.minArmed = true
      ∧ 1 ≤ { busy with heldAct := none, queue := [], actCountdown := 3 }.actCountdown.toNat
      ∧ { busy with heldAct := none, queue := [] }.heldAct = none
      ∧ { busy with heldAct := none, queue := [] }.queue.length < busy.cfg.qcap := by decide

theorem witness_LeveltickPostsOrHolds :
    (bench noDevice).heldLvl = none ∧ (bench noDevice).queue.length < (bench noDevice).cfg.qcap ∧ busy.heldLvl ≠ none
      ∧ busy.cfg.qcap ≤ busy.queue.length := by decide

theorem witness_ActuatorHandlers :
    (queued [⟨.actSet, 0⟩] acks).queue = ⟨.actSet, 0⟩ :: [] ∧ (queued [⟨.actSet, 1⟩] acks).queue = ⟨.actSet, 1⟩ :: [] := ⟨rfl, rfl⟩

/-- The drive write succeeds against a device that acknowledges and fails against none. -/
theorem witness_LevelSampleHandler :
    (queued [⟨.levelSample, 0⟩] acks).queue = ⟨.levelSample, 0⟩ :: []
      ∧ after (exec (.dwrite 14 1) (bench acks)) (fun t => decide (t.res.status = .ok)) = true
      ∧ after (exec (.dwrite 14 1) (bench noDevice)) (fun t => decide (t.res.status ≠ .ok)) = true := by decide +kernel

theorem witness_DoorAndUpgradeHandlers :
    (queued [⟨.doorEdge, 0⟩] noDevice).queue = ⟨.doorEdge, 0⟩ :: [] ∧ (queued [⟨.upgrade, 0⟩] noDevice).queue = ⟨.upgrade, 0⟩ :: []
      ∧ busy.env.upgAck = true :: [] := ⟨rfl, rfl, rfl⟩

theorem witness_WrcfgWritesTheRegisters : 3 ≤ (3 : Byte).toNat ∧ 3 ≤ (0xFF : Byte).toNat := by decide

theorem witness_RdcfgReadsTheMap :
    twoChannels.nch ≤ 8
      ∧ (∀ reg ∈ [(0 : Byte), 1, 2, 3, 4, 5, 6, 7, 0x10, 0x11, 0x20, 0x35], (Instr.rdcfg reg).wellFormed twoChannels.nch = true)
      ∧ twoChannels.chans[1]? = some ⟨ChannelCfg.door, -5, some ⟨.doorEdge, 1⟩⟩ ∧ (0x11 : Byte).toNat = 0x10 + 1
      ∧ (∀ reg ∈ [(0x08 : Byte), 0x0F, 0x12, 0x1F, 0x36, 0xFF], (Instr.rdcfg reg).wellFormed twoChannels.nch = false)
      ∧ (0x35 : Byte).toNat = 0x20 + 21 ∧ (-2147483648 : Int) ≤ -5 ∧ (-5 : Int) < 2147483648 := by decide

end Sys2Proof.Tests
end

section
/-! PROOF. What one step and the operations outside the bus leave alone, and from it O16: the parameters of R6 and the channel
configurations of R32 are written by nothing. -/
namespace Sys2Proof.Machine

/-! ## What a step can do -/

/-- Everything a step can do: run the decoded command and present its result, reject an illegal opcode byte, or wait (R90, R97). -/
theorem step_cases {s t : State} (h : step s = .next t) :
    (∃ i rest u, decode s.cmd = .ok i rest ∧ exec i (accept rest s) = .next u ∧ t = present (some i) u)
      ∨ (∃ op rest, decode s.cmd = .illegal op rest ∧ t = rejectOpcode rest s)
      ∨ (decode s.cmd = .incomplete ∧ t = s) := by
  unfold step at h
  split at h
  · next i rest hd =>
    split at h
    · next u hu => exact .inl ⟨i, rest, u, hd, hu, by injection h with h; exact h.symm⟩
    · cases h
    · cases h
  · next op rest hd => exact .inr (.inl ⟨op, rest, hd, by injection h with h; exact h.symm⟩)
  · next hd => exact .inr (.inr ⟨hd, by injection h with h; exact h.symm⟩)

/-! ## What the callback operations leave alone (R230) -/

/-- Writing a retry slot leaves the channels' configurations alone. -/
theorem setRetry_chanCfgs (s : State) (p : Producer) (v : Option Signal) :
    (s.setRetry p v).chans.map (·.cfg) = s.chans.map (·.cfg) := by
  cases p with
  | dbn c =>
    show (s.chans.modify c fun ch => { ch with held := v }).map (·.cfg) = _
    refine List.ext_getElem? fun k => ?_
    rw [List.getElem?_map, List.getElem?_map, List.getElem?_modify]
    by_cases hk : c = k <;> cases s.chans[k]? <;> simp [hk]
  | act => rfl
  | lvl => rfl

/-- Only the producer's retry slot is written. -/
theorem setRetry_callbackFrame (s : State) (p : Producer) (v : Option Signal) : CallbackFrame s (s.setRetry p v) :=
  ⟨by cases p <;> rfl, setRetry_chanCfgs s p v⟩

theorem CallbackFrame.refl (s : State) : CallbackFrame s s := ⟨rfl, rfl⟩

theorem CallbackFrame.trans {s t u : State} (h : CallbackFrame s t) (k : CallbackFrame t u) : CallbackFrame s u := by
  obtain ⟨ht, hc⟩ := h
  obtain ⟨hu, kc⟩ := k
  exact ⟨by rw [hu, ht], kc.trans hc⟩

/-- An operation that ends with a result adds only the result record to what it changed before. -/
theorem CallbackFrame.of_finish {s t u : State} {r : Result} (hf : finish r u = .next t) (h : CallbackFrame s u) :
    CallbackFrame s t := by
  rw [finish_next hf]
  exact h.trans ⟨rfl, rfl⟩

/-- Every operation of the callback context keeps within its frame. -/
theorem exec_callbackFrame {i : Instr} {s t : State} (hi : Instr.isCallback i = true) (h : exec i s = .next t) :
    CallbackFrame s t := by
  cases i <;> try cases hi
  case sample raw => exact .of_finish h ⟨rfl, sampleFrom_cfg _ _ _ _ _ _⟩
  case post k w =>
    simp only [exec, execPost] at h
    split at h
    · exact .of_finish h (.refl s)
    · split at h
      · exact .of_finish h ⟨rfl, rfl⟩
      · exact .of_finish h (.refl s)
  case mintick =>
    simp only [exec, execMintick] at h
    split at h
    · generalize (if 0 < s.actCountdown then s.actCountdown - 1 else s.actCountdown) = n at h
      split at h
      · exact .of_finish h ⟨rfl, rfl⟩
      · exact .of_finish h ⟨rfl, rfl⟩
    · exact .of_finish h (.refl s)
  case retrytick slot =>
    simp only [exec, execRetrytick] at h
    split at h
    · exact .of_finish h (.refl s)
    · split at h
      · exact .of_finish h (.refl s)
      · split at h
        · next q _ => exact .of_finish h (.trans (t := { s with queue := q }) ⟨rfl, rfl⟩ (setRetry_callbackFrame _ _ _))
        · exact .of_finish h (.refl s)
  case leveltick => exact .of_finish h ⟨rfl, rfl⟩

/-! ## What the configuration port leaves alone (R187, R197) -/

/-- WRCFG writes at most the three host registers, beside the result record. -/
theorem exec_wrcfg_frame {reg : Byte} {w : Word} {s t : State} (h : exec (.wrcfg reg w) s = .next t) :
    t = { s with actDuration := t.actDuration, upgVersion := t.upgVersion, dspErr := t.dspErr, res := t.res } := by
  simp only [exec, execWrcfg] at h
  split at h
  · rw [finish_next h]; rfl
  · split at h
    · rw [finish_next h]; rfl
    · split at h <;> rw [finish_next h] <;> rfl

/-- RDCFG writes the result record only. -/
theorem exec_rdcfg_frame {reg : Byte} {s t : State} (h : exec (.rdcfg reg) s = .next t) : t = { s with res := t.res } := by
  simp only [exec, execRdcfg] at h
  split at h <;> rw [finish_next h] <;> rfl

/-! ## The parameters and the channel configurations -/

/-- The two states are of one build: the same parameters (R6) and the same channel configurations (R32). -/
def SameBuild (s t : State) : Prop := t.cfg = s.cfg ∧ t.chans.map (·.cfg) = s.chans.map (·.cfg)

/-- Every operation keeps the build: those of U1 and U2 by their bus effect, DISPATCH by its handlers' effect, the callback operations
by their frame, and the configuration port reaches neither field. -/
theorem exec_sameBuild {i : Instr} {s t : State} (h : exec i s = .next t) : SameBuild s t := by
  rcases instr_kinds i with hb | hc | rfl | ⟨reg, w, rfl⟩ | ⟨reg, rfl⟩
  · obtain ⟨hbus, -⟩ := exec_busEffect i s t h hb
    rw [hbus.frame]; exact ⟨rfl, rfl⟩
  · obtain ⟨hframe, hcfgs⟩ := exec_callbackFrame hc h
    exact ⟨by rw [hframe], hcfgs⟩
  · rcases exec_dispatch_cases s t h with ⟨-, rfl⟩ | ⟨g, rest, -, rfl⟩
    · exact ⟨rfl, rfl⟩
    · have hg := (handleSignal_effect g { s with queue := rest }).frame
      rw [hg]; exact ⟨rfl, rfl⟩
  · rw [exec_wrcfg_frame h]; exact ⟨rfl, rfl⟩
  · rw [exec_rdcfg_frame h]; exact ⟨rfl, rfl⟩

/-- Settles O16: the accepted command keeps the build, and taking it off the stream, presenting its result, rejecting an opcode byte and
waiting write neither field. -/
theorem parametersNeverChange : Obligations.ParametersNeverChange := by
  intro s t h
  rcases step_cases h with ⟨i, rest, u, -, hu, rfl⟩ | ⟨op, rest, -, rfl⟩ | ⟨-, rfl⟩
  · exact (exec_sameBuild hu : SameBuild (accept rest s) u)
  · exact ⟨rfl, rfl⟩
  · exact ⟨rfl, rfl⟩

end Sys2Proof.Machine
end

section
/-! PROOF. What the callback operations, the configuration port and the handlers can do, said once per operation: the closed forms from which
the statements about every step are derived (spec/42_debounce.md R161, spec/43_dispatcher_actuator.md R181 to R197). -/
namespace Sys2Proof.Machine

/-! ## The callback operations -/

/-- What `TryPost` enqueues goes to the end of a queue that has room. -/
theorem tryPost_some {cap : Nat} {g : Signal} {q r : List Signal} (h : tryPost cap g q = some r) :
    q.length < cap ∧ r = q ++ [g] := by
  unfold tryPost at h
  split at h
  · next hroom => exact ⟨hroom, by injection h with h; exact h.symm⟩
  · cases h

/-- SAMPLE always ends with the sampled channels and queue. -/
theorem exec_sample_next {raw : Byte} {s t : State} (h : exec (.sample raw) s = .next t) :
    t = { s with
      chans := (sampleFrom s.cfg.nDeb s.cfg.qcap raw 0 s.chans s.queue).1
      queue := (sampleFrom s.cfg.nDeb s.cfg.qcap raw 0 s.chans s.queue).2 }.setResult .ok :=
  finish_next h

/-- POST leaves a result alone, or enqueues the signal of its operands. -/
theorem exec_post_cases {kind : Byte} {param : Word} {s t : State} (h : exec (.post kind param) s = .next t) :
    (∃ r, t = s.setResult r)
      ∨ ∃ g, signalOf kind param = some g ∧ s.queue.length < s.cfg.qcap
          ∧ t = { s with queue := s.queue ++ [g] }.setResult (.okFlag true) := by
  simp only [exec, execPost] at h
  split at h
  · exact .inl ⟨_, finish_next h⟩
  · next g hg =>
    split at h
    · next q hq =>
      obtain ⟨hroom, rfl⟩ := tryPost_some hq
      exact .inr ⟨g, hg, hroom, finish_next h⟩
    · exact .inl ⟨_, finish_next h⟩

/-- MINTICK does nothing while disarmed, counts a countdown above 1 down, or disarms at 0 and posts ACTSET(off) (R184). -/
theorem exec_mintick_cases {s t : State} (h : exec .mintick s = .next t) :
    (s.minArmed = false ∧ t = s.setResult (.okFlag false))
      ∨ (s.minArmed = true ∧ 1 < s.actCountdown.toNat
          ∧ t = { s with actCountdown := s.actCountdown - 1 }.setResult (.okFlag true))
      ∨ (s.minArmed = true ∧ s.actCountdown.toNat ≤ 1
          ∧ t = (postAct ⟨.actSet, 0⟩ { s with actCountdown := 0, minArmed := false }).setResult (.okFlag true)) := by
  simp only [exec, execMintick] at h
  split at h
  · next harmed =>
    by_cases hlast : s.actCountdown.toNat ≤ 1
    · have hzero : (if 0 < s.actCountdown then s.actCountdown - 1 else s.actCountdown) = 0 := by
        split <;> bv_omega
      rw [hzero, if_pos rfl] at h
      exact .inr (.inr ⟨harmed, hlast, finish_next h⟩)
    · have hpos : 0 < s.actCountdown := by bv_omega
      have hmore : s.actCountdown - 1 ≠ 0 := by bv_omega
      rw [if_pos hpos, if_neg hmore] at h
      exact .inr (.inl ⟨harmed, Nat.lt_of_not_le hlast, finish_next h⟩)
  · next harmed => exact .inl ⟨by simpa using harmed, finish_next h⟩

/-- RETRYTICK leaves a result alone, or moves the signal of a retry slot to the queue. -/
theorem exec_retrytick_cases {slot : Byte} {s t : State} (h : exec (.retrytick slot) s = .next t) :
    (∃ r, t = s.setResult r)
      ∨ ∃ p g, s.retry p = some g ∧ s.queue.length < s.cfg.qcap
          ∧ t = ({ s with queue := s.queue ++ [g] }.setRetry p none).setResult (.okFlag true) := by
  simp only [exec, execRetrytick] at h
  split at h
  · exact .inl ⟨_, finish_next h⟩
  · next p _ =>
    split at h
    · exact .inl ⟨_, finish_next h⟩
    · next g hg =>
      split at h
      · next q hq =>
        obtain ⟨hroom, rfl⟩ := tryPost_some hq
        exact .inr ⟨p, g, hg, hroom, finish_next h⟩
      · exact .inl ⟨_, finish_next h⟩

/-- LEVELTICK always ends with the level timer's post. -/
theorem exec_leveltick_next {s t : State} (h : exec .leveltick s = .next t) :
    t = (postLvl ⟨.levelSample, 0⟩ s).setResult .ok :=
  finish_next h

/-- Only MINTICK, among the callback operations, touches the arm bit. -/
theorem exec_callback_minArmed {i : Instr} {s t : State} (hi : Instr.isCallback i = true) (h : exec i s = .next t) :
    i = .mintick ∨ t.minArmed = s.minArmed := by
  cases i <;> try cases hi
  case sample raw => rw [exec_sample_next h]; exact .inr rfl
  case post k w => rcases exec_post_cases h with ⟨r, rfl⟩ | ⟨g, -, -, rfl⟩ <;> exact .inr rfl
  case mintick => exact .inl rfl
  case retrytick slot =>
    rcases exec_retrytick_cases h with ⟨r, rfl⟩ | ⟨p, g, -, -, rfl⟩
    · exact .inr rfl
    · cases p <;> exact .inr rfl
  case leveltick => rw [exec_leveltick_next h]; exact .inr rfl

/-! ## The configuration port -/

/-- WRCFG writes one of the three host registers, or is refused. -/
theorem exec_wrcfg_cases {reg : Byte} {w : Word} {s t : State} (h : exec (.wrcfg reg w) s = .next t) :
    (reg = 0 ∧ t = { s with actDuration := w.extractLsb' 0 16 }.setResult .ok)
      ∨ (reg = 1 ∧ t = { s with upgVersion := w }.setResult .ok)
      ∨ (reg = 2 ∧ t = { s with dspErr := ⟨false, .ok, 0⟩ }.setResult .ok)
      ∨ t = s.setResult .invalidArg := by
  simp only [exec, execWrcfg] at h
  split at h
  · next hreg => exact .inl ⟨hreg, finish_next h⟩
  · split at h
    · next hreg => exact .inr (.inl ⟨hreg, finish_next h⟩)
    · split at h
      · next hreg => exact .inr (.inr (.inl ⟨hreg, finish_next h⟩))
      · exact .inr (.inr (.inr (finish_next h)))

/-- RDCFG writes a word and a result. -/
theorem exec_rdcfg_next {reg : Byte} {s t : State} (h : exec (.rdcfg reg) s = .next t) :
    ∃ w r, t = { s with res := { s.res with word := w } }.setResult r := by
  simp only [exec, execRdcfg] at h
  split at h <;> exact ⟨_, _, finish_next h⟩

end Sys2Proof.Machine
end

section
/-! PROOF. What the operations that reach the bus do to the data the invariant and O18 speak of: which shadow registers they write, and that the
shadow, the environment and the dump stay in legal form (spec/10_state.md R25, R26, R33, spec/20_memory.md R67, R80). -/
namespace Sys2Proof.Machine

/-! ## Legal steps -/

/-- The shadow is canonical and within registers 0..21 (R25, R67). -/
def Memory.Legal (m : Memory) : Prop := Memory.wf m ∧ Memory.inRange m

/-- From `s` to `t` at most the shadow registers of `R` were written, and the shadow, the environment and the dump stay in legal form. -/
structure LegalStep (R : Nat → Prop) (s t : State) : Prop where
  outside : ∀ a, ¬ R a → Memory.read t.shadow a = Memory.read s.shadow a
  shadow  : Memory.Legal s.shadow → Memory.Legal t.shadow
  env     : s.env.Good → t.env.Good
  data    : s.res.data.length = 22 → t.res.data.length = 22

section
variable {R : Nat → Prop} {s t u : State}

/-- A step that writes neither the shadow nor the dump. -/
theorem LegalStep.of_eq (hs : t.shadow = s.shadow) (hd : t.res.data = s.res.data) (he : s.env.Good → t.env.Good) :
    LegalStep R s t :=
  ⟨fun _ _ => by rw [hs], fun h => by rw [hs]; exact h, he, fun h => by rw [hd]; exact h⟩

theorem LegalStep.refl (s : State) : LegalStep R s s := .of_eq rfl rfl id

theorem LegalStep.trans (h : LegalStep R s t) (k : LegalStep R t u) : LegalStep R s u :=
  ⟨fun a ha => (k.outside a ha).trans (h.outside a ha), fun x => k.shadow (h.shadow x), fun x => k.env (h.env x),
    fun x => k.data (h.data x)⟩

/-- An operation that ends with a result adds only status, index and value. -/
theorem LegalStep.of_finish {r : Result} (hf : finish r t = .next u) (h : LegalStep R s t) : LegalStep R s u := by
  rw [finish_next hf]
  exact h.trans (.of_eq rfl rfl id)

/-- A run of the bus, given what it does to the shadow and to the environment. -/
theorem Runs.legalStep {w p m} (h : Runs s t w p m) (ho : ∀ a, ¬ R a → Memory.read m a = Memory.read s.shadow a)
    (hm : Memory.Legal s.shadow → Memory.Legal m) (he : s.env.Good → t.env.Good) : LegalStep R s t :=
  ⟨by rw [h.shadow]; exact ho, by rw [h.shadow]; exact hm, he, by rw [h.res]; exact id⟩

/-- A run of the bus that leaves the shadow as it is. -/
theorem Runs.legalStep_same {w p} (h : Runs s t w p s.shadow) (he : s.env.Good → t.env.Good) : LegalStep R s t :=
  h.legalStep (fun _ _ => rfl) id he

/-! ## The line primitives and the transactions -/

theorem drive_legalStep (sl : List Slot) (s : State) : LegalStep R s (drive sl s) :=
  (drive_runs sl s).legalStep_same (drive_good · sl)

theorem burstPrefix_legal {m : Memory} (i : Nat) (ds : List Byte) (n : Nat) (hi : i + ds.length ≤ 22) (h : Memory.Legal m) :
    Memory.Legal (burstPrefix m i ds n) :=
  ⟨burstPrefix_wf i ds n h.1, burstPrefix_inRange i ds n h.2 hi⟩

/-- XWRITE writes at most the registers its burst is meant for. -/
theorem xwrite_legalStep (i : Nat) (data : List Byte) (s : State) (hi : i + data.length ≤ 22)
    (hR : ∀ a, i ≤ a → a < i + data.length → R a) : LegalStep R s (xwrite i data s).2 := by
  refine (xwrite_spec i data s (by omega)).2.2.legalStep (fun a ha => ?_) (burstPrefix_legal i data _ hi) (xwrite_good i data)
  have hout : ¬ (i ≤ a ∧ a < i + data.length) := fun hin => ha (hR a hin.1 hin.2)
  exact read_burstPrefix_outside _ _ _ _ _ (by omega)

/-- XREAD with `update` writes at most the registers it reads. -/
theorem xread_update_legalStep (i k : Nat) (s : State) (hi : i + k ≤ 22) (hR : ∀ a, i ≤ a → a < i + k → R a) :
    LegalStep R s (xread i k true s).2 := by
  obtain ⟨-, -, hlen, hruns⟩ := xread_spec i k true s
  have hle : (xread i k true s).1.bytes.length ≤ k := by rw [hlen]; split <;> omega
  refine hruns.legalStep (fun a ha => ?_) (burstPrefix_legal i _ _ (by omega)) (xread_good i k true)
  have hout : ¬ (i ≤ a ∧ a < i + k) := fun hin => ha (hR a hin.1 hin.2)
  exact read_burstPrefix_outside _ _ _ _ _ (by omega)

/-- XREAD without `update` leaves the shadow as it is. -/
theorem xread_legalStep (i k : Nat) (s : State) : LegalStep R s (xread i k false s).2 :=
  (xread_spec i k false s).2.2.2.legalStep_same (xread_good i k false)

end

/-- A register of the GPIO pair. -/
abbrev IsGpio (a : Nat) : Prop := a = 18 ∨ a = 19

theorem dread16_legalStep (s : State) : LegalStep IsGpio s (dread16 s).2 :=
  xread_update_legalStep 18 2 s (by omega) (fun a _ _ => show a = 18 ∨ a = 19 by omega)

theorem dwrite16_legalStep (v : Half) (s : State) : LegalStep IsGpio s (dwrite16 v s).2 :=
  xwrite_legalStep 18 (portBytes v) s (by simp) (fun a _ h => show a = 18 ∨ a = 19 by simp at h; omega)

/-! ## The operations of U1 and U2 -/

/-- The shadow registers an operation of U1 or U2 may write (R26). BEGIN sets the whole shadow; the others write the pairs they send or read. -/
def mayWriteShadow (i : Instr) (a : Nat) : Prop :=
  match i with
  | .begin _ _ _ _ _ _ _ _ => True
  | .pinmode _ _ => a = 0 ∨ a = 1 ∨ a = 12 ∨ a = 13
  | .pudctl _ _ => a = 12 ∨ a = 13
  | .dread16 | .dread _ | .dwrite16 _ | .dwrite _ _ => IsGpio a
  | _ => False

theorem beginShadow_legal (dirA dirB puA puB polA polB : Byte) : Memory.Legal (beginShadow dirA dirB puA puB polA polB) := by
  refine ⟨beginShadow_wf dirA dirB puA puB polA polB, ?_⟩
  unfold beginShadow
  dsimp only
  iterate 6 apply Memory.write_inRange _ _ (by decide)
  exact fun c hc => absurd hc (by simp)

/-- BEGIN: the whole shadow set, the lines released, one burst of registers 0 to 13. -/
theorem execBegin_legalStep {a b c d e f g k : Byte} {s t : State} (h : execBegin a b c d e f g k s = .next t) :
    LegalStep (fun _ => True) s t := by
  have hset : LegalStep (fun _ => True) s (i2cInit a b { s with shadow := beginShadow c d e f g k }) :=
    ⟨fun _ hn => absurd trivial hn, fun _ => beginShadow_legal c d e f g k, fun he => Env.observe_good he _ _ _, id⟩
  refine .of_finish h ((hset.trans (xwrite_legalStep 0 _ _ (by simp) fun _ _ _ => trivial)).trans (.of_eq rfl rfl id))

/-- The two bursts of PINMODE. -/
theorem pinMode_legalStep (pin : Nat) (m : PinMode) (s : State) :
    LegalStep (fun a => a = 0 ∨ a = 1 ∨ a = 12 ∨ a = 13) s (pinMode pin m s).2 := by
  have hdir : LegalStep (fun a => a = 0 ∨ a = 1 ∨ a = 12 ∨ a = 13) s
      (xwrite regDirA (portBytes (setBit (pairAt s.shadow regDirA) pin m.dirBit)) s).2 :=
    xwrite_legalStep 0 _ s (by simp) (fun a _ h => by simp at h; omega)
  unfold pinMode
  dsimp only
  split
  · exact hdir.trans (xwrite_legalStep 12 _ _ (by simp) (fun a _ h => by simp at h; omega))
  · exact hdir

/-- DUMPREGS fills the dump with 22 bytes, or keeps it. -/
theorem execDumpregs_legalStep {R : Nat → Prop} {s t : State} (h : execDumpregs s = .next t) : LegalStep R s t := by
  have hread : LegalStep R s (xread 0 nReg false s).2 := xread_legalStep 0 nReg s
  obtain ⟨-, -, hlen, -⟩ := xread_spec 0 nReg false s
  refine .of_finish h (hread.trans ⟨fun _ _ => rfl, id, id, fun hd => ?_⟩)
  dsimp only
  split
  · next hok => rw [hlen, if_pos hok]
  · exact hd

/-- Every operation of U1 and U2 is a legal step that writes at most its own registers. -/
theorem exec_bus_legalStep {i : Instr} {s t : State} (hb : Instr.isEngine i = true ∨ Instr.isDriver i = true)
    (h : exec i s = .next t) : LegalStep (mayWriteShadow i) s t := by
  cases i <;> simp only [exec] at h <;> try (rcases hb with hb | hb <;> cases hb)
  case i2cinit a b => exact .of_finish h (.of_eq rfl rfl fun he => Env.observe_good he _ _ _)
  case setlines a =>
    unfold execSetlines at h
    split at h
    · exact .of_finish h (drive_legalStep [_] s)
    · exact .of_finish h (.refl s)
  case start => exact .of_finish h (drive_legalStep _ s)
  case stop => exact .of_finish h (drive_legalStep _ s)
  case sendbyte v => exact .of_finish h (drive_legalStep _ s)
  case readack => exact .of_finish h ((readAck_runs s).legalStep_same readAck_good)
  case ack => exact .of_finish h (drive_legalStep _ s)
  case nack => exact .of_finish h (drive_legalStep _ s)
  case sendack low =>
    unfold execSendack at h
    split at h
    · exact .of_finish h (drive_legalStep _ s)
    · exact .of_finish h (.refl s)
  case readbyte => exact .of_finish h ((readByte_runs s).legalStep_same readByte_good)
  case begin => exact execBegin_legalStep h
  case pinmode pin mode =>
    unfold execPinmode at h
    split at h
    · exact .of_finish h (pinMode_legalStep pin.toNat _ s)
    all_goals exact .of_finish h (.refl s)
  case pudctl pin pud =>
    unfold execPudctl at h
    split at h
    · exact .of_finish h
        (xwrite_legalStep 12 _ s (by simp) (fun a _ h => show a = 12 ∨ a = 13 by simp at h; omega))
    all_goals exact .of_finish h (.refl s)
  case dread16 => exact .of_finish h (dread16_legalStep s)
  case dread pin =>
    unfold execDread at h
    split at h
    · exact .of_finish h (dread16_legalStep s)
    · exact .of_finish h (.refl s)
  case dwrite16 v => exact .of_finish h (dwrite16_legalStep v s)
  case dwrite pin level =>
    unfold execDwrite at h
    split at h
    · exact .of_finish h (dwrite16_legalStep _ s)
    all_goals exact .of_finish h (.refl s)
  case dumpregs => exact execDumpregs_legalStep h

/-! ## The handlers -/

/-- What the calls a handler makes can do to the block: the bus access on the GPIO pair, the sticky record, and the two logs. -/
structure CallEffect (s t : State) : Prop where
  frame : t = { s with
    i2c := t.i2c, wave := t.wave, env := t.env, shadow := t.shadow, dspErr := t.dspErr, delayLog := t.delayLog, pub := t.pub }
  legal : LegalStep IsGpio s t

theorem CallEffect.trans {s t u : State} (h : CallEffect s t) (k : CallEffect t u) : CallEffect s u :=
  ⟨by rw [k.frame, h.frame], h.legal.trans k.legal⟩

/-- The same calls beside another setting of the timer. -/
theorem CallEffect.withTimer {s t : State} {m n : Half} (h : CallEffect s t) (hn : n = m) (armed : Bool) :
    CallEffect { s with actCountdown := m, minArmed := armed } { t with actCountdown := n, minArmed := armed } :=
  ⟨by conv_lhs => rw [h.frame, hn], h.legal.outside, h.legal.shadow, h.legal.env, h.legal.data⟩

theorem noteErr_callEffect (r : Result) (s : State) : CallEffect s (noteErr r s) :=
  ⟨by rw [noteErr_eq], .of_eq (by simp) (by simp) (by simp)⟩

theorem Runs.callEffect {s t : State} {w p m} (h : Runs s t w p m) (hl : LegalStep IsGpio s t) : CallEffect s t :=
  ⟨by rw [h.eq], hl⟩

theorem handlerWrite_callEffect (pin : BitVec 4) (l : Level) (s : State) : CallEffect s (handlerWrite pin l s).2 :=
  ((dwrite16_spec _ s).2.2.callEffect (dwrite16_legalStep _ s)).trans (noteErr_callEffect _ _)

theorem handlerRead_callEffect (s : State) : CallEffect s (handlerRead s).2 := by
  obtain ⟨-, -, _, -, hruns⟩ := dread16_spec s
  exact (hruns.callEffect (dread16_legalStep s)).trans (noteErr_callEffect _ _)

theorem publish_callEffect (name value : String) (s : State) : CallEffect s (publish name value s) := ⟨rfl, .of_eq rfl rfl id⟩

theorem delayMs_callEffect (ms : Nat) (s : State) : CallEffect s (delayMs ms s) := ⟨rfl, .of_eq rfl rfl id⟩

/-- The actuator switched on or off, as its handler sets it: the countdown loaded and armed, or cleared and disarmed (R188, R189). -/
def State.switched (s : State) (on : Bool) : State :=
  { s with actOn := on, actCountdown := if on then s.actDuration else 0, minArmed := on }

theorem handleActOn_callEffect (s : State) : CallEffect (s.switched true) (handleActOn s) := by
  have hcalls := (handlerWrite_callEffect s.cfg.pumpPin s.cfg.pumpActive { s with actOn := true }).trans
    (publish_callEffect s.cfg.nameAct s.cfg.valOn _)
  exact hcalls.withTimer (congrArg State.actDuration hcalls.frame) true

theorem handleActOff_callEffect (s : State) : CallEffect (s.switched false) (handleActOff s) :=
  ((handlerWrite_callEffect s.cfg.pumpPin (!s.cfg.pumpActive) { s with actOn := false }).trans
    (publish_callEffect s.cfg.nameAct s.cfg.valOff _)).withTimer rfl false

theorem handleLevelSample_callEffect (s : State) : CallEffect s (handleLevelSample s) := by
  have hon := handlerWrite_callEffect s.cfg.lvlPin s.cfg.lvlActive s
  unfold handleLevelSample
  dsimp only
  split
  · have hread := (hon.trans (delayMs_callEffect s.cfg.tSettleMs _)).trans (handlerRead_callEffect _)
    have hoff := hread.trans (handlerWrite_callEffect s.cfg.lvlPin (!s.cfg.lvlActive) _)
    split
    · exact hoff.trans (publish_callEffect _ _ _)
    · exact hoff
  · exact hon.trans (handlerWrite_callEffect s.cfg.lvlPin (!s.cfg.lvlActive) _)

/-- What each signal's handler does (R182). -/
theorem handleSignal_cases (g : Signal) (s : State) :
    (g.kind = .actSet ∧ CallEffect (s.switched (decide (g.param = 1))) (handleSignal g s))
      ∨ (g.kind = .levelSample ∧ CallEffect s (handleSignal g s))
      ∨ (g.kind = .doorEdge ∧ ∃ value, handleSignal g s = publish s.cfg.nameDoor value s)
      ∨ (g.kind = .upgrade ∧ handleSignal g s = handleUpgrade s) := by
  unfold handleSignal
  split
  · next hk =>
    refine .inl ⟨hk, ?_⟩
    split
    · next hp => rw [decide_eq_true hp]; exact handleActOn_callEffect s
    · next hp => rw [decide_eq_false hp]; exact handleActOff_callEffect s
  · next hk => exact .inr (.inl ⟨hk, handleLevelSample_callEffect s⟩)
  · next hk => exact .inr (.inr (.inl ⟨hk, _, rfl⟩))
  · next hk => exact .inr (.inr (.inr ⟨hk, rfl⟩))

/-- Taking the answer on UPG_ACK leaves the slave alone (R44). -/
theorem Env.answerUpgrade_slave (e : Env) : e.answerUpgrade.2.slave = e.slave := by
  unfold Env.answerUpgrade
  split <;> rfl

theorem handleUpgrade_legalStep {R : Nat → Prop} (s : State) : LegalStep R s (handleUpgrade s) :=
  .of_eq rfl rfl fun he d hd => he d ((Env.answerUpgrade_slave s.env).symm.trans hd)

/-- Every handler is a legal step that writes at most the GPIO pair. -/
theorem handleSignal_legalStep (g : Signal) (s : State) : LegalStep IsGpio s (handleSignal g s) := by
  rcases handleSignal_cases g s with ⟨-, hc⟩ | ⟨-, hc⟩ | ⟨-, value, hp⟩ | ⟨-, hu⟩
  · exact .trans (t := s.switched (decide (g.param = 1))) (.of_eq rfl rfl id) hc.legal
  · exact hc.legal
  · rw [hp]; exact (publish_callEffect _ _ s).legal
  · rw [hu]; exact handleUpgrade_legalStep s

end Sys2Proof.Machine
end

section
/-! PROOF. The invariant of the block: O14 (every step keeps it), O13 (it holds at reset) and O12 (the reset values). A step that leaves the queue,
the channels and the timers alone keeps it by being a legal step; the operations that write those fields keep it field by field. -/
namespace Sys2Proof.Machine

/-! ## Steps that leave the queue, the channels and the timers alone -/

/-- The fields that the invariant speaks of, beside the shadow, the dump and the environment, are the same. -/
structure SameControl (s t : State) : Prop where
  cfg          : t.cfg = s.cfg
  chans        : t.chans = s.chans
  queue        : t.queue = s.queue
  heldAct      : t.heldAct = s.heldAct
  heldLvl      : t.heldLvl = s.heldLvl
  actOn        : t.actOn = s.actOn
  actCountdown : t.actCountdown = s.actCountdown
  minArmed     : t.minArmed = s.minArmed

theorem State.Inv.of_legalStep {R : Nat → Prop} {s t : State} (h : s.Inv) (hl : LegalStep R s t) (hc : SameControl s t) :
    t.Inv where
  cfg := by rw [hc.cfg]; exact h.cfg
  nch_pos := by rw [State.nch, hc.chans]; exact h.nch_pos
  nch_le := by rw [State.nch, hc.chans]; exact h.nch_le
  chans := by rw [hc.chans, hc.cfg]; exact h.chans
  queue_len := by rw [hc.queue, hc.cfg]; exact h.queue_len
  queue_wf := by rw [hc.queue]; exact h.queue_wf
  heldAct := by rw [hc.heldAct]; exact h.heldAct
  heldLvl := by rw [hc.heldLvl]; exact h.heldLvl
  actOff := by rw [hc.actOn, hc.actCountdown, hc.minArmed]; exact h.actOff
  shadow_wf := (hl.shadow ⟨h.shadow_wf, h.shadow_rng⟩).1
  shadow_rng := (hl.shadow ⟨h.shadow_wf, h.shadow_rng⟩).2
  data_len := hl.data h.data_len
  env := hl.env h.env

theorem BusEffect.sameControl {s t : State} (h : BusEffect s t) : SameControl s t := by
  rw [h.frame]
  exact ⟨rfl, rfl, rfl, rfl, rfl, rfl, rfl, rfl⟩

theorem CallEffect.inv {s t : State} (hc : CallEffect s t) (h : s.Inv) : t.Inv := by
  refine h.of_legalStep hc.legal ?_
  rw [hc.frame]
  exact ⟨rfl, rfl, rfl, rfl, rfl, rfl, rfl, rfl⟩

/-- A write to fields the invariant does not read. -/
theorem State.Inv.of_same {s t : State} (h : s.Inv) (hc : SameControl s t) (hs : t.shadow = s.shadow)
    (hd : t.res.data = s.res.data) (he : t.env = s.env) : t.Inv :=
  h.of_legalStep (R := fun _ => False) (.of_eq hs hd fun hg => by rw [he]; exact hg) hc

theorem State.Inv.setResult {s : State} (h : s.Inv) (r : Result) : (s.setResult r).Inv :=
  h.of_same ⟨rfl, rfl, rfl, rfl, rfl, rfl, rfl, rfl⟩ rfl rfl rfl

/-! ## The queue and the retry slots -/

/-- A queue within its capacity that holds signals (R35, R36). -/
def QueueGood (cap : Nat) (q : List Signal) : Prop := q.length ≤ cap ∧ ∀ g ∈ q, g.wf = true

theorem State.Inv.queueGood {s : State} (h : s.Inv) : QueueGood s.cfg.qcap s.queue := ⟨h.queue_len, h.queue_wf⟩

theorem State.Inv.withQueue {s : State} {q : List Signal} (h : s.Inv) (hq : QueueGood s.cfg.qcap q) :
    State.Inv { s with queue := q } :=
  { h with queue_len := hq.1, queue_wf := hq.2 }

theorem State.Inv.withChans {s : State} {chs : List Channel} (h : s.Inv) (hlen : chs.length = s.nch)
    (hgood : ∀ ch ∈ chs, ch.Good s.cfg.nDeb) : State.Inv { s with chans := chs } :=
  { h with nch_pos := h.nch_pos.trans_eq hlen.symm, nch_le := hlen.trans_le h.nch_le, chans := hgood }

/-- A signal at the end of a queue that has room. -/
theorem QueueGood.enqueue {cap : Nat} {q : List Signal} {g : Signal} (h : QueueGood cap q) (hroom : q.length < cap)
    (hg : g.wf = true) : QueueGood cap (q ++ [g]) := by
  refine ⟨by simpa using hroom, fun x hx => ?_⟩
  rcases List.mem_append.mp hx with hx | hx
  · exact h.2 x hx
  · rw [List.mem_singleton.mp hx]; exact hg

/-- The rest of a queue once its head is taken. -/
theorem QueueGood.tail {cap : Nat} {q : List Signal} {g : Signal} (h : QueueGood cap (g :: q)) : QueueGood cap q :=
  ⟨Nat.le_of_succ_le h.1, fun x hx => h.2 x (List.mem_cons_of_mem g hx)⟩

theorem QueueGood.postOrHold {cap : Nat} {q : List Signal} {g : Signal} (h : QueueGood cap q) (hg : g.wf = true)
    (held : Option Signal) : QueueGood cap (postOrHold cap g held q).2 := by
  refine ⟨postOrHold_length h.1, fun x hx => ?_⟩
  rcases mem_postOrHold_queue hx with hx | rfl
  · exact h.2 x hx
  · exact hg

/-- After a post the retry slot is empty or holds the signal posted. -/
theorem postOrHold_held_or (cap : Nat) (g : Signal) (held : Option Signal) (q : List Signal) :
    (postOrHold cap g held q).1 = none ∨ (postOrHold cap g held q).1 = some g := by
  rcases postOrHold_cases cap g held q with ⟨-, e⟩ | ⟨-, -, e⟩ | ⟨-, -, e⟩ <;> simp [e]

theorem State.Inv.postAct {s : State} (h : s.Inv) : (postAct ⟨.actSet, 0⟩ s).Inv :=
  { h.withQueue (h.queueGood.postOrHold (g := ⟨.actSet, 0⟩) rfl s.heldAct) with heldAct := postOrHold_held_or _ _ _ _ }

theorem State.Inv.postLvl {s : State} (h : s.Inv) : (postLvl ⟨.levelSample, 0⟩ s).Inv :=
  { h.withQueue (h.queueGood.postOrHold (g := ⟨.levelSample, 0⟩) rfl s.heldLvl) with heldLvl := postOrHold_held_or _ _ _ _ }

/-- What a retry slot holds is a signal (R36, R37). -/
theorem State.Inv.retry_wf {s : State} (h : s.Inv) {p : Producer} {g : Signal} (hp : s.retry p = some g) : g.wf = true := by
  cases p with
  | dbn c =>
    obtain ⟨ch, hch, hheld⟩ := Option.bind_eq_some_iff.mp hp
    exact (h.chans ch (List.mem_of_getElem? hch)).held g hheld
  | act =>
    rcases h.heldAct with hn | hs
    · cases hn.symm.trans hp
    · cases hs.symm.trans hp; rfl
  | lvl =>
    rcases h.heldLvl with hn | hs
    · cases hn.symm.trans hp
    · cases hs.symm.trans hp; rfl

/-- Emptying a channel's retry slot keeps the channels good. -/
theorem chans_good_clearHeld {n : Nat} {chs : List Channel} (h : ∀ ch ∈ chs, ch.Good n) (c : Nat) :
    ∀ ch ∈ chs.modify c (fun ch => { ch with held := none }), ch.Good n := by
  intro ch hch
  obtain ⟨k, hk⟩ := List.mem_iff_getElem?.mp hch
  rw [List.getElem?_modify] at hk
  obtain ⟨old, hold, rfl⟩ := Option.map_eq_some_iff.mp hk
  have hgood := h old (List.mem_of_getElem? hold)
  by_cases hck : c = k
  · rw [if_pos hck]; exact { hgood with held := fun _ hn => nomatch hn }
  · rw [if_neg hck]; exact hgood

theorem State.Inv.clearRetry {s : State} (h : s.Inv) (p : Producer) : (s.setRetry p none).Inv := by
  cases p with
  | dbn c => exact h.withChans (List.length_modify _ _ _) (chans_good_clearHeld h.chans c)
  | act => exact { h with heldAct := .inl rfl }
  | lvl => exact { h with heldLvl := .inl rfl }

/-! ## The debounce channels -/

/-- The signal a channel posts is one of its configuration. -/
theorem edgeSignal_wf {c : ChannelCfg} {active : Bool} {g : Signal} (hc : c.wf = true) (h : edgeSignal c active = some g) :
    g.wf = true := by
  obtain ⟨hact, hinact⟩ := Bool.and_eq_true_iff.mp hc
  unfold edgeSignal at h
  split at h
  · split at h
    · cases h; exact hact
    · cases h
  · split at h
    · cases h; exact hinact
    · cases h

/-- One sample of one channel keeps it good, and the queue good (R164 (a), R183). -/
theorem sampleChannel_good {n cap : Nat} (hn : 1 ≤ n) (raw : Level) {ch : Channel} {q : List Signal} (h : ch.Good n)
    (hq : QueueGood cap q) :
    (sampleChannel n cap raw ch q).1.Good n ∧ QueueGood cap (sampleChannel n cap raw ch q).2 := by
  obtain ⟨hlow, hhigh⟩ := stepCount_bounds (n := n) (by omega) (raw == ch.cfg.activeLevel) h.low h.high
  unfold sampleChannel
  dsimp only
  split
  · next g hg =>
    have hwf : g.wf = true := by
      split at hg
      · exact edgeSignal_wf h.cfg hg
      · cases hg
    exact ⟨⟨h.cfg, hlow, hhigh, fun x hx => by rw [postOrHold_held hx]; exact hwf⟩, hq.postOrHold hwf ch.held⟩
  · exact ⟨⟨h.cfg, hlow, hhigh, h.held⟩, hq⟩

/-- One sample of all channels keeps them good, and the queue good. -/
theorem sampleFrom_good {n cap : Nat} (hn : 1 ≤ n) (raw : Byte) (c : Nat) {chs : List Channel} {q : List Signal}
    (h : ∀ ch ∈ chs, ch.Good n) (hq : QueueGood cap q) :
    (∀ ch ∈ (sampleFrom n cap raw c chs q).1, ch.Good n) ∧ QueueGood cap (sampleFrom n cap raw c chs q).2 := by
  induction chs generalizing c q with
  | nil => exact ⟨h, hq⟩
  | cons ch chs ih =>
    obtain ⟨hch, hchs⟩ := List.forall_mem_cons.mp h
    obtain ⟨hgood, hpost⟩ := sampleChannel_good hn (raw.getLsbD c) hch hq
    obtain ⟨hrest, hlast⟩ := ih (c + 1) hchs hpost
    exact ⟨List.forall_mem_cons.mpr ⟨hgood, hrest⟩, hlast⟩

theorem Config.nDeb_pos {c : Config} (h : c.wf = true) : 1 ≤ c.nDeb := by
  simp only [Config.wf, Bool.and_eq_true, decide_eq_true_eq] at h
  obtain ⟨⟨hn, -⟩, -⟩ := h
  exact hn

theorem State.Inv.sampled {s : State} (h : s.Inv) (raw : Byte) : State.Inv { s with
    chans := (sampleFrom s.cfg.nDeb s.cfg.qcap raw 0 s.chans s.queue).1
    queue := (sampleFrom s.cfg.nDeb s.cfg.qcap raw 0 s.chans s.queue).2 } := by
  obtain ⟨hchans, hqueue⟩ := sampleFrom_good (Config.nDeb_pos h.cfg) raw 0 h.chans h.queueGood
  exact (h.withQueue hqueue).withChans (sampleFrom_length _ _ _ _ _ _) hchans

/-! ## The actuator -/

/-- An armed timer belongs to an actuator that is on (R38). -/
theorem State.Inv.actOn_of_armed {s : State} (h : s.Inv) (harmed : s.minArmed = true) : s.actOn = true := by
  by_contra hoff
  have hdisarmed := (h.actOff (by simpa using hoff)).2
  rw [harmed] at hdisarmed
  cases hdisarmed

theorem State.Inv.withTimer {s : State} (h : s.Inv) (hon : s.actOn = true) (n : Half) (armed : Bool) :
    State.Inv { s with actCountdown := n, minArmed := armed } :=
  { h with actOff := fun hoff => by rw [show s.actOn = false from hoff] at hon; cases hon }

theorem State.Inv.switched {s : State} (h : s.Inv) (on : Bool) : (s.switched on).Inv :=
  { h with actOff := fun (hoff : on = false) => by subst hoff; exact ⟨rfl, rfl⟩ }

/-! ## Every operation keeps the invariant -/

/-- What POST accepts is a signal (R96). -/
theorem signalOf_wf {k : Byte} {w : Word} {g : Signal} (h : signalOf k w = some g) : g.wf = true := by
  have hle : w ≤ 1 → w.toNat ≤ 1 := fun hw => BitVec.le_def.mp hw
  unfold signalOf at h
  split at h
  · split at h
    · next hw => cases h; exact decide_eq_true (hle hw)
    · cases h
  · cases h; rfl
  · split at h
    · next hw => cases h; exact decide_eq_true (hle hw)
    · cases h
  · cases h; rfl
  · cases h

theorem exec_callback_inv {i : Instr} {s t : State} (h : s.Inv) (hi : Instr.isCallback i = true) (hx : exec i s = .next t) :
    t.Inv := by
  cases i <;> try cases hi
  case sample raw => rw [exec_sample_next hx]; exact (h.sampled raw).setResult _
  case post k w =>
    rcases exec_post_cases hx with ⟨r, rfl⟩ | ⟨g, hg, hroom, rfl⟩
    · exact h.setResult r
    · exact (h.withQueue (h.queueGood.enqueue hroom (signalOf_wf hg))).setResult _
  case mintick =>
    rcases exec_mintick_cases hx with ⟨-, rfl⟩ | ⟨harmed, -, rfl⟩ | ⟨harmed, -, rfl⟩
    · exact h.setResult _
    · exact (h.withTimer (h.actOn_of_armed harmed) _ s.minArmed).setResult _
    · exact (h.withTimer (h.actOn_of_armed harmed) 0 false).postAct.setResult _
  case retrytick slot =>
    rcases exec_retrytick_cases hx with ⟨r, rfl⟩ | ⟨p, g, hg, hroom, rfl⟩
    · exact h.setResult r
    · exact ((h.withQueue (h.queueGood.enqueue hroom (h.retry_wf hg))).clearRetry p).setResult _
  case leveltick => rw [exec_leveltick_next hx]; exact h.postLvl.setResult _

theorem handleSignal_inv {s : State} (h : s.Inv) (g : Signal) : (handleSignal g s).Inv := by
  rcases handleSignal_cases g s with ⟨-, hc⟩ | ⟨-, hc⟩ | ⟨-, value, hp⟩ | ⟨-, hu⟩
  · exact hc.inv (h.switched _)
  · exact hc.inv h
  · rw [hp]; exact (publish_callEffect _ _ s).inv h
  · rw [hu]
    exact h.of_legalStep (R := IsGpio) (handleUpgrade_legalStep s) ⟨rfl, rfl, rfl, rfl, rfl, rfl, rfl, rfl⟩

theorem exec_dispatch_inv {s t : State} (h : s.Inv) (hx : exec .dispatch s = .next t) : t.Inv := by
  rcases exec_dispatch_cases s t hx with ⟨-, rfl⟩ | ⟨g, rest, hq, rfl⟩
  · exact h.setResult _
  · have hgood := h.queueGood
    rw [hq] at hgood
    exact (handleSignal_inv (h.withQueue hgood.tail) g).setResult _

theorem exec_wrcfg_inv {reg : Byte} {w : Word} {s t : State} (h : s.Inv) (hx : exec (.wrcfg reg w) s = .next t) : t.Inv := by
  rcases exec_wrcfg_cases hx with ⟨-, rfl⟩ | ⟨-, rfl⟩ | ⟨-, rfl⟩ | rfl <;>
    exact h.of_same ⟨rfl, rfl, rfl, rfl, rfl, rfl, rfl, rfl⟩ rfl rfl rfl

theorem exec_rdcfg_inv {reg : Byte} {s t : State} (h : s.Inv) (hx : exec (.rdcfg reg) s = .next t) : t.Inv := by
  obtain ⟨w, r, rfl⟩ := exec_rdcfg_next hx
  exact h.of_same ⟨rfl, rfl, rfl, rfl, rfl, rfl, rfl, rfl⟩ rfl rfl rfl

theorem exec_inv {i : Instr} {s t : State} (h : s.Inv) (hx : exec i s = .next t) : t.Inv := by
  rcases instr_kinds i with hb | hc | rfl | ⟨reg, w, rfl⟩ | ⟨reg, rfl⟩
  · exact h.of_legalStep (exec_bus_legalStep hb hx) (exec_busEffect i s t hx hb).1.sameControl
  · exact exec_callback_inv h hc hx
  · exact exec_dispatch_inv h hx
  · exact exec_wrcfg_inv h hx
  · exact exec_rdcfg_inv h hx

/-- Settles O14: the accepted command keeps the invariant, and taking it off the stream, presenting its result, rejecting an opcode byte and
waiting write nothing the invariant reads. -/
theorem stepKeepsTheInvariant : Obligations.StepKeepsTheInvariant := by
  intro s t h hstep
  rcases step_cases hstep with ⟨i, rest, u, -, hu, rfl⟩ | ⟨op, rest, -, rfl⟩ | ⟨-, rfl⟩
  · have hacc : (accept rest s).Inv := h.of_same ⟨rfl, rfl, rfl, rfl, rfl, rfl, rfl, rfl⟩ rfl rfl rfl
    exact (exec_inv hacc hu).of_same ⟨rfl, rfl, rfl, rfl, rfl, rfl, rfl, rfl⟩ rfl rfl rfl
  · exact h.of_same ⟨rfl, rfl, rfl, rfl, rfl, rfl, rfl, rfl⟩ rfl rfl rfl
  · exact h

/-! ## Reset -/

theorem Channel.reset_good (n : Nat) {c : ChannelCfg} (h : c.wf = true) : (Channel.reset c).Good n where
  cfg := h
  low := Int.neg_nonpos_of_nonneg (Int.natCast_nonneg n)
  high := Int.natCast_nonneg n
  held := fun _ hn => nomatch hn

theorem resetWith_inv {c : Config} {ch : List ChannelCfg} {e : Env} (hc : c.wf = true) (hpos : 1 ≤ ch.length)
    (hle : ch.length ≤ 8) (hch : ∀ x ∈ ch, x.wf = true) (he : e.Good) : (State.resetWith c ch e).Inv where
  cfg := hc
  nch_pos := by simpa [State.nch, State.resetWith] using hpos
  nch_le := by simpa [State.nch, State.resetWith] using hle
  chans := List.forall_mem_map.mpr fun x hx => Channel.reset_good c.nDeb (hch x hx)
  queue_len := Nat.zero_le _
  queue_wf := fun _ hg => nomatch hg
  heldAct := .inl rfl
  heldLvl := .inl rfl
  actOff := fun _ => ⟨rfl, rfl⟩
  shadow_wf := ⟨.nil, fun _ hm => nomatch hm⟩
  shadow_rng := fun _ hm => nomatch hm
  data_len := List.length_replicate
  env := he

/-- Settles O13, for every build within its ranges, of which State.reset is one. -/
theorem resetMeetsTheInvariant : Obligations.ResetMeetsTheInvariant :=
  ⟨fun _ _ _ hc hpos hle hch he => ⟨resetWith_inv hc hpos hle hch he, rfl⟩,
    resetWith_inv (by decide) (by decide) (by decide) (by decide) (fun _ hd => nomatch hd), rfl⟩

/-- Settles O12, field by field: State.reset is the reset state of one build. -/
theorem resetHasTheSpecValues : Obligations.ResetHasTheSpecValues := by
  intro s c ch e hs
  have hbuild : ∃ c' ch' e', s = State.resetWith c' ch' e' := by
    rcases hs with rfl | rfl
    · exact ⟨_, _, _, rfl⟩
    · exact ⟨_, _, _, rfl⟩
  obtain ⟨c', ch', e', rfl⟩ := hbuild
  have hchans : ∀ x ∈ ch'.map Channel.reset, x.cnt = 0 ∧ x.held = none := List.forall_mem_map.mpr fun _ _ => ⟨rfl, rfl⟩
  have hcfgs : (ch.map Channel.reset).map (·.cfg) = ch := by
    rw [List.map_map]
    exact List.map_id ch
  exact ⟨rfl, rfl, rfl, rfl, rfl, fun _ => rfl, rfl, rfl, rfl, rfl, rfl, rfl, hchans, hcfgs, rfl, rfl, rfl, rfl, rfl, rfl, rfl, rfl,
    rfl, rfl, rfl, rfl, rfl, rfl, rfl, rfl⟩

end Sys2Proof.Machine
end

section
/-! PROOF. Who writes what: the outputs only grow (O17), which operation writes which shadow register (O18), the status bits and host registers
(O20) and the sticky error record (O21). -/
namespace Sys2Proof.Machine

/-! ## The outputs -/

/-- The waveform and the three logs of `t` continue those of `s`. -/
def OutputsGrow (s t : State) : Prop :=
  s.wave <+: t.wave ∧ s.pub <+: t.pub ∧ s.delayLog <+: t.delayLog ∧ s.upgLog <+: t.upgLog

/-- An operation off the bus that drives and logs nothing. -/
theorem OutputsGrow.of_eq {s t : State} (hw : t.wave = s.wave) (hp : t.pub = s.pub) (hd : t.delayLog = s.delayLog)
    (hu : t.upgLog = s.upgLog) : OutputsGrow s t := by
  refine ⟨?_, ?_, ?_, ?_⟩
  · rw [hw]
  · rw [hp]
  · rw [hd]
  · rw [hu]

theorem exec_outputsGrow {i : Instr} {s t : State} (h : exec i s = .next t) : OutputsGrow s t := by
  rcases instr_kinds i with hb | hc | rfl | ⟨reg, w, rfl⟩ | ⟨reg, rfl⟩
  · have hbus := (exec_busEffect i s t h hb).1
    refine ⟨hbus.grows, ?_, ?_, ?_⟩ <;> rw [hbus.frame]
  · rw [(exec_callbackFrame hc h).1]; exact .of_eq rfl rfl rfl rfl
  · rcases exec_dispatch_cases s t h with ⟨-, rfl⟩ | ⟨g, rest, -, rfl⟩
    · exact .of_eq rfl rfl rfl rfl
    · have hg := handleSignal_effect g { s with queue := rest }
      exact ⟨hg.wave, hg.pub, hg.delayLog, hg.upgLog⟩
  · rw [exec_wrcfg_frame h]; exact .of_eq rfl rfl rfl rfl
  · rw [exec_rdcfg_frame h]; exact .of_eq rfl rfl rfl rfl

/-- Settles O17: the accepted command's outputs grow, and nothing else of a step is an output. -/
theorem outputsOnlyGrow : Obligations.OutputsOnlyGrow := by
  intro s t h
  rcases step_cases h with ⟨i, rest, u, -, hu, rfl⟩ | ⟨op, rest, -, rfl⟩ | ⟨-, rfl⟩
  · exact (exec_outputsGrow hu : OutputsGrow (accept rest s) u)
  · exact OutputsGrow.of_eq rfl rfl rfl rfl
  · exact OutputsGrow.of_eq rfl rfl rfl rfl

/-! ## The shadow -/

/-- The operations of U1 and U2 that may write the shadow, each with its registers. -/
theorem mayWriteShadow_cases {i : Instr} {a : Nat} (h : mayWriteShadow i a) :
    (∃ b c d e f g h k, i = .begin b c d e f g h k)
      ∨ ((∃ pin mode, i = .pinmode pin mode) ∧ (a = 0 ∨ a = 1 ∨ a = 12 ∨ a = 13))
      ∨ ((∃ pin pud, i = .pudctl pin pud) ∧ (a = 12 ∨ a = 13))
      ∨ ((i = .dread16 ∨ (∃ pin, i = .dread pin) ∨ (∃ v, i = .dwrite16 v) ∨ (∃ pin level, i = .dwrite pin level)) ∧ IsGpio a) := by
  cases i
  case begin => exact .inl ⟨_, _, _, _, _, _, _, _, rfl⟩
  case pinmode => exact .inr (.inl ⟨⟨_, _, rfl⟩, h⟩)
  case pudctl => exact .inr (.inr (.inl ⟨⟨_, _, rfl⟩, h⟩))
  case dread16 => exact .inr (.inr (.inr ⟨.inl rfl, h⟩))
  case dread => exact .inr (.inr (.inr ⟨.inr (.inl ⟨_, rfl⟩), h⟩))
  case dwrite16 => exact .inr (.inr (.inr ⟨.inr (.inr (.inl ⟨_, rfl⟩)), h⟩))
  case dwrite => exact .inr (.inr (.inr ⟨.inr (.inr (.inr ⟨_, _, rfl⟩)), h⟩))
  all_goals exact False.elim h

/-- DISPATCH writes the shadow only by the handlers of ACTSET and LEVELSAMPLE, and then only the GPIO pair. -/
theorem exec_dispatch_shadow {s t : State} (h : exec .dispatch s = .next t) {a : Nat}
    (ha : Memory.read t.shadow a ≠ Memory.read s.shadow a) :
    (∃ g rest, s.queue = g :: rest ∧ (g.kind = .actSet ∨ g.kind = .levelSample)) ∧ IsGpio a := by
  rcases exec_dispatch_cases s t h with ⟨-, rfl⟩ | ⟨g, rest, hq, rfl⟩
  · exact absurd rfl ha
  · refine ⟨⟨g, rest, hq, ?_⟩, (handleSignal_effect g { s with queue := rest }).shadow a ha⟩
    rcases handleSignal_cases g { s with queue := rest } with ⟨hk, -⟩ | ⟨hk, -⟩ | ⟨-, value, hp⟩ | ⟨-, hu⟩
    · exact .inl hk
    · exact .inr hk
    · rw [hp] at ha; exact absurd rfl ha
    · rw [hu] at ha; exact absurd rfl ha

/-- Settles O18: the bus operations write at most their own registers, DISPATCH those of its handlers, the rest none. -/
theorem shadowWrittenOnlyByTheDriver : Obligations.ShadowWrittenOnlyByTheDriver := by
  intro i s t h a ha
  rcases instr_kinds i with hb | hc | rfl | ⟨reg, w, rfl⟩ | ⟨reg, rfl⟩
  · have hmay : mayWriteShadow i a := by
      by_contra hno
      exact ha ((exec_bus_legalStep hb h).outside a hno)
    rcases mayWriteShadow_cases hmay with hi | hi | hi | hi
    · exact .inl hi
    · exact .inr (.inl hi)
    · exact .inr (.inr (.inl hi))
    · exact .inr (.inr (.inr (.inl hi)))
  · rw [(exec_callbackFrame hc h).1] at ha; exact absurd rfl ha
  · obtain ⟨hq, hgpio⟩ := exec_dispatch_shadow h ha
    exact .inr (.inr (.inr (.inr ⟨rfl, hq, hgpio⟩)))
  · rw [exec_wrcfg_frame h] at ha; exact absurd rfl ha
  · rw [exec_rdcfg_frame h] at ha; exact absurd rfl ha

/-! ## The status bits and host registers -/

/-- Settles O20: the closed form of each operation shows which status bits and host registers it leaves as they are, and by which rule it
changes the others. -/
theorem statusChangesOnlyByItsRules : Obligations.StatusChangesOnlyByItsRules := by
  intro i s t h
  rcases instr_kinds i with hb | hc | rfl | ⟨reg, w, rfl⟩ | ⟨reg, rfl⟩
  · obtain ⟨hbus, hsynced⟩ := exec_busEffect i s t h hb
    refine ⟨hsynced, ?_⟩
    rw [hbus.frame]
    simp +contextual
  · rcases exec_callback_minArmed hc h with rfl | harm
    · rcases exec_mintick_cases h with ⟨-, rfl⟩ | ⟨-, -, rfl⟩ | ⟨harmed, -, rfl⟩
      · simp +contextual
      · simp +contextual
      · simp [postAct, harmed]
    · rw [(exec_callbackFrame hc h).1]
      simp +contextual [harm]
  · rcases exec_dispatch_cases s t h with ⟨-, rfl⟩ | ⟨⟨kind, p⟩, rest, hq, rfl⟩
    · simp +contextual
    · rcases handleSignal_cases ⟨kind, p⟩ { s with queue := rest } with
        ⟨rfl, hcalls⟩ | ⟨rfl, hcalls⟩ | ⟨rfl, value, hdoor⟩ | ⟨rfl, hupg⟩
      · rw [hcalls.frame]; simp [hq, State.switched]
      · rw [hcalls.frame]; simp +contextual
      · rw [hdoor]; simp +contextual
      · rw [hupg]; simp +contextual [hq, handleUpgrade]
  · rcases exec_wrcfg_cases h with ⟨rfl, rfl⟩ | ⟨rfl, rfl⟩ | ⟨rfl, rfl⟩ | rfl <;> simp +contextual
  · rw [exec_rdcfg_frame h]; simp +contextual

/-! ## The sticky error record -/

/-- Settles O21: a handler leaves a NAK record or none, WRCFG clears it, and no other operation writes it. -/
theorem handlerErrorIsSticky : Obligations.HandlerErrorIsSticky := by
  intro i s t h hne
  rcases instr_kinds i with hb | hc | rfl | ⟨reg, w, rfl⟩ | ⟨reg, rfl⟩
  · rw [(exec_busEffect i s t h hb).1.frame] at hne; exact absurd rfl hne
  · rw [(exec_callbackFrame hc h).1] at hne; exact absurd rfl hne
  · rcases exec_dispatch_cases s t h with ⟨-, rfl⟩ | ⟨g, rest, -, rfl⟩
    · exact absurd rfl hne
    · exact .inl ⟨rfl, (handleSignal_effect g { s with queue := rest }).err hne⟩
  · rcases exec_wrcfg_cases h with ⟨-, rfl⟩ | ⟨-, rfl⟩ | ⟨rfl, rfl⟩ | rfl
    · exact absurd rfl hne
    · exact absurd rfl hne
    · exact .inr ⟨w, rfl, rfl⟩
    · exact absurd rfl hne
  · rw [exec_rdcfg_frame h] at hne; exact absurd rfl hne

end Sys2Proof.Machine
end

section
/-! PROOF. The two transactions in the words of Safety: O31 (a write burst) and O32 (a read burst), from what XWRITE and XREAD do
(spec/20_memory.md R65, R66, R68, R75). -/
namespace Sys2Proof.Machine

/-! ## XWRITE -/

/-- No more bytes are confirmed than were sent (R68). -/
theorem WriteStatus.confirmed_le {k : Nat} {status : Status} {index : Byte} (h : WriteStatus k status index) :
    confirmedCount status index k ≤ k := by
  rcases h with ⟨rfl, -⟩ | ⟨rfl, -⟩ | ⟨rfl, -⟩ | ⟨rfl, hlt⟩
  · exact Nat.le_refl k
  · exact Nat.zero_le k
  · exact Nat.zero_le k
  · exact Nat.le_of_lt hlt

/-- Whatever it ends with, a write burst begins with the address byte. -/
theorem sentBytes_eq_cons (c : Config) (i : Nat) (data : List Byte) (status : Status) (index : Byte) :
    ∃ bs, sentBytes c i data status index = writeAddr c :: bs := by
  cases status <;> exact ⟨_, rfl⟩

/-- The slots of a write burst from the idle bus carry the items of R65. -/
theorem busItems_writeBurst (c : Config) (i : Nat) (data : List Byte) (status : Status) (index : Byte) :
    busItems ⟨true, true⟩ [] (burstSlots ⟨true, true⟩ (sentBytes c i data status index))
      = writeItems (sentBytes c i data status index) := by
  obtain ⟨bs, hbs⟩ := sentBytes_eq_cons c i data status index
  rw [hbs]
  exact busItems_burstSlots _ bs

/-- XWRITE leaves what one write burst leaves. -/
theorem xwrite_oneBurst (i : Nat) (data : List Byte) (s : State) (hlen : data.length ≤ 255) :
    OneBurst s (xwrite i data s).2 i data (xwrite i data s).1.status (xwrite i data s).1.index := by
  obtain ⟨hends, -, hruns⟩ := xwrite_spec i data s hlen
  have hle := hends.confirmed_le
  refine ⟨hends, hruns.frame, fun hwf j hj => ?_, fun a ha => ?_, ?_, fun hidle => ?_⟩
  · rw [hruns.shadow, read_burstPrefix_inside i data _ j hwf hj (by omega), List.getElem?_eq_getElem]
  · rw [hruns.shadow]
    exact read_burstPrefix_outside _ _ _ _ _ (by omega)
  · rw [hruns.wave]
    exact List.prefix_append _ _
  · rw [newSlots_runs hruns, show s.lines = ⟨true, true⟩ from hidle]
    exact busItems_writeBurst _ _ _ _ _

/-- Settles O31: XWRITE leaves what one write burst leaves, returns no value, and writes no result record of its own. -/
theorem writeBurstOnTheBus : Obligations.WriteBurstOnTheBus := by
  intro i data s _ hi
  have hlen : data.length ≤ 255 := by omega
  obtain ⟨-, hvalue, hruns⟩ := xwrite_spec i data s hlen
  exact ⟨_, _, _, by rw [← hvalue], xwrite_oneBurst i data s hlen, hruns.res⟩

/-! ## XREAD -/

/-- XREAD leaves what one read burst leaves. -/
theorem xread_oneRead (i k : Nat) (update : Bool) (s : State) :
    OneRead s (xread i k update s).2 i k update (xread i k update s).1.bytes (xread i k update s).1.result.status
      (xread i k update s).1.result.index := by
  obtain ⟨hends, -, hcount, hruns⟩ := xread_spec i k update s
  have hle : (xread i k update s).1.bytes.length ≤ k := by rw [hcount]; split <;> omega
  refine ⟨hends, hcount, ?_, fun hu hwf j hj => ?_, fun a ha => ?_, fun hkept => ?_, ?_, fun hidle => ?_⟩
  · rw [hruns.shadow]
    exact hruns.frame
  · rw [hruns.shadow, if_pos hu, read_burstPrefix_inside i _ k j hwf (by omega) hj, List.getElem?_eq_getElem]
  · rw [hruns.shadow]
    split
    · next hu =>
      have hout : a < i ∨ i + (xread i k update s).1.bytes.length ≤ a := ha.resolve_left (by simp [hu])
      exact read_burstPrefix_outside _ _ _ _ _ (by omega)
    · rfl
  · rw [hruns.shadow]
    split
    · next hu =>
      have hnone : (xread i k update s).1.bytes = [] := by
        rcases hkept with hoff | hfail
        · exact absurd (hu.symm.trans hoff) (by decide)
        · exact List.eq_nil_of_length_eq_zero (hcount.trans (if_neg hfail))
      rw [hnone, burstPrefix_nil]
    · rfl
  · rw [hruns.wave]
    exact List.prefix_append _ _
  · rw [newSlots_runs hruns, show s.lines = ⟨true, true⟩ from hidle]
    exact busItems_readBurstSlots _ _ _ _ _

/-- Settles O32: XREAD leaves what one read burst leaves, returns no value, and writes no result record of its own. -/
theorem readBurstOnTheBus : Obligations.ReadBurstOnTheBus := by
  intro i k update s _ _
  obtain ⟨-, hvalue, -, hruns⟩ := xread_spec i k update s
  exact ⟨_, _, _, _, by rw [← hvalue], xread_oneRead i k update s, hruns.res⟩

end Sys2Proof.Machine
end

section
/-! PROOF. Coherence with the plain reference device: O46 (shadow and device stay equal in registers 0 to 13). Every bus access of an
operation begins and ends with the device between transactions on the idle bus, where XWRITE puts the same bytes into shadow and device
and XREAD changes neither below the GPIO pair (spec/20_memory.md R65, R66, R72, R80). -/
namespace Sys2Proof.Machine

/-! ## The plain device on the idle bus -/

/-- The bus is idle, and the plain device `d`, without fault injection, is on it between transactions. -/
structure State.PlainOnBus (s : State) (d : Device) : Prop where
  idle  : s.BusIdle
  slave : s.env.slave = .reference d
  quiet : d.Quiet
  plain : d.pins = none
  good  : d.Good

theorem withPlainDevice_iff {s : State} : s.WithPlainDevice ↔ ∃ d, s.PlainOnBus d := by
  constructor
  · rintro ⟨hidle, d, acks, n, henv, htx, hnak, hpins, hgood⟩
    exact ⟨d, hidle, congrArg Env.slave henv, ⟨htx, hnak⟩, hpins, hgood⟩
  · rintro ⟨d, h⟩
    refine ⟨h.idle, d, s.env.upgAck, s.env.tick, ?_, h.quiet.inTx, h.quiet.nakAt, h.plain, h.good⟩
    rw [← h.slave]

/-- Two register files agree in the registers BEGIN writes (R72). -/
def Memory.SameBegun (m n : Memory) : Prop := ∀ r, r ≤ 13 → Memory.read m r = Memory.read n r

theorem coherent_iff {s : State} : s.Coherent ↔ ∃ d, s.PlainOnBus d ∧ Memory.SameBegun s.shadow d.reg := by
  constructor
  · rintro ⟨hplain, hagree⟩
    obtain ⟨d, h⟩ := withPlainDevice_iff.mp hplain
    exact ⟨d, h, hagree d s.env.upgAck s.env.tick (by rw [← h.slave])⟩
  · rintro ⟨d, h, hagree⟩
    refine ⟨withPlainDevice_iff.mpr ⟨d, h⟩, fun e acks n henv => ?_⟩
    have hed : Slave.reference d = .reference e := h.slave.symm.trans (congrArg Env.slave henv)
    injection hed with hed
    exact hed ▸ hagree

section
variable {s : State} {d : Device}

theorem State.PlainOnBus.env_eq (h : s.PlainOnBus d) : s.env = ⟨.reference d, s.env.upgAck, s.env.tick⟩ := by
  rw [← h.slave]

theorem State.PlainOnBus.envGood (h : s.PlainOnBus d) : s.env.Good := by
  intro e he
  have hde : Slave.reference d = .reference e := h.slave.symm.trans he
  injection hde with hde
  exact hde ▸ h.good

/-- The device a transaction leaves is on the idle bus again, if it is legal. -/
theorem State.PlainOnBus.of_left {t : State} {e : Device} {m : Memory} (h : s.PlainOnBus d) (hidle : t.BusIdle)
    (hslave : t.env.slave = .reference e) (hleft : d.Left e m) (hgood : t.env.Good) : t.PlainOnBus e :=
  ⟨hidle, hslave, hleft.quiet, hleft.pins.trans h.plain, hgood e hslave⟩

theorem Config.regBase_le {c : Config} (h : c.wf = true) : c.regBase.toNat ≤ 234 := by
  simp only [Config.wf, Bool.and_eq_true, decide_eq_true_eq] at h
  exact h.2

/-- XWRITE to the plain device: shadow and device take the same burst, whole (R65, R80). -/
theorem State.PlainOnBus.after_xwrite (h : s.PlainOnBus d) (hc : s.cfg.wf = true) (i : Nat) (ds : List Byte) (hi : i < 22)
    (hlen : i + ds.length ≤ 22) :
    ∃ e, (xwrite i ds s).2.PlainOnBus e ∧ e.reg = burstPrefix d.reg i ds ds.length
      ∧ (xwrite i ds s).2.shadow = burstPrefix s.shadow i ds ds.length := by
  obtain ⟨hok, e, henv, hleft⟩ := xwrite_reference i ds h.env_eq h.idle h.quiet (Config.regBase_le hc) hi hlen
  have hruns := (xwrite_spec i ds s (by omega)).2.2
  refine ⟨e, h.of_left hruns.lines (congrArg Env.slave henv) hleft (xwrite_good i ds h.envGood), ?_, ?_⟩
  · rw [hleft.reg, d.storeBurst_plain i ds h.plain]
  · rw [hruns.shadow, hok]
    rfl

/-- XREAD from the plain device leaves its registers as they are (R66, R80). -/
theorem State.PlainOnBus.after_xread (h : s.PlainOnBus d) (hc : s.cfg.wf = true) (i k : Nat) (update : Bool)
    (hlen : i + (k + 1) ≤ 22) : ∃ e, (xread i (k + 1) update s).2.PlainOnBus e ∧ e.reg = d.reg := by
  obtain ⟨-, e, henv, hleft⟩ := xread_reference i k update h.env_eq h.idle h.quiet (Config.regBase_le hc) hlen
  have hruns := (xread_spec i (k + 1) update s).2.2.2
  exact ⟨e, h.of_left hruns.lines (congrArg Env.slave henv) hleft (xread_good i (k + 1) update h.envGood), hleft.reg⟩

/-- I2CINIT on the idle bus changes no line, so the device sees nothing (R113). -/
theorem State.PlainOnBus.after_i2cInit (h : s.PlainOnBus d) (a b : Byte) : (i2cInit a b s).PlainOnBus d := by
  refine ⟨rfl, ?_, h.quiet, h.plain, h.good⟩
  have hlines : s.lines = ⟨true, true⟩ := h.idle
  rw [i2cInit_eq, h.env_eq, hlines]
  rfl

end

/-! ## The registers of shadow and device -/

/-- After the same burst two register files agree where they agreed, and in every register the burst wrote. -/
theorem read_burstPrefix_congr {m n : Memory} (hm : Memory.wf m) (hn : Memory.wf n) (i : Nat) (ds : List Byte) (a : Nat)
    (h : (i ≤ a ∧ a < i + ds.length) ∨ Memory.read m a = Memory.read n a) :
    Memory.read (burstPrefix m i ds ds.length) a = Memory.read (burstPrefix n i ds ds.length) a := by
  by_cases hin : i ≤ a ∧ a < i + ds.length
  · obtain ⟨j, rfl⟩ := Nat.exists_eq_add_of_le hin.1
    have hj : j < ds.length := by omega
    rw [read_burstPrefix_inside i ds _ j hm hj hj, read_burstPrefix_inside i ds _ j hn hj hj]
  · rw [read_burstPrefix_outside _ _ _ _ _ (by omega), read_burstPrefix_outside _ _ _ _ _ (by omega)]
    exact h.resolve_left hin

/-- The invariant of O46, with what the next transaction rests on: the parameters in their ranges and the shadow canonical. -/
structure State.Mirrored (s : State) : Prop where
  cfg      : s.cfg.wf = true
  shadow   : Memory.wf s.shadow
  coherent : s.Coherent

section
variable {s t : State}

/-- A step off the bus that leaves the shadow and the parameters alone. -/
theorem State.Mirrored.of_same (h : s.Mirrored) (hc : t.cfg = s.cfg) (hs : t.shadow = s.shadow) (hl : t.lines = s.lines)
    (he : t.env.slave = s.env.slave) : t.Mirrored := by
  obtain ⟨d, hd, hagree⟩ := coherent_iff.mp h.coherent
  refine ⟨by rw [hc]; exact h.cfg, by rw [hs]; exact h.shadow, coherent_iff.mpr ⟨d, ?_, by rw [hs]; exact hagree⟩⟩
  exact ⟨hl.trans hd.idle, he.trans hd.slave, hd.quiet, hd.plain, hd.good⟩

theorem State.Mirrored.of_finish {r : Result} (hf : finish r s = .next t) (h : s.Mirrored) : t.Mirrored := by
  rw [finish_next hf]
  exact h.of_same rfl rfl rfl rfl

/-- A write burst mirrors the registers that agreed before it or that it writes: all of 0 to 13. -/
theorem State.PlainOnBus.mirrored_after_xwrite {d : Device} (h : s.PlainOnBus d) (hc : s.cfg.wf = true) (hwf : Memory.wf s.shadow)
    {i : Nat} {ds : List Byte} (hi : i < 22) (hlen : i + ds.length ≤ 22)
    (hagree : ∀ r, r ≤ 13 → (i ≤ r ∧ r < i + ds.length) ∨ Memory.read s.shadow r = Memory.read d.reg r) :
    (xwrite i ds s).2.Mirrored := by
  obtain ⟨e, he, hreg, hshadow⟩ := h.after_xwrite hc i ds hi hlen
  refine ⟨?_, ?_, coherent_iff.mpr ⟨e, he, fun r hr => ?_⟩⟩
  · rw [(xwrite_spec i ds s (by omega)).2.2.cfg]
    exact hc
  · rw [hshadow]
    exact burstPrefix_wf i ds _ hwf
  · rw [hshadow, hreg]
    exact read_burstPrefix_congr hwf h.good.reg i ds r (hagree r hr)

theorem State.Mirrored.after_xwrite (h : s.Mirrored) (i : Nat) (ds : List Byte) (hi : i < 22) (hlen : i + ds.length ≤ 22) :
    (xwrite i ds s).2.Mirrored := by
  obtain ⟨d, hd, hagree⟩ := coherent_iff.mp h.coherent
  exact hd.mirrored_after_xwrite h.cfg h.shadow hi hlen fun r hr => .inr (hagree r hr)

/-- A write of one pair of registers (R63). -/
theorem State.Mirrored.after_xwrite_pair (h : s.Mirrored) (i : Nat) (v : Half) (hi : i + 2 ≤ 22) :
    (xwrite i (portBytes v) s).2.Mirrored :=
  h.after_xwrite i (portBytes v) (by omega) hi

/-- A read burst that leaves the shadow alone, or updates it from register 14 on. -/
theorem State.Mirrored.after_xread (h : s.Mirrored) (i k : Nat) (update : Bool) (hlen : i + (k + 1) ≤ 22)
    (habove : update = false ∨ 14 ≤ i) : (xread i (k + 1) update s).2.Mirrored := by
  obtain ⟨d, hd, hagree⟩ := coherent_iff.mp h.coherent
  obtain ⟨e, he, hreg⟩ := hd.after_xread h.cfg i k update hlen
  have hruns := (xread_spec i (k + 1) update s).2.2.2
  have hread := xread_oneRead i (k + 1) update s
  refine ⟨by rw [hruns.cfg]; exact h.cfg, ?_, coherent_iff.mpr ⟨e, he, fun r hr => ?_⟩⟩
  · rw [hruns.shadow]
    split
    · exact burstPrefix_wf _ _ _ h.shadow
    · exact h.shadow
  · rw [hreg, hread.outside r (habove.imp_right fun _ => .inl (by omega))]
    exact hagree r hr

/-! ## The driver operations -/

theorem State.Mirrored.after_dread16 (h : s.Mirrored) : (dread16 s).2.Mirrored := h.after_xread 18 1 true (by decide) (.inr (by decide))

theorem State.Mirrored.after_dwrite16 (h : s.Mirrored) (v : Half) : (dwrite16 v s).2.Mirrored :=
  h.after_xwrite_pair 18 v (by decide)

theorem State.Mirrored.after_dwriteBit (h : s.Mirrored) (pin : Nat) (l : Level) : (dwriteBit pin l s).2.Mirrored := h.after_dwrite16 _

theorem State.Mirrored.after_pinMode (h : s.Mirrored) (pin : Nat) (m : PinMode) : (pinMode pin m s).2.Mirrored := by
  have hdir := h.after_xwrite_pair regDirA (setBit (pairAt s.shadow regDirA) pin m.dirBit) (by decide)
  unfold pinMode
  dsimp only
  split
  · exact hdir.after_xwrite_pair regPullupA _ (by decide)
  · exact hdir

/-- BEGIN mirrors whatever shadow and device held before: it sets the shadow, and its burst writes all of registers 0 to 13 (R131). -/
theorem exec_begin_mirrored {a b dirA dirB puA puB polA polB : Byte} (hc : s.cfg.wf = true) (hp : s.WithPlainDevice)
    (h : exec (.begin a b dirA dirB puA puB polA polB) s = .next t) : t.Mirrored := by
  obtain ⟨d, hd⟩ := withPlainDevice_iff.mp hp
  have hset : State.PlainOnBus { s with shadow := beginShadow dirA dirB puA puB polA polB } d :=
    ⟨hd.idle, hd.slave, hd.quiet, hd.plain, hd.good⟩
  have hburst := (hset.after_i2cInit a b).mirrored_after_xwrite hc (beginShadow_wf dirA dirB puA puB polA polB) (i := 0)
    (ds := (List.range 14).map (Memory.read (beginShadow dirA dirB puA puB polA polB))) (by decide) (by simp)
    (fun r hr => .inl (by simp; omega))
  exact .of_finish h (hburst.of_same rfl rfl rfl rfl)

/-- Every driver operation keeps shadow and device mirrored. -/
theorem exec_driver_mirrored {i : Instr} (hm : s.Mirrored) (hi : Instr.isDriver i = true) (h : exec i s = .next t) :
    t.Mirrored := by
  cases i <;> try cases hi
  case begin => exact exec_begin_mirrored hm.cfg hm.coherent.1 h
  case pinmode pin mode =>
    simp only [exec, execPinmode] at h
    split at h
    · exact .of_finish h (hm.after_pinMode _ _)
    all_goals exact .of_finish h hm
  case pudctl pin pud =>
    simp only [exec, execPudctl] at h
    split at h
    · exact .of_finish h (hm.after_xwrite_pair regPullupA _ (by decide))
    all_goals exact .of_finish h hm
  case dread16 => exact .of_finish h hm.after_dread16
  case dread pin =>
    simp only [exec, execDread] at h
    split at h
    · exact .of_finish h hm.after_dread16
    · exact .of_finish h hm
  case dwrite16 v => exact .of_finish h (hm.after_dwrite16 v)
  case dwrite pin level =>
    simp only [exec, execDwrite] at h
    split at h
    · exact .of_finish h (hm.after_dwriteBit _ _)
    all_goals exact .of_finish h hm
  case dumpregs =>
    exact .of_finish h ((hm.after_xread 0 21 false (by decide) (.inl rfl)).of_same rfl rfl rfl rfl)

/-! ## The handlers -/

theorem State.Mirrored.after_noteErr (h : s.Mirrored) (r : Result) : (noteErr r s).Mirrored :=
  h.of_same (by simp) (by simp) (by simp) (by simp)

theorem State.Mirrored.after_handlerWrite (h : s.Mirrored) (pin : BitVec 4) (l : Level) : (handlerWrite pin l s).2.Mirrored :=
  (h.after_dwriteBit pin.toNat l).after_noteErr _

theorem State.Mirrored.after_handlerRead (h : s.Mirrored) : (handlerRead s).2.Mirrored := h.after_dread16.after_noteErr _

theorem State.Mirrored.after_publish (h : s.Mirrored) (name value : String) : (publish name value s).Mirrored :=
  h.of_same rfl rfl rfl rfl

theorem State.Mirrored.after_delayMs (h : s.Mirrored) (ms : Nat) : (delayMs ms s).Mirrored := h.of_same rfl rfl rfl rfl

theorem State.Mirrored.with_timer (h : s.Mirrored) (n : Half) (armed : Bool) :
    State.Mirrored { s with actCountdown := n, minArmed := armed } :=
  h.of_same rfl rfl rfl rfl

theorem State.Mirrored.after_handleActOn (h : s.Mirrored) : (handleActOn s).Mirrored := by
  have hon : State.Mirrored { s with actOn := true } := h.of_same rfl rfl rfl rfl
  exact ((hon.after_handlerWrite s.cfg.pumpPin s.cfg.pumpActive).after_publish s.cfg.nameAct s.cfg.valOn).with_timer _ true

theorem State.Mirrored.after_handleActOff (h : s.Mirrored) : (handleActOff s).Mirrored := by
  have hoff : State.Mirrored { s with actOn := false } := h.of_same rfl rfl rfl rfl
  exact ((hoff.after_handlerWrite s.cfg.pumpPin (!s.cfg.pumpActive)).after_publish s.cfg.nameAct s.cfg.valOff).with_timer 0 false

theorem State.Mirrored.after_handleLevelSample (h : s.Mirrored) : (handleLevelSample s).Mirrored := by
  have hon := h.after_handlerWrite s.cfg.lvlPin s.cfg.lvlActive
  unfold handleLevelSample
  dsimp only
  split
  · have hread := (hon.after_delayMs s.cfg.tSettleMs).after_handlerRead
    have hoff := hread.after_handlerWrite s.cfg.lvlPin (!s.cfg.lvlActive)
    split
    · exact hoff.after_publish _ _
    · exact hoff
  · exact hon.after_handlerWrite _ _

/-- Every handler keeps shadow and device mirrored. -/
theorem State.Mirrored.after_handleSignal (h : s.Mirrored) (g : Signal) : (handleSignal g s).Mirrored := by
  unfold handleSignal
  split
  · split
    · exact h.after_handleActOn
    · exact h.after_handleActOff
  · exact h.after_handleLevelSample
  · exact h.after_publish _ _
  · exact h.of_same rfl rfl rfl (Env.answerUpgrade_slave s.env)

/-! ## Every operation -/

/-- Every operation but a line primitive keeps shadow and device mirrored. -/
theorem exec_mirrored {i : Instr} (hm : s.Mirrored) (hi : Instr.isEngine i = false) (h : exec i s = .next t) : t.Mirrored := by
  rcases instr_kinds i with (heng | hdrv) | hcb | rfl | ⟨reg, w, rfl⟩ | ⟨reg, rfl⟩
  · exact absurd (heng.symm.trans hi) (by decide)
  · exact exec_driver_mirrored hm hdrv h
  · rw [(exec_callbackFrame hcb h).1]
    exact hm.of_same rfl rfl rfl rfl
  · rcases exec_dispatch_cases s t h with ⟨-, rfl⟩ | ⟨g, rest, -, rfl⟩
    · exact hm.of_same rfl rfl rfl rfl
    · have hrest : State.Mirrored { s with queue := rest } := hm.of_same rfl rfl rfl rfl
      exact (hrest.after_handleSignal g).of_same rfl rfl rfl rfl
  · rw [exec_wrcfg_frame h]
    exact hm.of_same rfl rfl rfl rfl
  · rw [exec_rdcfg_frame h]
    exact hm.of_same rfl rfl rfl rfl

end

/-- Settles O46: coherence, with the shadow canonical and the parameters in their ranges, is kept by every operation but a line primitive,
and BEGIN establishes it. -/
theorem registersStayCoherent : Obligations.RegistersStayCoherent :=
  ⟨fun _ _ _ hc hwf hcoh hi h => (exec_mirrored ⟨hc, hwf, hcoh⟩ hi h).coherent,
    fun _ _ _ _ _ _ _ _ _ _ hc hp h => (exec_begin_mirrored hc hp h).coherent⟩

end Sys2Proof.Machine
end

section
/-! PROOF. The command format (spec/30_encoding.md R90 to R99): O1 (decode after encode), O2 (what decodes is an encoding), O3 (lengths by opcode
byte) and O4 (one word per opcode). What each operand reader can answer is said once, and one table gives every opcode byte its reader. -/
namespace Sys2Proof.Machine

/-! ## The opcode map -/

/-- The opcode bytes of R91. -/
def opcodeMap : List Byte :=
  [0x10, 0x11, 0x12, 0x13, 0x14, 0x15, 0x16, 0x17, 0x18, 0x19, 0x20, 0x21, 0x22, 0x23, 0x24, 0x25, 0x26, 0x27, 0x30, 0x40, 0x41, 0x42,
    0x43, 0x44, 0x45, 0x46]

/-- Every byte is an illegal opcode byte or in the map (R91, R97). -/
theorem illegal_or_mem_opcodeMap : ∀ op : Byte, IllegalOpcode op ∨ op ∈ opcodeMap := by
  unfold IllegalOpcode
  decide

/-- The decoder finds an illegal opcode byte in every byte of the gaps of the map (R97). -/
theorem decode_illegal {op : Byte} (bytes : List Byte) (h : IllegalOpcode op) : decode (op :: bytes) = .illegal op bytes := by
  unfold IllegalOpcode at h
  simp only [decode]
  split
  case h_27 => rfl
  all_goals omega

/-! ## The operand readers -/

/-- What a reader of `n` operand bytes may answer after the opcode byte `op`: that operand bytes are missing, or the command whose
encoding is the opcode byte and the next `n` bytes (R90, R99). -/
inductive Reads (op : Byte) (n : Nat) : List Byte → Decoded → Prop
  | short {bytes : List Byte} : bytes.length < n → Reads op n bytes .incomplete
  | whole {i : Instr} {operands rest : List Byte} :
      operands.length = n → encode i = op :: operands → Reads op n (operands ++ rest) (.ok i rest)

/-- With too few operand bytes the reader waits. -/
theorem Reads.incomplete {op : Byte} {n : Nat} {bytes : List Byte} {d : Decoded} (h : Reads op n bytes d) (hn : bytes.length < n) :
    d = .incomplete := by
  cases h with
  | short => rfl
  | whole hlen => simp only [List.length_append] at hn; omega

/-- With enough operand bytes the reader takes `n` of them. -/
theorem Reads.ok {op : Byte} {n : Nat} {bytes : List Byte} {d : Decoded} (h : Reads op n bytes d) (hn : n ≤ bytes.length) :
    ∃ i, d = .ok i (bytes.drop n) := by
  cases h with
  | short hlt => omega
  | whole hlen => exact ⟨_, by rw [← hlen, List.drop_left]⟩

/-- The command read is encoded by the bytes taken. -/
theorem Reads.encoding {op : Byte} {n : Nat} {bytes rest : List Byte} {i : Instr} (h : Reads op n bytes (.ok i rest)) :
    op :: bytes = encode i ++ rest := by
  cases h with
  | whole _ henc => rw [henc]; rfl

/-- Format N. -/
theorem reads_none {op : Byte} {i : Instr} (h : encode i = [op]) (bytes : List Byte) : Reads op 0 bytes (.ok i bytes) :=
  .whole (operands := []) rfl h

/-- Formats B and L. -/
theorem decodeB_reads {op : Byte} {f : Byte → Instr} (h : ∀ a, encode (f a) = [op, a]) :
    ∀ bytes, Reads op 1 bytes (decodeB f bytes)
  | [] => .short (by simp)
  | a :: _ => .whole (operands := [a]) rfl (h a)

/-- Formats P2 and PB. -/
theorem decodeP_reads {op : Byte} {f : Byte → Byte → Instr} (h : ∀ a b, encode (f a b) = [op, a, b]) :
    ∀ bytes, Reads op 2 bytes (decodeP f bytes)
  | [] | [_] => .short (by simp)
  | a :: b :: _ => .whole (operands := [a, b]) rfl (h a b)

/-- Format H: the two bytes are those of the value they make (R95). -/
theorem decodeH_reads {op : Byte} {f : Half → Instr} (h : ∀ v, encode (f v) = [op, loByte v, hiByte v]) :
    ∀ bytes, Reads op 2 bytes (decodeH f bytes)
  | [] | [_] => .short (by simp)
  | lo :: hi :: _ => .whole (operands := [lo, hi]) rfl (by rw [h, loByte_pack16, hiByte_pack16])

/-- The bytes of four bytes packed are those four bytes (R95). -/
theorem bytes32_pack32 (b3 b2 b1 b0 : Byte) : bytes32 (pack32 b3 b2 b1 b0) = [b0, b1, b2, b3] := by
  unfold bytes32 pack32
  simp only [BitVec.extractLsb'_append_eq_ite]
  simp

/-- Format KW: the four bytes are those of the word they make (R95). -/
theorem decodeKW_reads {op : Byte} {f : Byte → Word → Instr} (h : ∀ k w, encode (f k w) = op :: k :: bytes32 w) :
    ∀ bytes, Reads op 5 bytes (decodeKW f bytes)
  | [] | [_] | [_, _] | [_, _, _] | [_, _, _, _] => .short (by simp)
  | k :: b0 :: b1 :: b2 :: b3 :: _ => .whole (operands := [k, b0, b1, b2, b3]) rfl (by rw [h, bytes32_pack32])

/-- Format G. -/
theorem decodeG_reads {op : Byte} {f : Byte → Byte → Byte → Byte → Byte → Byte → Byte → Byte → Instr}
    (h : ∀ a b c d e g j k, encode (f a b c d e g j k) = [op, a, b, c, d, e, g, j, k]) :
    ∀ bytes, Reads op 8 bytes (decodeG f bytes)
  | [] | [_] | [_, _] | [_, _, _] | [_, _, _, _] | [_, _, _, _, _] | [_, _, _, _, _, _] | [_, _, _, _, _, _, _] => .short (by simp)
  | a :: b :: c :: d :: e :: g :: j :: k :: _ => .whole (operands := [a, b, c, d, e, g, j, k]) rfl (h a b c d e g j k)

/-- The map of R91, row by row: after a legal opcode byte the decoder reads as many operand bytes as the command's length leaves. -/
theorem decode_reads {op : Byte} (h : ¬ IllegalOpcode op) (bytes : List Byte) :
    Reads op (commandLength op - 1) bytes (decode (op :: bytes)) := by
  have hop := (illegal_or_mem_opcodeMap op).resolve_left h
  simp only [opcodeMap, List.mem_cons, List.not_mem_nil, or_false] at hop
  obtain rfl | rfl | rfl | rfl | rfl | rfl | rfl | rfl | rfl | rfl | rfl | rfl | rfl | rfl | rfl | rfl | rfl | rfl | rfl | rfl | rfl
    | rfl | rfl | rfl | rfl | rfl := hop
  · exact decodeP_reads (f := .i2cinit) (fun _ _ => rfl) bytes
  · exact decodeB_reads (f := .setlines) (fun _ => rfl) bytes
  · exact reads_none (i := .start) rfl bytes
  · exact reads_none (i := .stop) rfl bytes
  · exact decodeB_reads (f := .sendbyte) (fun _ => rfl) bytes
  · exact reads_none (i := .readack) rfl bytes
  · exact decodeB_reads (f := .sendack) (fun _ => rfl) bytes
  · exact reads_none (i := .ack) rfl bytes
  · exact reads_none (i := .nack) rfl bytes
  · exact reads_none (i := .readbyte) rfl bytes
  · exact decodeG_reads (f := .begin) (fun _ _ _ _ _ _ _ _ => rfl) bytes
  · exact decodeP_reads (f := .pinmode) (fun _ _ => rfl) bytes
  · exact decodeP_reads (f := .pudctl) (fun _ _ => rfl) bytes
  · exact reads_none (i := .dread16) rfl bytes
  · exact decodeB_reads (f := .dread) (fun _ => rfl) bytes
  · exact decodeH_reads (f := .dwrite16) (fun _ => rfl) bytes
  · exact decodeP_reads (f := .dwrite) (fun _ _ => rfl) bytes
  · exact reads_none (i := .dumpregs) rfl bytes
  · exact decodeB_reads (f := .sample) (fun _ => rfl) bytes
  · exact decodeKW_reads (f := .post) (fun _ _ => rfl) bytes
  · exact reads_none (i := .dispatch) rfl bytes
  · exact reads_none (i := .mintick) rfl bytes
  · exact decodeB_reads (f := .retrytick) (fun _ => rfl) bytes
  · exact reads_none (i := .leveltick) rfl bytes
  · exact decodeKW_reads (f := .wrcfg) (fun _ _ => rfl) bytes
  · exact decodeB_reads (f := .rdcfg) (fun _ => rfl) bytes

/-- Every command is at least its opcode byte. -/
theorem commandLength_pos (op : Byte) : 0 < commandLength op := by
  unfold commandLength
  split <;> decide

/-- Before its last operand byte a command does not decode (R90). -/
theorem decode_incomplete {op : Byte} {bytes : List Byte} (hop : ¬ IllegalOpcode op) (hlen : bytes.length + 1 < commandLength op) :
    decode (op :: bytes) = .incomplete :=
  (decode_reads hop bytes).incomplete (by omega)

/-! ## The obligations -/

/-- Settles O1: one lemma per operation, of which only DWRITE16, POST and WRCFG pack bytes into a wider operand. -/
theorem decodeReadsBackEncode : Obligations.DecodeReadsBackEncode := by
  intro i
  cases i with
  | i2cinit a b => exact Laws.DecodeEncode.i2cinit a b
  | setlines a => exact Laws.DecodeEncode.setlines a
  | start => exact Laws.DecodeEncode.start
  | stop => exact Laws.DecodeEncode.stop
  | sendbyte v => exact Laws.DecodeEncode.sendbyte v
  | readack => exact Laws.DecodeEncode.readack
  | sendack low => exact Laws.DecodeEncode.sendack low
  | ack => exact Laws.DecodeEncode.ack
  | nack => exact Laws.DecodeEncode.nack
  | readbyte => exact Laws.DecodeEncode.readbyte
  | begin a b c d e f g h => exact Laws.DecodeEncode.begin a b c d e f g h
  | pinmode pin mode => exact Laws.DecodeEncode.pinmode pin mode
  | pudctl pin pud => exact Laws.DecodeEncode.pudctl pin pud
  | dread16 => exact Laws.DecodeEncode.dread16
  | dread pin => exact Laws.DecodeEncode.dread pin
  | dwrite16 v => exact Laws.DecodeEncode.dwrite16 v
  | dwrite pin level => exact Laws.DecodeEncode.dwrite pin level
  | dumpregs => exact Laws.DecodeEncode.dumpregs
  | sample raw => exact Laws.DecodeEncode.sample raw
  | post kind param => exact Laws.DecodeEncode.post kind param
  | dispatch => exact Laws.DecodeEncode.dispatch
  | mintick => exact Laws.DecodeEncode.mintick
  | retrytick slot => exact Laws.DecodeEncode.retrytick slot
  | leveltick => exact Laws.DecodeEncode.leveltick
  | wrcfg reg w => exact Laws.DecodeEncode.wrcfg reg w
  | rdcfg reg => exact Laws.DecodeEncode.rdcfg reg

/-- Settles O2: the head byte is in the map, and its reader took exactly the command's encoding. -/
theorem decodedCommandIsItsEncoding : Obligations.DecodedCommandIsItsEncoding := by
  intro bytes i rest hdec
  cases bytes with
  | nil => cases hdec
  | cons op bytes =>
    by_cases hop : IllegalOpcode op
    · rw [decode_illegal bytes hop] at hdec
      cases hdec
    · have hreads := decode_reads hop bytes
      rw [hdec] at hreads
      exact hreads.encoding

/-- Settles O3: the gaps of the map decode alone, and every reader of the map takes the length of its opcode byte. -/
theorem opcodeByteDecidesLength : Obligations.OpcodeByteDecidesLength := by
  refine ⟨fun op bytes => ⟨decode_illegal bytes, decode_incomplete, fun hop hlen => ?_⟩, ?_, illegal_or_mem_opcodeMap⟩
  · have hpos := commandLength_pos op
    exact (decode_reads hop bytes).ok (by omega)
  · unfold IllegalOpcode
    decide

/-- Settles O4: each word, evaluated. -/
theorem specWordsDecode : Obligations.SpecWordsDecode := by
  unfold Obligations.SpecWordsDecode
  decide

end Sys2Proof.Machine
end

section
/-! PROOF. The command port and the result port (spec/30_encoding.md R90, R93 to R97, R100 to R102): O5 (the assembler's examples), O6 (refused
commands), O8 and O10 (what a step runs) and O9 (what the result port presents). -/
namespace Sys2Proof.Machine

/-! ## The step, by what the decoder finds -/

/-- A whole command runs and its result is presented. -/
theorem step_of_decode_ok {s t : State} {i : Instr} {rest : List Byte} (hdec : decode s.cmd = .ok i rest)
    (h : exec i (accept rest s) = .next t) : step s = .next (present (some i) t) := by
  simp only [step, hdec, h]

/-- An illegal opcode byte is rejected. -/
theorem step_of_decode_illegal {s : State} {op : Byte} {rest : List Byte} (hdec : decode s.cmd = .illegal op rest) :
    step s = .next (rejectOpcode rest s) := by
  simp only [step, hdec]

/-- A rejected opcode byte changes the stream and the result: `data` and `word` of the record are kept, and the port shows code 6. -/
theorem rejectOpcode_eq (rest : List Byte) (s : State) :
    rejectOpcode rest s = { s with cmd := rest, res := s.outcome .illegalCmd 0 0, port := [6, 0, 0, 0] } := by
  have hlo : loByte 0 = 0 := by decide
  have hhi : hiByte 0 = 0 := by decide
  simp only [rejectOpcode, present, resultBytes, setResult_res, hlo, hhi]
  rfl

/-- Without a whole command nothing changes. -/
theorem step_of_decode_incomplete {s : State} (hdec : decode s.cmd = .incomplete) : step s = .next s := by
  simp only [step, hdec]

/-! ## Every operation answers a next state (R223) -/

/-- Every path of every operation ends in `finish`: the operations without a branch by evaluation, the others path by path. -/
theorem exec_next (i : Instr) (s : State) : ∃ t, exec i s = .next t := by
  cases i
  case setlines a => simp only [exec, execSetlines]; split <;> exact ⟨_, rfl⟩
  case sendack low => simp only [exec, execSendack]; split <;> exact ⟨_, rfl⟩
  case pinmode pin mode => simp only [exec, execPinmode]; split <;> exact ⟨_, rfl⟩
  case pudctl pin pud => simp only [exec, execPudctl]; split <;> exact ⟨_, rfl⟩
  case dread pin => simp only [exec, execDread]; split <;> exact ⟨_, rfl⟩
  case dwrite pin level => simp only [exec, execDwrite]; split <;> exact ⟨_, rfl⟩
  case post kind param =>
    simp only [exec, execPost]
    split
    · exact ⟨_, rfl⟩
    · split <;> exact ⟨_, rfl⟩
  case dispatch => simp only [exec, execDispatch]; split <;> exact ⟨_, rfl⟩
  case mintick =>
    simp only [exec, execMintick]
    split
    · generalize (if 0 < s.actCountdown then s.actCountdown - 1 else s.actCountdown) = n
      split <;> exact ⟨_, rfl⟩
    · exact ⟨_, rfl⟩
  case retrytick slot =>
    simp only [exec, execRetrytick]
    split
    · exact ⟨_, rfl⟩
    · split
      · exact ⟨_, rfl⟩
      · split <;> exact ⟨_, rfl⟩
  case wrcfg reg w =>
    simp only [exec, execWrcfg]
    split
    · exact ⟨_, rfl⟩
    · split
      · exact ⟨_, rfl⟩
      · split <;> exact ⟨_, rfl⟩
  case rdcfg reg => simp only [exec, execRdcfg]; split <;> exact ⟨_, rfl⟩
  all_goals exact ⟨_, rfl⟩

/-! ## Refused operands -/

theorem kindOf_none : ∀ kind : Byte, ¬ (1 ≤ kind.toNat ∧ kind.toNat ≤ 4) → kindOf kind = none := by unfold kindOf; decide

/-- POST refuses a parameter above 1 of kinds 1 and 3, and every kind other than 1 to 4 (R96). -/
theorem signalOf_none {kind : Byte} {param : Word} {nch : Nat} (h : (Instr.post kind param).wellFormed nch = false) :
    signalOf kind param = none := by
  simp only [Instr.wellFormed, Bool.or_eq_false_iff, Bool.and_eq_false_iff, decide_eq_false_iff_not] at h
  obtain ⟨⟨hflag, h2⟩, h4⟩ := h
  by_cases hkind : 1 ≤ kind.toNat ∧ kind.toNat ≤ 4
  · have hparam : ¬ param ≤ 1 := hflag.resolve_left (by omega)
    obtain rfl | rfl : kind = 1 ∨ kind = 3 := by bv_omega
    · exact if_neg hparam
    · exact if_neg hparam
  · rw [signalOf, kindOf_none kind hkind]

/-- RETRYTICK refuses a slot number that names no producer (R37, R93). -/
theorem producerOf_none {slot : Byte} {nch : Nat} (h : (Instr.retrytick slot).wellFormed nch = false) : producerOf nch slot = none := by
  simp only [Instr.wellFormed, Bool.or_eq_false_iff, decide_eq_false_iff_not] at h
  obtain ⟨⟨hchan, h8⟩, h9⟩ := h
  rw [producerOf, if_neg hchan, if_neg (mt (congrArg BitVec.toNat) h8), if_neg (mt (congrArg BitVec.toNat) h9)]

/-- RDCFG refuses the numbers outside the map of R42. -/
theorem configWord_none {reg : Byte} {s : State} (h : (Instr.rdcfg reg).wellFormed s.nch = false) : configWord s reg = none := by
  simp only [Instr.wellFormed, ← Bool.decide_and, Bool.or_eq_false_iff, decide_eq_false_iff_not] at h
  obtain ⟨⟨hhost, hchan⟩, hshadow⟩ := h
  have hne : ∀ n : Byte, n.toNat ≤ 7 → reg ≠ n := by
    rintro n hn rfl
    exact hhost hn
  rw [configWord, if_neg (hne 0 (by decide)), if_neg (hne 1 (by decide)), if_neg (hne 2 (by decide)), if_neg (hne 3 (by decide)),
    if_neg (hne 4 (by decide)), if_neg (hne 5 (by decide)), if_neg (hne 6 (by decide)), if_neg (hne 7 (by decide)), if_neg hchan,
    if_neg hshadow]

/-- An operation with an operand out of range ends at once with INVALID_ARG (R97, R130). -/
theorem exec_refused {i : Instr} {s : State} (h : i.wellFormed s.nch = false) (hi : ∀ reg, i ≠ .rdcfg reg) :
    exec i s = .next (s.setResult .invalidArg) := by
  cases i <;> try cases h
  case rdcfg reg => exact absurd rfl (hi reg)
  case post kind param => simp only [exec, execPost, signalOf_none h, finish_eq]
  case retrytick slot => simp only [exec, execRetrytick, producerOf_none h, finish_eq]
  all_goals simp only [Instr.wellFormed, Bool.and_eq_false_iff, ← Bool.decide_or, decide_eq_false_iff_not] at h
  case setlines a => simp only [exec, execSetlines, linesOf_none a h, finish_eq]
  case sendack low => simp only [exec, execSendack, flagOf_none low h, finish_eq]
  case pinmode pin mode =>
    simp only [exec, execPinmode, pinOk_eq]
    rcases h with hpin | hmode
    · simp only [hpin, decide_false, finish_eq]
    · rw [pinModeOf_none mode hmode]
      cases decide (pin.toNat ≤ 15) <;> rfl
  case pudctl pin pud =>
    simp only [exec, execPudctl, pinOk_eq]
    rcases h with hpin | hpud
    · simp only [hpin, decide_false, finish_eq]
    · rw [pudBitOf_none pud hpud]
      cases decide (pin.toNat ≤ 15) <;> rfl
  case dread pin => simp only [exec, execDread, pinOk_eq, h, decide_false, Bool.false_eq_true, if_false, finish_eq]
  case dwrite pin level =>
    simp only [exec, execDwrite, pinOk_eq]
    rcases h with hpin | hlevel
    · simp only [hpin, decide_false, finish_eq]
    · rw [flagOf_none level hlevel]
      cases decide (pin.toNat ≤ 15) <;> rfl
  case wrcfg reg w =>
    have hne : ∀ n : Byte, n.toNat ≤ 2 → reg ≠ n := by
      rintro n hn rfl
      exact h hn
    simp only [exec, execWrcfg, hne 0 (by decide), hne 1 (by decide), hne 2 (by decide), if_false, finish_eq]

/-- A refused RDCFG leaves the word 0 beside INVALID_ARG (R197). -/
theorem exec_rdcfg_refused {reg : Byte} {s : State} (h : (Instr.rdcfg reg).wellFormed s.nch = false) :
    exec (.rdcfg reg) s = .next ({ s with res := { s.res with word := 0 } }.setResult .invalidArg) := by
  simp only [exec, execRdcfg, configWord_none h, finish_eq]

/-! ## The obligations -/

/-- Settles O5: each program, assembled. -/
theorem assemblerReadsTheExamples : Obligations.AssemblerReadsTheExamples := by
  unfold Obligations.AssemblerReadsTheExamples
  decide

/-- Settles O6: the decoder hands an illegal opcode byte to the result port, and every operand check comes before the operation. -/
theorem illegalCommandsLeaveOnlyTheirResult : Obligations.IllegalCommandsLeaveOnlyTheirResult := by
  refine ⟨fun s op rest hcmd hop => ?_, fun i s => exec_refused, fun reg s => exec_rdcfg_refused⟩
  rw [step_of_decode_illegal (by rw [hcmd, decode_illegal rest hop]), rejectOpcode_eq]

/-- Settles O8: every operation answers a next state, and the step presents it. -/
theorem stepRunsDecodedCommand : Obligations.StepRunsDecodedCommand := by
  intro s i rest hdec
  obtain ⟨t, ht⟩ := exec_next i (accept rest s)
  exact ⟨t, ht, step_of_decode_ok hdec ht⟩

/-- Operations other than DUMPREGS and RDCFG present status, index and value only (R102). -/
theorem resultBytes_short {i : Instr} (r : Res) (hdump : i ≠ .dumpregs) (hrd : ∀ reg, i ≠ .rdcfg reg) :
    (resultBytes (some i) r).drop 4 = [] := by
  unfold resultBytes
  split
  · next heq => exact absurd (Option.some.inj heq) hdump
  · next reg heq => exact absurd (Option.some.inj heq) (hrd reg)
  · rfl

/-- Settles O9: the port holds `resultBytes` of the command that ran. -/
theorem resultPortPresentsRecord : Obligations.ResultPortPresentsRecord := by
  refine ⟨fun s t i rest hdec hstep => ?_, rfl, rfl, rfl, rfl, rfl, rfl, rfl⟩
  obtain ⟨u, hu⟩ := exec_next i (accept rest s)
  obtain rfl : present (some i) u = t := by
    rw [step_of_decode_ok hdec hu] at hstep
    injection hstep
  refine ⟨rfl, ?_, ?_, resultBytes_short u.res⟩
  · rintro rfl
    rfl
  · rintro ⟨reg, rfl⟩
    rfl

/-- Settles O10: a stream without a whole command decodes to none. -/
theorem stepWaitsForWholeCommand : Obligations.StepWaitsForWholeCommand := by
  rintro s (hcmd | ⟨op, bytes, hcmd, hop, hlen⟩)
  · exact step_of_decode_incomplete (by rw [hcmd]; rfl)
  · exact step_of_decode_incomplete (by rw [hcmd, decode_incomplete hop hlen])

end Sys2Proof.Machine
end

section
/-! PROOF. The line primitives of U1 (spec/40_i2c_engine.md R110 to R124): O23 to O29 (what each primitive drives, samples and answers), O30 (the
slot table) and O35 (the conditions of a transaction), from the runs of Laws/Bus.lean. -/
namespace Sys2Proof.Machine

/-! ## START and STOP conditions of each piece of a waveform (R124) -/

/-- The slots of START: its START in the last of them, and before it a STOP where it raises SDA under a high SCL (R114). -/
theorem conditions_startSlots (k : Nat) (p : Slot) :
    conditions k p (startSlots p) = if p = ⟨false, true⟩ then [(k, true), (k + 2, false)] else [(k + 2, false)] := by
  rcases p with ⟨_ | _, _ | _⟩ <;> rfl

/-- The slots of STOP: its STOP in the last of them, and before it a START where it lowers SDA under a high SCL (R115). -/
theorem conditions_stopSlots (k : Nat) (p : Slot) :
    conditions k p (stopSlots p) = if p = ⟨true, true⟩ then [(k, false), (k + 2, true)] else [(k + 2, true)] := by
  rcases p with ⟨_ | _, _ | _⟩ <;> rfl

/-- Releasing both lines in one slot is a STOP from (0,1) only (R113). -/
theorem conditions_release (k : Nat) (p : Slot) :
    conditions k p [⟨true, true⟩] = if p = ⟨false, true⟩ then [(k, true)] else [] := by
  rcases p with ⟨_ | _, _ | _⟩ <;> rfl

/-- The slots `w` lead the lines from `p` to `q` without a START or a STOP. -/
structure Quiet (p : Slot) (w : List Slot) (q : Slot) : Prop where
  none : ∀ k, conditions k p w = []
  last : lastSlot p w = q

theorem Quiet.append {p q r : Slot} {a b : List Slot} (ha : Quiet p a q) (hb : Quiet q b r) : Quiet p (a ++ b) r where
  none k := by rw [conditions_append, ha.none, ha.last, hb.none]; rfl
  last := by rw [lastSlot_append, ha.last, hb.last]

/-- A byte sent with its acknowledge clock is quiet, from any levels (R116, R117). -/
theorem sentSlots_quiet (p : Slot) (v : Byte) : Quiet p (sentSlots p.sda v) ⟨true, false⟩ := ⟨fun k => conditions_sentSlots k p v, rfl⟩

/-- SENDBYTE drives the first 25 slots of a byte sent with its acknowledge clock, so it is as quiet (R116). -/
theorem conditions_sendByte (k : Nat) (p : Slot) (v : Byte) : conditions k p (⟨p.sda, false⟩ :: byteSlots v) = [] := by
  have h := conditions_sentSlots k p v
  rw [sentSlots, conditions_append] at h
  exact (List.append_eq_nil_iff.1 h).1

theorem sent_flatMap_quiet (bs : List Byte) : Quiet ⟨true, false⟩ (bs.flatMap (sentSlots true)) ⟨true, false⟩ :=
  ⟨fun k => (conditions_sent_flatMap k bs).1, (conditions_sent_flatMap 0 bs).2.1⟩

/-- The bytes of a read burst are quiet: SDA is released in them, but for the acknowledge, which is put out under a low SCL (R66). -/
theorem readSlots_quiet (k : Nat) : Quiet ⟨true, false⟩ (readSlots k) ⟨true, false⟩ := by
  induction k with
  | zero => exact ⟨fun _ => rfl, rfl⟩
  | succ k ih =>
    refine Quiet.append ⟨fun n => ?_, rfl⟩ ih
    cases decide (k = 0) <;> rfl

/-- START, a quiet run, STOP: from the idle bus one START in slot 3 and one STOP in the last slot. -/
theorem conditions_transaction {w : List Slot} (h : Quiet ⟨false, true⟩ w ⟨true, false⟩) :
    conditions 1 ⟨true, true⟩ (startSlots ⟨true, true⟩ ++ w ++ stopSlots ⟨true, false⟩)
      = [(3, false), ((startSlots ⟨true, true⟩ ++ w ++ stopSlots ⟨true, false⟩).length, true)] := by
  rw [conditions_append, conditions_append, lastSlot_append, show lastSlot ⟨true, true⟩ (startSlots ⟨true, true⟩) = ⟨false, true⟩ from rfl,
    h.none, h.last, conditions_startSlots, conditions_stopSlots]
  simp +arith [startSlots, stopSlots]

/-- With a repeated START between two quiet runs there is a second START, in the last of its three slots. -/
theorem conditions_repeatedStart {w w' : List Slot} (h : Quiet ⟨false, true⟩ w ⟨true, false⟩)
    (h' : Quiet ⟨false, true⟩ w' ⟨true, false⟩) :
    conditions 1 ⟨true, true⟩ (startSlots ⟨true, true⟩ ++ w ++ startSlots ⟨true, false⟩ ++ w' ++ stopSlots ⟨true, false⟩)
      = [(3, false), (6 + w.length, false),
        ((startSlots ⟨true, true⟩ ++ w ++ startSlots ⟨true, false⟩ ++ w' ++ stopSlots ⟨true, false⟩).length, true)] := by
  have first : lastSlot ⟨true, true⟩ (startSlots ⟨true, true⟩) = ⟨false, true⟩ := rfl
  have second : lastSlot ⟨true, false⟩ (startSlots ⟨true, false⟩) = ⟨false, true⟩ := rfl
  simp only [conditions_append, lastSlot_append, first, second, h.none, h.last, h'.none, h'.last, conditions_startSlots,
    conditions_stopSlots]
  simp +arith [startSlots, stopSlots]

/-! ## The two transactions from the idle bus -/

theorem conditions_burstSlots (b : Byte) (bs : List Byte) :
    conditions 1 ⟨true, true⟩ (burstSlots ⟨true, true⟩ (b :: bs))
      = [(3, false), ((burstSlots ⟨true, true⟩ (b :: bs)).length, true)] :=
  conditions_transaction ((sentSlots_quiet ⟨false, true⟩ b).append (sent_flatMap_quiet bs))

/-- A read burst shows a repeated START exactly where it got as far as the read address (R66, R124). -/
theorem conditions_readBurstSlots (c : Config) (i k : Nat) {status : Status} {index : Byte} (h : ReadStatus status index) :
    conditions 1 ⟨true, true⟩ (readBurstSlots c ⟨true, true⟩ i k status index) =
      if status = .ok ∨ index = 1
      then [(3, false), (64, false), ((readBurstSlots c ⟨true, true⟩ i k status index).length, true)]
      else [(3, false), ((readBurstSlots c ⟨true, true⟩ i k status index).length, true)] := by
  have address := sentSlots_quiet ⟨false, true⟩ (writeAddr c)
  have pointer := address.append (sentSlots_quiet ⟨true, false⟩ (regPtr c i))
  have again := sentSlots_quiet ⟨false, true⟩ (readAddr c)
  rcases h with ⟨rfl, rfl⟩ | ⟨rfl, rfl | rfl⟩ | ⟨rfl, rfl⟩
  · have := conditions_repeatedStart pointer (again.append (readSlots_quiet k))
    simpa [readBurstSlots, List.append_assoc] using this
  · have := conditions_transaction address
    simpa [readBurstSlots, List.append_assoc] using this
  · have := conditions_repeatedStart pointer again
    simpa [readBurstSlots, List.append_assoc] using this
  · have := conditions_transaction pointer
    simpa [readBurstSlots, List.append_assoc] using this

/-- Settles O35: both waveforms are START, quiet bytes and STOP, and a read that reaches it has the repeated START between them. -/
theorem conditionsOnlyAtStartAndStop : Obligations.ConditionsOnlyAtStartAndStop := by
  constructor
  · intro i data s _ hi hidle
    obtain ⟨-, -, hruns⟩ := xwrite_spec i data s (by omega)
    obtain ⟨bs, hbs⟩ := sentBytes_eq_cons s.cfg i data (xwrite i data s).1.status (xwrite i data s).1.index
    rw [newSlots_runs hruns, show s.lines = ⟨true, true⟩ from hidle, hbs]
    exact conditions_burstSlots _ bs
  · intro i k u s _ _ hidle
    obtain ⟨hends, -, -, hruns⟩ := xread_spec i k u s
    rw [newSlots_runs hruns, show s.lines = ⟨true, true⟩ from hidle]
    exact conditions_readBurstSlots s.cfg i k hends

/-! ## What an operation that ran leaves -/

/-- An operation that only drove the bus, after its result was recorded (R33). -/
theorem Runs.setResult_eq {s t : State} {w : List Slot} {p : Slot} (h : Runs s t w p s.shadow) (r : Result) :
    t.setResult r = { s with
      i2c := { s.i2c with lastSda := p.sda, lastScl := p.scl }
      wave := s.wave ++ w
      res := s.outcome r.status r.index r.value
      env := t.env } := by
  conv_lhs => rw [h.eq]
  rfl

theorem newSlots_setResult (s t : State) (r : Result) : newSlots s (t.setResult r) = newSlots s t := rfl

theorem newSlots_i2cInit (a b : Byte) (s : State) : newSlots s (i2cInit a b s) = [⟨true, true⟩] := by
  rw [newSlots, i2cInit_eq, List.drop_left]

/-- The operand check of SETLINES passed: its one slot is driven (R112, R94). -/
theorem exec_setlines {a : Byte} (s : State) (h : a.toNat < 4) :
    exec (.setlines a) s = finish .ok (setLines ⟨a.getLsbD 1, a.getLsbD 0⟩ s) := by
  simp only [exec, execSetlines, linesOf_some a h]

/-- SENDACK of a flag's operand byte (R118). -/
theorem exec_sendack (low : Bool) (s : State) : exec (.sendack (if low then 1 else 0)) s = finish .ok (sendAck low s) := by
  cases low <;> rfl

/-! ## Nothing on the bus (R23) -/

theorem drive_absent {s : State} (sl : List Slot) (h : s.env.slave = .absent) : (drive sl s).env = s.env := by
  rw [drive_env, show s.env = ⟨.absent, s.env.upgAck, s.env.tick⟩ by rw [← h], observeAll_absent]

/-- With nothing on the bus a sample shows the level the master drives (R111). -/
theorem sampleSda_absent {s : State} (h : s.env.slave = .absent) : sampleSda s = (s.i2c.lastSda, s) := by
  simp [sampleSda, Env.sda, h]

theorem readAck_absent {s : State} (h : s.env.slave = .absent) : (readAck s).1 = false := by
  rw [readAck_level, drive_absent _ h]
  simp [Env.sda, h]

/-- The bit loop of READBYTE reads every bit as 1. -/
theorem readBits_absent (ns : List Nat) (v : Byte) {s : State} (h : s.env.slave = .absent) :
    (readBits ns v s).1 = ns.foldl (fun w n => setBit w n true) v := by
  induction ns generalizing v s with
  | nil => rfl
  | cons n ns ih =>
    have hd : (drive readBitSlots s).env.slave = .absent := by rw [drive_absent _ h, h]
    have hs : sampleSda (drive readBitSlots s) = (true, drive readBitSlots s) := by
      rw [sampleSda_absent hd, (drive_runs readBitSlots s).lastSda]
      rfl
    rw [readBits, show [⟨true, false⟩, ⟨true, true⟩] = readBitSlots from rfl, hs]
    exact ih _ hd

theorem readByte_absent {s : State} (h : s.env.slave = .absent) : (readByte s).1 = 0xFF := by
  rw [readByte, readBits_absent _ _ (by rw [drive_absent _ h, h])]
  decide

/-! ## The obligations of single primitives -/

/-- Settles O23: the operand check decides between one slot driven and nothing done. -/
theorem setlinesDrivesAndRecords : Obligations.SetlinesDrivesAndRecords := by
  refine fun a s => ⟨rfl, fun ha => ⟨_, exec_setlines s ha⟩, fun ha => ?_⟩
  simp only [exec, execSetlines, linesOf_none a (by omega)]
  rfl

/-- Settles O24: I2CINIT is one slot that releases both lines. -/
theorem i2cinitReleasesTheLines : Obligations.I2cinitReleasesTheLines := by
  refine fun sda scl s => ⟨rfl, _, _, rfl, rfl, ?_⟩
  rw [newSlots_setResult, newSlots_i2cInit]
  exact conditions_release 1 s.lines

/-- Settles O25: each of the two is its three slots, and what they do to SDA under a high SCL depends on the entry levels. -/
theorem startAndStopSlots : Obligations.StartAndStopSlots := by
  refine fun s => ⟨rfl, rfl, ⟨_, _, rfl, (start_runs s).setResult_eq .ok, ?_⟩, ⟨_, _, rfl, (stop_runs s).setResult_eq .ok, ?_⟩⟩
  · rw [newSlots_setResult, newSlots_runs (start_runs s)]
    exact conditions_startSlots 1 s.lines
  · rw [newSlots_setResult, newSlots_runs (stop_runs s)]
    exact conditions_stopSlots 1 s.lines

/-- Settles O26: SENDBYTE drives the slot that lowers SCL and the 24 bit slots, in which SDA changes under a low SCL only. -/
theorem sendbyteShiftsOutMsbFirst : Obligations.SendbyteShiftsOutMsbFirst := by
  refine fun v s => ⟨rfl, _, _, rfl, (sendByte_runs v s).setResult_eq .ok, ?_, ?_⟩
  · rw [newSlots_setResult, newSlots_runs (sendByte_runs v s)]
    rfl
  · rw [newSlots_setResult, newSlots_runs (sendByte_runs v s)]
    exact conditions_sendByte 1 s.lines v

/-- READACK in its next state: the flag is the acknowledge. -/
theorem exec_readack (s : State) : exec .readack s = .next ((readAck s).2.setResult (.okFlag (readAck s).1)) := rfl

/-- READACK answers that the wire was low in its high slot (R117). -/
theorem readAck_sdaIn (s : State) :
    (readAck s).1 = !(drive [⟨s.i2c.lastSda, false⟩, ⟨true, false⟩, ⟨true, true⟩] s).sdaIn := rfl

/-- Settles O27: the answer is the wire in the high slot, which nothing pulls low on an empty bus and an oracle's next level decides. -/
theorem readackReportsTheSlaveLevel : Obligations.ReadackReportsTheSlaveLevel := by
  refine fun s => ⟨rfl, ⟨_, (readAck s).2.env, rfl, ?_⟩, fun habsent => ⟨_, exec_readack s, ?_⟩, fun b bs a k henv => ?_⟩
  · rw [exec_readack, (readAck_runs s).setResult_eq, readAck_sdaIn]
    cases (drive [⟨s.i2c.lastSda, false⟩, ⟨true, false⟩, ⟨true, true⟩] s).sdaIn <;> rfl
  · simp [readAck_absent habsent]
  · obtain ⟨hack, hleft⟩ := readAck_oracle henv
    refine ⟨_, exec_readack s, ?_, hleft⟩
    cases b <;> simp [hack]

/-- Settles O28: 1 and 0 are the two flags, every other operand byte is refused. -/
theorem sendackDrivesTheFlag : Obligations.SendackDrivesTheFlag := by
  refine fun s => ⟨?_, fun low hlow => ?_, rfl, rfl, fun _ => rfl, rfl, rfl, ⟨_, rfl⟩, ⟨_, rfl⟩⟩
  · rintro low l (⟨rfl, rfl⟩ | ⟨rfl, rfl⟩)
    · exact ⟨_, (exec_sendack true s).trans (congrArg _ ((sendAck_runs true s).setResult_eq .ok))⟩
    · exact ⟨_, (exec_sendack false s).trans (congrArg _ ((sendAck_runs false s).setResult_eq .ok))⟩
  · simp only [exec, execSendack, flagOf_none low (by omega)]
    rfl

/-- READBYTE in its next state: the value is the byte. -/
theorem exec_readbyte (s : State) :
    exec .readbyte s = .next ((readByte s).2.setResult (.okValue ((readByte s).1.setWidth 16))) := rfl

/-- Settles O29: the byte loop samples once in each of its eight high slots. -/
theorem readbyteSamplesMsbFirst : Obligations.ReadbyteSamplesMsbFirst := by
  refine fun s => ⟨rfl, ⟨(readByte s).1, (readByte s).2.env, ?_⟩, fun habsent => ⟨_, exec_readbyte s, ?_⟩,
    fun v rest a k henv => ?_⟩
  · rw [exec_readbyte, (readByte_runs s).setResult_eq]
    rfl
  · simp [readByte_absent habsent]
  · obtain ⟨hbyte, hleft⟩ := readByte_oracle v henv
    refine ⟨_, exec_readbyte s, ?_, hleft⟩
    simp [hbyte]

/-! ## The slot table (R123) -/

/-- One row of R123's table: the number of slots, the levels on exit, and how many levels an oracle slave is asked for. -/
def TableRow (s t : State) (slots : Nat) (exit : Slot) (samples : Nat) : Prop :=
  (newSlots s t).length = slots ∧ t.lines = exit
    ∧ ∀ bs a k, s.env = ⟨.oracle bs, a, k⟩ → samples ≤ bs.length → t.env = ⟨.oracle (bs.drop samples), a, k⟩

theorem TableRow.of_finish {s t u : State} {r : Result} {n m : Nat} {q : Slot} (h : TableRow s t n q m)
    (hf : finish r t = .next u) : TableRow s u n q m := by
  rw [finish_next hf]
  exact h

/-- A row without samples leaves an oracle slave as it was. -/
theorem TableRow.unsampled {s t : State} {n : Nat} {q : Slot} (h : TableRow s t n q 0) :
    (newSlots s t).length = n ∧ t.lines = q ∧ ∀ bs a k, s.env = ⟨.oracle bs, a, k⟩ → t.env = s.env := by
  obtain ⟨hslots, hexit, henv⟩ := h
  exact ⟨hslots, hexit, fun bs a k he => (henv bs a k he (Nat.zero_le _)).trans he.symm⟩

/-- A primitive that only drives lines samples nothing. -/
theorem drive_tableRow (sl : List Slot) (s : State) : TableRow s (drive sl s) sl.length (lastSlot s.lines sl) 0 :=
  ⟨by rw [newSlots_runs (drive_runs sl s)], (drive_runs sl s).lines, fun _ _ _ he _ => drive_env_oracle sl he⟩

theorem start_tableRow (s : State) : TableRow s (start s) 3 ⟨false, true⟩ 0 := drive_tableRow _ s

theorem stop_tableRow (s : State) : TableRow s (stop s) 3 ⟨true, true⟩ 0 := drive_tableRow _ s

theorem sendByte_tableRow (v : Byte) (s : State) : TableRow s (sendByte v s) 25 ⟨v.getLsbD 0, false⟩ 0 := drive_tableRow _ s

theorem sendAck_tableRow (low : Bool) (s : State) : TableRow s (sendAck low s) 5 ⟨true, false⟩ 0 := drive_tableRow _ s

theorem i2cInit_tableRow (a b : Byte) (s : State) : TableRow s (i2cInit a b s) 1 ⟨true, true⟩ 0 :=
  drive_tableRow [⟨true, true⟩] s

theorem readAck_tableRow (s : State) : TableRow s (readAck s).2 4 ⟨true, false⟩ 1 := by
  refine ⟨by rw [newSlots_runs (readAck_runs s)]; rfl, (readAck_runs s).lines, fun bs a k he hlen => ?_⟩
  cases bs with
  | nil => exact absurd hlen (by decide)
  | cons b bs => exact (readAck_oracle he).2

/-- READBYTE takes eight levels of an oracle's script, whatever they are. -/
theorem readByte_tableRow (s : State) : TableRow s (readByte s).2 18 ⟨true, false⟩ 8 := by
  refine ⟨by rw [newSlots_runs (readByte_runs s)]; rfl, (readByte_runs s).lines, fun bs a k he hlen => ?_⟩
  rw [← List.take_append_drop 8 bs] at he
  exact drive_env_oracle _
    (readBits_oracle _ (bs.take 8) (bs.drop 8) 0 _ (by simpa using hlen) (drive_env_oracle _ he)).2

/-- Settles O30: each row is the row of the primitive the operation runs. -/
theorem primitiveSlotTable : Obligations.PrimitiveSlotTable := by
  refine fun i s t h => ⟨?_, ?_, ?_, ?_⟩
  · simp only [List.forall_mem_cons]
    refine ⟨?_, ?_, ?_, ?_, ?_, ?_, ?_, ?_, List.forall_mem_nil _⟩ <;> rintro rfl
    exacts [(start_tableRow s).of_finish h, (stop_tableRow s).of_finish h, (readAck_tableRow s).of_finish h,
      (sendAck_tableRow false s).of_finish h, (sendAck_tableRow true s).of_finish h, (sendAck_tableRow true s).of_finish h,
      (sendAck_tableRow false s).of_finish h, (readByte_tableRow s).of_finish h]
  · rintro a b rfl
    exact ((i2cInit_tableRow a b s).of_finish h).unsampled
  · rintro a ha rfl
    rw [exec_setlines s ha] at h
    exact ((drive_tableRow [_] s).of_finish h).unsampled
  · rintro v rfl
    exact ((sendByte_tableRow v s).of_finish h).unsampled

end Sys2Proof.Machine
end

section
/-! PROOF. The driver operations of spec/41_expander_driver.md as the transactions they run: O36 (BEGIN), O37 (PINMODE), O38 (PUDCTL), O39
(DWRITE16), O40 (DWRITE), O41 (DREAD16), O42 (DREAD) and O43 (DUMPREGS). -/
namespace Sys2Proof.Machine

/-! ## One write burst as an operation -/

/-- The slot count of an acknowledged write burst (R270). -/
theorem newSlots_xwrite_length {i : Nat} {data : List Byte} {s : State} (hlen : data.length ≤ 255)
    (hok : (xwrite i data s).1.status = .ok) : (newSlots s (xwrite i data s).2).length = 6 + 29 * (data.length + 2) := by
  rw [newSlots_runs (xwrite_spec i data s hlen).2.2, hok]
  exact burstSlots_length s.lines _ _

/-- XWRITE returns no value (R65). -/
theorem xwrite_eq (i : Nat) (data : List Byte) (s : State) (hlen : data.length ≤ 255) :
    xwrite i data s = (⟨(xwrite i data s).1.status, (xwrite i data s).1.index, 0⟩, (xwrite i data s).2) := by
  rw [← (xwrite_spec i data s hlen).2.1]

theorem OneBurst.withRes {s t : State} {i : Nat} {data : List Byte} {status : Status} {index : Byte}
    (h : OneBurst s t i data status index) (r : Res) : OneBurst s { t with res := r } i data status index := by
  refine ⟨h.ends, ?_, h.inside, h.outside, h.grows, h.bus⟩
  conv_lhs => rw [h.frame]

/-- XWRITE of the two bytes of `v` to registers `i` and `i + 1` (R63, R65) ended with `status` and `index` and left `u`. -/
structure PairWritten (s u : State) (i : Nat) (v : Half) (status : Status) (index : Byte) : Prop where
  call  : xwrite i (portBytes v) s = (⟨status, index, 0⟩, u)
  burst : OneBurst s u i (portBytes v) status index
  res   : u.res = s.res
  slots : status = .ok → (newSlots s u).length = 122

theorem xwrite_pairWritten (i : Nat) (v : Half) (s : State) : ∃ status index u, PairWritten s u i v status index := by
  have hlen : (portBytes v).length ≤ 255 := by simp
  exact ⟨_, _, _, xwrite_eq i (portBytes v) s hlen, xwrite_oneBurst i (portBytes v) s hlen, (xwrite_spec i (portBytes v) s hlen).2.2.res,
    newSlots_xwrite_length hlen⟩

/-- An operation that ends with the result of XWRITE records it (R33). -/
theorem finishWith_xwrite {i : Nat} {data : List Byte} {s u : State} {status : Status} {index : Byte}
    (h : xwrite i data s = (⟨status, index, 0⟩, u)) (hres : u.res = s.res) :
    finishWith (xwrite i data s) = .next { u with res := s.outcome status index 0 } := by
  rw [h, finishWith_eq, State.setResult, hres]
  rfl

/-- The burst of a pair leaves every register but the pair alone. -/
theorem OneBurst.outside_pair {s t : State} {i : Nat} {v : Half} {status : Status} {index : Byte}
    (h : OneBurst s t i (portBytes v) status index) {a : Nat} (h0 : a ≠ i) (h1 : a ≠ i + 1) :
    Memory.read t.shadow a = Memory.read s.shadow a := by
  have hle : confirmedCount status index (portBytes v).length ≤ 2 := h.ends.confirmed_le
  exact h.outside a (by omega)

/-! ## Refusals -/

/-- A driver operation with an operand out of range drives nothing (R130). -/
theorem exec_driver_refused {i : Instr} {s : State} (h : i.wellFormed s.nch = false) (hi : Instr.isDriver i = true) :
    exec i s = .next { s with res := s.outcome .invalidArg 0 0 } := by
  refine exec_refused h ?_
  rintro reg rfl
  cases hi

/-! ## DWRITE16, DWRITE and PUDCTL -/

/-- Settles O39: DWRITE16 is one burst of the pair at GPIO_A. -/
theorem dwrite16WritesTheGpioPair : Obligations.Dwrite16WritesTheGpioPair := by
  intro x s
  obtain ⟨status, index, v, hpair⟩ := xwrite_pairWritten regGpioA x s
  exact ⟨rfl, status, index, v, _, finishWith_xwrite hpair.call hpair.res, hpair.call, rfl, hpair.burst.withRes _, hpair.slots⟩

/-- Settles O40: DWRITE writes the GPIO pair of the shadow after `setBit`. -/
theorem dwriteSetsOneBit : Obligations.DwriteSetsOneBit := by
  refine ⟨fun pin level l s hpin hlevel => ?_, fun pin level s hrange => exec_driver_refused ?_ rfl⟩
  · have hflag : flagOf level = some l := by rcases hlevel with ⟨rfl, rfl⟩ | ⟨rfl, rfl⟩ <;> rfl
    exact ⟨rfl, _, _, exec_dwrite s hpin hflag, rfl, fun k hk => getLsbD_setBit _ _ _ _ (by omega) hk⟩
  · simp only [Instr.wellFormed, Bool.and_eq_false_iff, decide_eq_false_iff_not]
    omega

/-- Settles O38: PUDCTL is one burst of the pull-up pair of the shadow after `setBit`. -/
theorem pudctlWritesThePullupPair : Obligations.PudctlWritesThePullupPair := by
  refine ⟨fun pin pud b s hpin hpud => ?_, fun pin pud s hrange => exec_driver_refused ?_ rfl⟩
  · have hbit : pudBitOf pud = some b := by rcases hpud with ⟨rfl, rfl⟩ | ⟨rfl, rfl⟩ <;> rfl
    obtain ⟨status, index, v, hpair⟩ := xwrite_pairWritten regPullupA (setBit (pairAt s.shadow regPullupA) pin.toNat b) s
    exact ⟨rfl, _, status, index, v, _, (exec_pudctl s hpin hbit).trans (finishWith_xwrite hpair.call hpair.res),
      fun k hk => getLsbD_setBit _ _ _ _ (by omega) hk, hpair.call, rfl, hpair.burst.withRes _, hpair.slots⟩
  · simp only [Instr.wellFormed, Bool.and_eq_false_iff, Bool.or_eq_false_iff, decide_eq_false_iff_not]
    omega

/-! ## PINMODE -/

/-- The direction pair PINMODE writes: the shadow's, with the pin's bit set to the mode's (R132). -/
def dirPair (pin : Nat) (m : PinMode) (s : State) : Half := setBit (pairAt s.shadow regDirA) pin m.dirBit

/-- The pull-up pair PINMODE writes (R132). -/
def pullupPair (pin : Nat) (m : PinMode) (s : State) : Half := setBit (pairAt s.shadow regPullupA) pin m.puBit

/-- PINMODE stops after a direction burst that failed (R132, R140). -/
theorem pinMode_of_failed {pin : Nat} {m : PinMode} {s : State} (h : (xwrite 0 (portBytes (dirPair pin m s)) s).1.status ≠ .ok) :
    pinMode pin m s = xwrite 0 (portBytes (dirPair pin m s)) s :=
  if_neg h

/-- After a direction burst that was confirmed PINMODE goes on with the pull-up burst (R132). -/
theorem pinMode_of_confirmed {pin : Nat} {m : PinMode} {s : State} (h : (xwrite 0 (portBytes (dirPair pin m s)) s).1.status = .ok) :
    pinMode pin m s = xwrite 12 (portBytes (pullupPair pin m s)) (xwrite 0 (portBytes (dirPair pin m s)) s).2 :=
  if_pos h

/-- A confirmed burst has index 0 (R220). -/
theorem WriteStatus.index_of_ok {k : Nat} {index : Byte} (h : WriteStatus k .ok index) : index = 0 := by
  simpa [WriteStatus] using h

/-- Settles O37: the direction burst alone when it failed, else both bursts, the second on what the first left. -/
theorem pinmodeWritesBothPairs : Obligations.PinmodeWritesBothPairs := by
  refine ⟨fun pin mode d u s hpin hmode => ?_, fun pin mode s hrange => exec_driver_refused ?_ rfl⟩
  · obtain ⟨m, hm, rfl, rfl⟩ : ∃ m, pinModeOf mode = some m ∧ m.dirBit = d ∧ m.puBit = u := by
      rcases hmode with ⟨rfl, rfl, rfl⟩ | ⟨rfl, rfl, rfl⟩ | ⟨rfl, rfl, rfl⟩ <;> exact ⟨_, rfl, rfl, rfl⟩
    have hexec := exec_pinmode s hpin hm
    obtain ⟨status, index, v, hdir⟩ := xwrite_pairWritten 0 (dirPair pin.toNat m s) s
    refine ⟨rfl, dirPair pin.toNat m s, pullupPair pin.toNat m s, ?_⟩
    by_cases hok : status = .ok
    · subst hok
      obtain rfl := hdir.burst.ends.index_of_ok
      rw [pinMode_of_confirmed (by rw [hdir.call]), hdir.call] at hexec
      obtain ⟨status, index, w, hpu⟩ := xwrite_pairWritten 12 (pullupPair pin.toNat m s) v
      have hres : v.outcome status index 0 = s.outcome status index 0 := by rw [State.outcome, hdir.res]; rfl
      refine ⟨status, index, w, _, hexec.trans (finishWith_xwrite hpu.call hpu.res), fun k hk => getLsbD_setBit _ _ _ _ (by omega) hk,
        fun k hk => getLsbD_setBit _ _ _ _ (by omega) hk, by rw [hres], .inr ⟨v, hdir.call, hdir.burst, hpu.call, hpu.burst.withRes _⟩,
        fun a h0 h1 h12 h13 => (hpu.burst.outside_pair h12 h13).trans (hdir.burst.outside_pair h0 h1), fun h => ?_⟩
      exact (newSlots_length_trans hdir.burst.grows hpu.burst.grows).trans (by rw [hdir.slots rfl, hpu.slots h])
    · rw [pinMode_of_failed (by rwa [hdir.call])] at hexec
      exact ⟨status, index, v, _, hexec.trans (finishWith_xwrite hdir.call hdir.res), fun k hk => getLsbD_setBit _ _ _ _ (by omega) hk,
        fun k hk => getLsbD_setBit _ _ _ _ (by omega) hk, rfl, .inl ⟨hok, hdir.call, hdir.burst.withRes _⟩,
        fun a h0 h1 _ _ => hdir.burst.outside_pair h0 h1, fun h => absurd h hok⟩
  · simp only [Instr.wellFormed, Bool.and_eq_false_iff, decide_eq_false_iff_not]
    omega

/-! ## BEGIN -/

/-- The bytes BEGIN sends for registers 0 to 13 (R131). -/
def beginData (dirA dirB puA puB polA polB : Byte) : List Byte := [dirA, dirB, polA, polB, 0, 0, 0, 0, 0, 0, 0, 0, puA, puB]

theorem beginData_eq (dirA dirB puA puB polA polB : Byte) :
    beginData dirA dirB puA puB polA polB = (List.range' 0 14).map (Memory.read (beginShadow dirA dirB puA puB polA polB)) := by
  simp [beginData, List.range', read_beginShadow]

/-- BEGIN sends the shadow as it stands, so that however its burst ends the shadow is as set before it (R131). -/
theorem burstPrefix_beginShadow (dirA dirB puA puB polA polB : Byte) (n : Nat) :
    burstPrefix (beginShadow dirA dirB puA puB polA polB) 0 (beginData dirA dirB puA puB polA polB) n
      = beginShadow dirA dirB puA puB polA polB := by
  rw [beginData_eq]
  exact burstPrefix_self (beginShadow_wf dirA dirB puA puB polA polB) 0 14 n

/-- Where BEGIN's burst starts: the shadow is set, and I2CINIT has released the lines (R131). -/
def beginStart (a b dirA dirB puA puB polA polB : Byte) (s : State) : State :=
  i2cInit a b { s with shadow := beginShadow dirA dirB puA puB polA polB }

section
variable {a b dirA dirB puA puB polA polB : Byte} {s u : State} {status : Status} {index : Byte}
  (h : xwrite 0 (beginData dirA dirB puA puB polA polB) (beginStart a b dirA dirB puA puB polA polB s) = (⟨status, index, 0⟩, u))
include h

/-- BEGIN's burst starts from the idle bus and leaves the shadow as set. -/
theorem begin_runs : WriteStatus 14 status index
    ∧ Runs (beginStart a b dirA dirB puA puB polA polB s) u
        (burstSlots ⟨true, true⟩ (sentBytes s.cfg 0 (beginData dirA dirB puA puB polA polB) status index)) ⟨true, true⟩
        (beginShadow dirA dirB puA puB polA polB) := by
  obtain ⟨hends, -, hruns⟩ :=
    xwrite_spec 0 (beginData dirA dirB puA puB polA polB) (beginStart a b dirA dirB puA puB polA polB s) (by simp [beginData])
  rw [h] at hends hruns
  refine ⟨hends, ?_⟩
  rw [← burstPrefix_beginShadow dirA dirB puA puB polA polB]
  exact hruns

/-- BEGIN's waveform: the slot of I2CINIT, then the burst. -/
theorem begin_wave : u.wave = s.wave ++
    (⟨true, true⟩ :: burstSlots ⟨true, true⟩ (sentBytes s.cfg 0 (beginData dirA dirB puA puB polA polB) status index)) := by
  rw [(begin_runs h).2.wave, beginStart, i2cInit_eq, List.append_assoc, List.singleton_append]

theorem newSlots_begin : newSlots s u
    = ⟨true, true⟩ :: burstSlots ⟨true, true⟩ (sentBytes s.cfg 0 (beginData dirA dirB puA puB polA polB) status index) := by
  rw [newSlots, begin_wave h, List.drop_left]

theorem exec_begin : exec (.begin a b dirA dirB puA puB polA polB) s
    = .next { u with synced := decide (status = .ok), res := s.outcome status index 0 } := by
  have hres : u.res = s.res := (begin_runs h).2.res
  rw [beginData_eq, ← List.range_eq_range'] at h
  unfold beginStart at h
  simp only [exec, execBegin, h, finish_eq, State.setResult, hres]
  rfl

end

/-- Settles O36: the shadow set and the lines released by one slot, the burst runs from the idle bus and leaves the shadow as set. -/
theorem beginWritesFourteenRegisters : Obligations.BeginWritesFourteenRegisters := by
  intro a b dirA dirB puA puB polA polB s
  obtain ⟨status, index, u, hcall⟩ : ∃ status index u,
      xwrite 0 (beginData dirA dirB puA puB polA polB) (beginStart a b dirA dirB puA puB polA polB s) = (⟨status, index, 0⟩, u) :=
    ⟨_, _, _, xwrite_eq _ _ _ (by simp [beginData])⟩
  obtain ⟨hends, hruns⟩ := begin_runs hcall
  have hslots := newSlots_begin hcall
  refine ⟨rfl, status, index, beginShadow dirA dirB puA puB polA polB, _, u, exec_begin hcall, hends, hcall, rfl, ?_,
    read_beginShadow dirA dirB puA puB polA polB, beginShadow_wf dirA dirB puA puB polA polB, ⟨_, (begin_wave hcall).symm⟩,
    congrArg (List.take 1) hslots, ?_, ?_⟩
  · conv_lhs => rw [hruns.frame]
    rfl
  · exact (congrArg (fun w => busItems ⟨true, true⟩ [] (w.drop 1)) hslots).trans (busItems_writeBurst _ _ _ _ _)
  · rintro rfl
    refine (congrArg List.length hslots).trans ?_
    rw [List.length_cons, sentBytes, burstSlots_length]
    simp [beginData]

/-! ## DREAD16 and DREAD -/

/-- XREAD returns no value of its own (R66). -/
theorem xread_eq (i k : Nat) (update : Bool) (s : State) :
    xread i k update s = (⟨⟨(xread i k update s).1.result.status, (xread i k update s).1.result.index, 0⟩,
      (xread i k update s).1.bytes⟩, (xread i k update s).2) := by
  rw [← (xread_spec i k update s).2.1]

/-- The slot count of an acknowledged read burst (R270). -/
theorem newSlots_xread_length {i k : Nat} {update : Bool} {s : State} (hok : (xread i k update s).1.result.status = .ok) :
    (newSlots s (xread i k update s).2).length = 96 + 23 * k := by
  rw [newSlots_runs (xread_spec i k update s).2.2.2, hok]
  simp only [readBurstSlots, startSlots, stopSlots, List.length_append, sentSlots_length, readSlots_length, List.length_cons,
    List.length_nil]
  omega

/-- The pair a read with `update` leaves in the shadow is the pair of bytes read (R30, R66). -/
theorem OneRead.pairAt_eq {s t : State} {i : Nat} {lo hi : Byte} {status : Status} {index : Byte}
    (h : OneRead s t i 2 true [lo, hi] status index) (hwf : Memory.wf s.shadow) : pairAt t.shadow i = pack16 hi lo := by
  have hlo := h.inside rfl hwf 0 (by simp)
  have hhi := h.inside rfl hwf 1 (by simp)
  simp only [List.getElem?_cons_zero, List.getElem?_cons_succ, Option.some.injEq, Nat.add_zero] at hlo hhi
  rw [pairAt, ← hlo, ← hhi]

/-- Settles O41: DREAD16 is one read burst with `update`; its value is the GPIO pair of the shadow then. -/
theorem dread16ReadsTheGpioPair : Obligations.Dread16ReadsTheGpioPair := by
  intro s
  have hread := xread_oneRead 18 2 true s
  have hres := (xread_spec 18 2 true s).2.2.2.res
  refine ⟨rfl, _, _, _, _, _, rfl, xread_eq 18 2 true s, ?_, hread.withRes _, newSlots_xread_length, fun lo hi rest a k henv hwf => ?_⟩
  · exact congrArg (fun r => { (xread 18 2 true s).2 with res := r }) (setResult_outcome hres _ _ _)
  · obtain ⟨hcall, hrest⟩ := xread_oracle 18 true [lo, hi] rest s (by simpa using henv)
    rw [List.length_cons, List.length_singleton] at hcall hrest
    rw [hcall] at hread
    exact ⟨by rw [hcall], by rw [hcall], hread.pairAt_eq hwf, hrest⟩

/-- Settles O42: both operations run `dread16`; only the recorded value differs. -/
theorem dreadGivesOneBit : Obligations.DreadGivesOneBit :=
  fun _ s => ⟨rfl, fun hpin => ⟨_, rfl, exec_dread s hpin⟩,
    fun hpin => exec_driver_refused (decide_eq_false (by omega)) rfl⟩

/-! ## DUMPREGS -/

/-- Settles O43: DUMPREGS is one read burst of all registers without `update`. -/
theorem dumpregsFillsTheData : Obligations.DumpregsFillsTheData := by
  intro s
  have hread := xread_oneRead 0 22 false s
  obtain ⟨-, hvalue, -, hruns⟩ := xread_spec 0 22 false s
  refine ⟨rfl, _, _, _, _, _, rfl, xread_eq 0 22 false s, ?_, hread.withRes _, newSlots_xread_length, fun bs rest a k hlen henv => ?_⟩
  · simp only [State.setResult, hvalue, hruns.res]
    rfl
  · obtain ⟨hcall, -⟩ := xread_oracle 0 false bs rest s henv
    rw [hlen] at hcall
    exact ⟨by rw [hcall], by rw [hcall]⟩

end Sys2Proof.Machine
end

section
/-! PROOF. The driver against the reference device: O44 (a write torn at its second data byte) and O45 (a pin's level comes back), from
what one transaction leaves of the device (spec/20_memory.md R65, R66, R80 to R82). -/
namespace Sys2Proof.Machine

/-! ## A write torn at its second data byte (R81, R142) -/

/-- XWRITE to a device that takes its address and pointer bytes comes to the data loop with the device taking data for register `i`, two
bytes counted. -/
theorem xwrite_addressed {s : State} {d : Device} {acks : List Bool} {n i : Nat} (henv : s.env = ⟨.reference d, acks, n⟩)
    (hidle : s.BusIdle) (htx : d.inTx = false) (h0 : d.nakAt ≠ some 0) (h1 : d.nakAt ≠ some 1) (hc : s.cfg.wf = true) (hi : i < 22)
    (ds : List Byte) :
    ∃ u e, xwrite i ds s = writeBytes i 0 ds u ∧ u.lines = ⟨true, false⟩ ∧ u.env = ⟨.reference e, acks, n⟩ ∧ e.Taking i
      ∧ e.count = 2 ∧ e.nakAt = d.nakAt ∧ e.reg = d.reg ∧ e.pins = d.pins := by
  have hstart : d.onStart
      = { d with sel := .addr, link := .recv 0, shift := 0, drive := true, count := 0, inTx := true, deaf := false } := by
    simp [Device.onStart, htx]
  have henv0 := start_reference_idle henv hidle
  rw [hstart] at henv0
  have hcfg0 : (start s).cfg = s.cfg := (start_runs s).cfg
  obtain ⟨hack1, henv1⟩ := sendAcked_writeAddr henv0 rfl rfl h0
  have hcfg1 : (sendAcked (writeAddr s.cfg) (start s)).2.cfg = s.cfg := (sendAcked_runs _ _).cfg.trans hcfg0
  rw [hcfg0] at hack1 henv1
  obtain ⟨hack2, henv2⟩ := sendAcked_regPtr i henv1 rfl rfl rfl h1 (by rw [hcfg1]; exact Config.regBase_le hc) hi
  rw [hcfg1] at hack2 henv2
  refine ⟨_, _, ?_, (sendAcked_runs _ _).lines, henv2, ⟨rfl, rfl, rfl, rfl⟩, rfl, rfl, rfl, rfl⟩
  simp only [xwrite, hack1, hack2, if_true]

theorem Device.storeReg_congr {d e : Device} (hreg : e.reg = d.reg) (hpins : e.pins = d.pins) (i : Nat) (v : Byte) :
    e.storeReg i v = d.storeReg i v := by
  simp only [Device.storeReg, hreg, hpins]

/-- The bus is idle, and the device `d` on it, between transactions, is set not to acknowledge byte 3 (R81). -/
structure State.Torn (s : State) (d : Device) (acks : List Bool) (n : Nat) : Prop where
  cfg   : s.cfg.wf = true
  idle  : s.BusIdle
  env   : s.env = ⟨.reference d, acks, n⟩
  inTx  : d.inTx = false
  nakAt : d.nakAt = some 3

/-- The device that does not acknowledge byte 3 stores the first byte of a pair and ends the burst at the second. -/
theorem xwrite_torn {s : State} {d : Device} {acks : List Bool} {n i : Nat} (h : s.Torn d acks n) (hi : i < 22) (v : Half) :
    (xwrite i (portBytes v) s).1 = ⟨.nakData, 1, 0⟩
      ∧ ∃ e, (xwrite i (portBytes v) s).2.env = ⟨.reference e, acks, n⟩ ∧ e.reg = d.storeReg i (loByte v) := by
  obtain ⟨u, e, hcall, hlines, hu, htaking, hcount, hnak, hreg, hpins⟩ :=
    xwrite_addressed h.env h.idle h.inTx (by rw [h.nakAt]; decide) (by rw [h.nakAt]; decide) h.cfg hi (portBytes v)
  obtain ⟨hlo, henv1⟩ := sendAcked_data (loByte v) hu htaking (by rw [hnak, h.nakAt, hcount]; decide)
  obtain ⟨hhi, henv2⟩ := sendAcked_nakAt (s := (sendAcked (loByte v) u).2.setShadow i (loByte v)) (hiByte v) henv1 rfl
    (by rw [hnak, h.nakAt, hcount])
  obtain ⟨sh, hstop⟩ := stop_reference henv2 (sendAcked_runs _ _).lines
  have hloop : writeBytes i 0 (portBytes v) u
      = (⟨.nakData, 1, 0⟩, stop (sendAcked (hiByte v) ((sendAcked (loByte v) u).2.setShadow i (loByte v))).2) := by
    simp [portBytes, writeBytes, hlo, hhi]
  rw [hcall, hloop]
  exact ⟨rfl, _, hstop, Device.storeReg_congr hreg hpins i (loByte v)⟩

/-- An operation whose result is that of a torn pair: the shadow and the device take the first byte (R68, R81). -/
theorem exec_torn {s : State} {d : Device} {acks : List Bool} {n r : Nat} (h : s.Torn d acks n) (hr : r < 22) {i : Instr} {v : Half}
    (hexec : exec i s = finishWith (xwrite r (portBytes v) s)) :
    ∃ t e, exec i s = .next t ∧ t.res = s.outcome .nakData 1 0 ∧ t.shadow = Memory.write s.shadow r (loByte v)
      ∧ t.env = ⟨.reference e, acks, n⟩ ∧ e.reg = d.storeReg r (loByte v) := by
  obtain ⟨hres, e, henv, hreg⟩ := xwrite_torn h hr v
  have hruns := (xwrite_spec r (portBytes v) s (by simp)).2.2
  refine ⟨_, e, hexec.trans (finishWith_xwrite (Prod.ext hres rfl) hruns.res), rfl, ?_, henv, hreg⟩
  show (xwrite r (portBytes v) s).2.shadow = _
  rw [hruns.shadow, hres]
  rfl

theorem getLsbD_loByte {k : Nat} (v : Half) (hk : k < 8) : (loByte v).getLsbD k = v.getLsbD k := by
  simp [loByte, hk]

/-- The port-A byte of a shadow pair with one bit set or cleared. -/
theorem getLsbD_loByte_setBit (m : Memory) (i : Nat) {pin k : Nat} (b : Bool) (hpin : pin ≤ 15) (hk : k < 8) :
    (loByte (setBit (pairAt m i) pin b)).getLsbD k = if k = pin then b else (Memory.read m i).getLsbD k := by
  rw [getLsbD_loByte _ hk, getLsbD_setBit _ _ _ _ (by omega) (by omega), ← getLsbD_loByte (pairAt m i) hk, pairAt, loByte_pack16]

theorem pinModeOf_dirBit {mode : Byte} {m : PinMode} (h : pinModeOf mode = some m) : m.dirBit = decide (mode ≠ 1) := by
  unfold pinModeOf at h
  split at h
  · next h0 => cases h; rw [h0]; rfl
  · split at h
    · next h1 => cases h; rw [h1]; rfl
    · next h1 =>
      split at h
      · cases h; exact (decide_eq_true h1).symm
      · cases h

theorem pudBitOf_some {pud : Byte} (h : pud.toNat = 0 ∨ pud.toNat = 2) : pudBitOf pud = some (decide (pud = 2)) := by
  obtain rfl | rfl : pud = 0 ∨ pud = 2 := by bv_omega
  · rfl
  · rfl

/-- Settles O44: each operation's first burst is the torn one, after which PINMODE stops; the new byte is the low byte of the pair sent. -/
theorem tornWrite : Obligations.TornWrite := by
  intro s d acks n henv htx hnak hc hidle hwf i r hi hwell
  have htorn : s.Torn d acks n := ⟨hc, hidle, henv, htx, hnak⟩
  suffices hpair : r < 22 ∧ ∃ v : Half, exec i s = finishWith (xwrite r (portBytes v) s)
      ∧ (∀ x : Half, i = .dwrite16 x → loByte v = x.extractLsb' 0 8)
      ∧ (∀ (pin pud : Byte) (k : Nat), i = .pudctl pin pud → k < 8 →
          (loByte v).getLsbD k = if k = pin.toNat then decide (pud = 2) else (Memory.read s.shadow 12).getLsbD k)
      ∧ (∀ (pin mode : Byte) (k : Nat), i = .pinmode pin mode → k < 8 →
          (loByte v).getLsbD k = if k = pin.toNat then decide (mode ≠ 1) else (Memory.read s.shadow 0).getLsbD k) by
    obtain ⟨hr, v, hexec, hnew⟩ := hpair
    obtain ⟨t, e, hnext, hres, hshadow, henv', hreg⟩ := exec_torn htorn hr hexec
    refine ⟨t, e, loByte v, hnext, hres, hshadow, ?_, fun a ha => ?_, henv', hreg, hnew⟩
    · rw [hshadow, Memory.read_write_same r (loByte v) hwf]
    · rw [hshadow, Memory.read_write_other s.shadow r a (loByte v) ha]
  rcases hi with ⟨⟨x, rfl⟩, rfl⟩ | ⟨⟨pin, pud, rfl⟩, rfl⟩ | ⟨⟨pin, mode, rfl⟩, rfl⟩
  · refine ⟨by decide, x, rfl, ?_, nofun, nofun⟩
    rintro _ ⟨⟩
    rfl
  · simp only [Instr.wellFormed, ← Bool.decide_and, ← Bool.decide_or, decide_eq_true_eq] at hwell
    obtain ⟨hpin, hpud⟩ := hwell
    refine ⟨by decide, _, exec_pudctl s hpin (pudBitOf_some hpud), nofun, ?_, nofun⟩
    rintro _ _ k ⟨⟩ hk
    exact getLsbD_loByte_setBit s.shadow 12 _ hpin hk
  · simp only [Instr.wellFormed, ← Bool.decide_and, decide_eq_true_eq] at hwell
    obtain ⟨hpin, hmode⟩ := hwell
    obtain ⟨m, hm⟩ := Option.isSome_iff_exists.mp (pinModeOf_isSome mode hmode)
    have hfailed : (xwrite 0 (portBytes (dirPair pin.toNat m s)) s).1.status ≠ .ok := by
      rw [(xwrite_torn htorn (by decide) _).1]
      decide
    refine ⟨by decide, dirPair pin.toNat m s, (exec_pinmode s hpin hm).trans (by rw [pinMode_of_failed hfailed]), nofun, nofun, ?_⟩
    rintro _ _ k ⟨⟩ hk
    rw [← pinModeOf_dirBit hm]
    exact getLsbD_loByte_setBit s.shadow 0 _ hpin hk

/-! ## The GPIO pair as the device answers it (R80, R82) -/

/-- What a read of the GPIO pair gives. -/
def Device.gpio (d : Device) : Half := pack16 (d.readReg 19) (d.readReg 18)

theorem Device.gpio_plain {d : Device} (h : d.pins = none) : d.gpio = pairAt d.reg 18 := by
  simp only [Device.gpio, Device.readReg, h]
  rfl

theorem getLsbD_pack16 (hi lo : Byte) (k : Nat) :
    (pack16 hi lo).getLsbD k = if k < 8 then lo.getLsbD k else hi.getLsbD (k - 8) := by
  show (hi ++ lo : BitVec (8 + 8)).getLsbD k = _
  rw [BitVec.getLsbD_append]

/-- A pin set to output reads as its latch bit, whatever its polarity and the level on it (R82). -/
theorem getLsbD_gpioLevels_output {dir : Byte} {k : Nat} (h : dir.getLsbD k = false) (hk : k < 8) (latch pol pin : Byte) :
    (gpioLevels latch dir pol pin).getLsbD k = latch.getLsbD k := by
  simp only [gpioLevels, BitVec.getLsbD_or, BitVec.getLsbD_and, BitVec.getLsbD_not, h, hk]
  simp

/-- Below the registers that R82 treats specially, the device stores a burst as the shadow takes it, with pins or without. -/
theorem Device.storeBurst_low (d : Device) (i : Nat) (bs : List Byte) (h : i + bs.length ≤ 14) :
    d.storeBurst i bs = burstPrefix d.reg i bs bs.length := by
  induction bs generalizing d i with
  | nil => rfl
  | cons b bs ih =>
    rw [List.length_cons] at h
    have hstore : d.storeReg i b = Memory.write d.reg i b := by
      unfold Device.storeReg
      cases d.pins with
      | none => rfl
      | some q =>
        simp only [regGpioA, regGpioB]
        rw [if_neg (by omega), if_neg (by omega), if_neg (by omega)]
    rw [Device.storeBurst, ih { d with reg := d.storeReg i b } (i + 1) (by omega), List.length_cons, burstPrefix_cons, hstore]

/-- With pins a write of the GPIO pair goes to the latch pair as well, and to no other register (R82). -/
theorem Device.read_storeBurst_gpio {d : Device} {q : Half} (hp : d.pins = some q) (hwf : Memory.wf d.reg) (v : Half) (r : Nat) :
    Memory.read (d.storeBurst 18 (portBytes v)) r =
      if r = 21 then hiByte v else if r = 19 then hiByte v else if r = 20 then loByte v else if r = 18 then loByte v
      else Memory.read d.reg r := by
  have hstore : d.storeBurst 18 (portBytes v)
      = Memory.write (Memory.write (Memory.write (Memory.write d.reg 18 (loByte v)) 20 (loByte v)) 19 (hiByte v)) 21 (hiByte v) := by
    simp [Device.storeBurst, Device.storeReg, hp, portBytes]
  have hwf18 := Memory.write_wf 18 (loByte v) hwf
  have hwf20 := Memory.write_wf 20 (loByte v) hwf18
  have hwf19 := Memory.write_wf 19 (hiByte v) hwf20
  rw [hstore, Memory.read_write _ _ _ hwf19, Memory.read_write _ _ _ hwf20, Memory.read_write _ _ _ hwf18, Memory.read_write _ _ _ hwf]

theorem Device.gpio_pins {d : Device} {q : Half} (h : d.pins = some q) :
    d.gpio = pack16 (gpioLevels (Memory.read d.reg 21) (Memory.read d.reg 1) (Memory.read d.reg 3) (hiByte q))
      (gpioLevels (Memory.read d.reg 20) (Memory.read d.reg 0) (Memory.read d.reg 2) (loByte q)) := by
  simp only [Device.gpio, Device.readReg, h]
  rfl

/-- After a write of the GPIO pair an output pin reads as the bit written to it. -/
theorem Device.gpio_storeBurst {d e : Device} {v : Half} {pin : Nat} (hreg : e.reg = d.storeBurst 18 (portBytes v))
    (hpins : e.pins = d.pins) (hwf : Memory.wf d.reg) (hpin : pin ≤ 15) (hout : (pairAt d.reg 0).getLsbD pin = false) :
    e.gpio.getLsbD pin = v.getLsbD pin := by
  cases hp : d.pins with
  | none =>
    rw [Device.gpio_plain (hpins.trans hp), hreg, d.storeBurst_plain 18 (portBytes v) hp]
    exact congrArg (BitVec.getLsbD · pin) (pairAt_burst 18 v hwf)
  | some q =>
    have hv : v.getLsbD pin = (pack16 (hiByte v) (loByte v)).getLsbD pin := by rw [pack16_bytes]
    rw [pairAt, getLsbD_pack16] at hout
    rw [hv, Device.gpio_pins (hpins.trans hp), getLsbD_pack16, getLsbD_pack16]
    simp only [hreg, Device.read_storeBurst_gpio hp hwf v]
    split at hout
    · next hk => rw [if_pos hk, if_pos hk]; exact getLsbD_gpioLevels_output hout hk _ _ _
    · next hk => rw [if_neg hk, if_neg hk]; exact getLsbD_gpioLevels_output hout (by omega) _ _ _

/-! ## Operations on a bus with the device (R141) -/

/-- The bus is idle, and the device `d`, plain or with pins and without fault injection, is on it between transactions; `acks` and `n` are
the rest of the environment. -/
structure State.Attached (s : State) (d : Device) (acks : List Bool) (n : Nat) : Prop where
  cfg    : s.cfg.wf = true
  shadow : Memory.wf s.shadow
  idle   : s.BusIdle
  env    : s.env = ⟨.reference d, acks, n⟩
  quiet  : d.Quiet
  good   : d.Good

section
variable {s : State} {d : Device} {acks : List Bool} {n : Nat}

theorem State.Attached.envGood (h : s.Attached d acks n) : s.env.Good := by
  intro e he
  rw [h.env] at he
  cases he
  exact h.good

theorem State.Attached.withResult (h : s.Attached d acks n) (synced : Bool) (r : Res) :
    State.Attached { s with synced := synced, res := r } d acks n :=
  ⟨h.cfg, h.shadow, h.idle, h.env, h.quiet, h.good⟩

/-- XWRITE is acknowledged, and the device stores the burst. -/
theorem State.Attached.after_xwrite (h : s.Attached d acks n) {i : Nat} {ds : List Byte} (hi : i < 22) (hlen : i + ds.length ≤ 22) :
    ∃ u e, xwrite i ds s = (.ok, u) ∧ u.res = s.res ∧ u.Attached e acks n ∧ e.reg = d.storeBurst i ds ∧ e.pins = d.pins := by
  obtain ⟨hok, e, henv, hleft⟩ := xwrite_reference i ds h.env h.idle h.quiet (Config.regBase_le h.cfg) hi hlen
  have hruns := (xwrite_spec i ds s (by omega)).2.2
  refine ⟨_, e, Prod.ext hok rfl, hruns.res, ⟨?_, ?_, hruns.lines, henv, hleft.quiet, ?_⟩, hleft.reg, hleft.pins⟩
  · rw [hruns.cfg]
    exact h.cfg
  · rw [hruns.shadow]
    exact burstPrefix_wf i ds _ h.shadow
  · exact xwrite_good i ds h.envGood e (congrArg Env.slave henv)

/-- DREAD16 reads the device's GPIO pair into the shadow, and leaves the device's registers as they are. -/
theorem State.Attached.after_dread16 (h : s.Attached d acks n) :
    ∃ u e, dread16 s = (.okValue d.gpio, u) ∧ u.res = s.res ∧ u.env = ⟨.reference e, acks, n⟩ ∧ e.reg = d.reg
      ∧ pairAt u.shadow 18 = d.gpio := by
  obtain ⟨hcall, e, henv, hleft⟩ := xread_reference 18 1 true h.env h.idle h.quiet (Config.regBase_le h.cfg) (by decide)
  have hbytes : (List.range 2).map (fun j => d.readReg (18 + j)) = [d.readReg 18, d.readReg 19] := rfl
  have hread := xread_oneRead 18 2 true s
  rw [show (1 + 1) = 2 from rfl, hbytes] at hcall
  rw [hcall] at hread
  have hpair := hread.pairAt_eq h.shadow
  refine ⟨_, e, ?_, (xread_spec 18 2 true s).2.2.2.res, henv, hleft.reg, hpair⟩
  simp only [dread16, hcall, hpair]
  rfl

/-- BEGIN is acknowledged and leaves the device attached, whatever the shadow held before it. -/
theorem exec_begin_attached (a b dirA dirB puA puB polA polB : Byte) (hc : s.cfg.wf = true) (hidle : s.BusIdle)
    (henv : s.env = ⟨.reference d, acks, n⟩) (hq : d.Quiet) (hg : d.Good) :
    ∃ t e, exec (.begin a b dirA dirB puA puB polA polB) s = .next t ∧ t.res = s.outcome .ok 0 0 ∧ t.synced = true
      ∧ t.Attached e acks n ∧ e.pins = d.pins := by
  have hstart : (beginStart a b dirA dirB puA puB polA polB s).Attached d acks n := by
    refine ⟨hc, beginShadow_wf dirA dirB puA puB polA polB, rfl, ?_, hq, hg⟩
    have hlines : State.lines { s with shadow := beginShadow dirA dirB puA puB polA polB } = ⟨true, true⟩ := hidle
    rw [beginStart, i2cInit_eq, hlines]
    show s.env.observe s.cfg ⟨true, true⟩ ⟨true, true⟩ = _
    rw [henv]
    rfl
  obtain ⟨u, e, hcall, -, hu, -, hpins⟩ :=
    hstart.after_xwrite (i := 0) (ds := beginData dirA dirB puA puB polA polB) (by decide) (by simp [beginData])
  exact ⟨_, e, exec_begin hcall, rfl, rfl, hu.withResult _ _, hpins⟩

/-- PINMODE OUTPUT is acknowledged, and the device then has the pin as an output. -/
theorem exec_pinmode_output_attached (h : s.Attached d acks n) {pin : Byte} (hpin : pin.toNat ≤ 15) :
    ∃ t e, exec (.pinmode pin 1) s = .next t ∧ t.res = s.outcome .ok 0 0 ∧ t.Attached e acks n ∧ e.pins = d.pins
      ∧ (pairAt e.reg 0).getLsbD pin.toNat = false := by
  obtain ⟨u, e, hdir, hres, hu, hreg, hpins⟩ :=
    h.after_xwrite (i := 0) (ds := portBytes (dirPair pin.toNat .output s)) (by decide) (by simp)
  obtain ⟨v, f, hpu, hres', hv, hreg', hpins'⟩ :=
    hu.after_xwrite (i := 12) (ds := portBytes (pullupPair pin.toNat .output s)) (by decide) (by simp)
  have hexec := exec_pinmode (pin := pin) (mode := 1) s hpin rfl
  rw [pinMode_of_confirmed (by rw [hdir]), hdir] at hexec
  refine ⟨_, f, hexec.trans (finishWith_xwrite hpu hres'), ?_, hv.withResult _ _, hpins'.trans hpins, ?_⟩
  · show u.outcome .ok 0 0 = _
    rw [State.outcome, hres]
    rfl
  · have hpair : pairAt f.reg 0 = dirPair pin.toNat .output s := by
      rw [hreg', e.storeBurst_low 12 _ (by simp), pairAt, read_burstPrefix_outside _ _ _ _ _ (.inl (by decide)),
        read_burstPrefix_outside _ _ _ _ _ (.inl (by decide)), hreg, d.storeBurst_low 0 _ (by simp)]
      exact pairAt_burst 0 _ h.good.reg
    rw [hpair, dirPair, getLsbD_setBit _ _ _ _ (by omega) (by omega), if_pos rfl]
    rfl

/-- DWRITE to an output pin is acknowledged, and the device then answers the level on that pin. -/
theorem exec_dwrite_attached (h : s.Attached d acks n) {pin : Byte} (l : Bool) (hpin : pin.toNat ≤ 15)
    (hout : (pairAt d.reg 0).getLsbD pin.toNat = false) :
    ∃ t e, exec (.dwrite pin (if l then 1 else 0)) s = .next t ∧ t.res = s.outcome .ok 0 0 ∧ t.Attached e acks n ∧ e.pins = d.pins
      ∧ e.gpio.getLsbD pin.toNat = l := by
  obtain ⟨u, e, hcall, hres, hu, hreg, hpins⟩ :=
    h.after_xwrite (i := 18) (ds := portBytes (setBit (pairAt s.shadow 18) pin.toNat l)) (by decide) (by simp)
  have hflag : flagOf (if l then 1 else 0) = some l := by cases l <;> rfl
  refine ⟨_, e, (exec_dwrite s hpin hflag).trans (finishWith_xwrite hcall hres), rfl, hu.withResult _ _, hpins, ?_⟩
  rw [Device.gpio_storeBurst hreg hpins h.good.reg hpin hout, getLsbD_setBit _ _ _ _ (by omega) (by omega), if_pos rfl]

/-- DREAD answers the pin's bit of the device's GPIO pair. -/
theorem exec_dread_attached (h : s.Attached d acks n) {pin : Byte} (hpin : pin.toNat ≤ 15) :
    ∃ t e, exec (.dread pin) s = .next t ∧ t.res = s.outcome .ok 0 (if d.gpio.getLsbD pin.toNat then 1 else 0)
      ∧ t.env = ⟨.reference e, acks, n⟩ ∧ e.reg = d.reg ∧ pairAt t.shadow 18 = d.gpio := by
  obtain ⟨u, e, hcall, hres, henv, hreg, hpair⟩ := h.after_dread16
  have hexec := exec_dread s hpin
  rw [hcall] at hexec
  exact ⟨_, e, hexec, setResult_outcome hres _ _ _, henv, hreg, hpair⟩

end

/-- Two register files whose pairs at `i` are equal agree in both registers of the pair. -/
theorem read_of_pairAt_eq {m m' : Memory} {i r : Nat} (h : pairAt m i = pairAt m' i) (hr : r = i ∨ r = i + 1) :
    Memory.read m r = Memory.read m' r := by
  rcases hr with rfl | rfl
  · simpa only [pairAt, loByte_pack16] using congrArg loByte h
  · simpa only [pairAt, hiByte_pack16] using congrArg hiByte h

/-- Settles O45: BEGIN attaches the device, PINMODE makes the pin an output, DWRITE latches the level, DREAD gives it back; with the plain
register file each of the four keeps the registers 0 to 13 mirrored, and DREAD leaves the GPIO pair as it was read. -/
theorem pinRoundTrip : Obligations.PinRoundTrip := by
  intro s d acks n a b dirA dirB puA puB polA polB p l henv htx hnak hgood hc hidle hp
  obtain ⟨s1, d1, h1, hres1, hsynced, hatt1, hpins1⟩ :=
    exec_begin_attached a b dirA dirB puA puB polA polB hc hidle henv ⟨htx, hnak⟩ hgood
  obtain ⟨s2, d2, h2, hres2, hatt2, hpins2, hout⟩ := exec_pinmode_output_attached hatt1 hp
  obtain ⟨s3, d3, h3, hres3, hatt3, hpins3, hlevel⟩ := exec_dwrite_attached hatt2 l hp hout
  obtain ⟨s4, e, h4, hres4, henv4, hreg, hpair⟩ := exec_dread_attached hatt3 hp
  refine ⟨s1, s2, s3, s4, h1, by rw [hres1]; rfl, hsynced, h2, by rw [hres2]; rfl, h3, by rw [hres3]; rfl, h4, ?_, fun hplain => ?_⟩
  · rw [hres4, hlevel, State.outcome, hres3, State.outcome, hres2, State.outcome, hres1]
    rfl
  · have hm1 : s1.Mirrored := exec_begin_mirrored hc ⟨hidle, d, acks, n, henv, htx, hnak, hplain, hgood⟩ h1
    have hm4 : s4.Mirrored :=
      exec_driver_mirrored (exec_driver_mirrored (exec_driver_mirrored hm1 rfl h2) rfl h3) rfl h4
    have hgpio : pairAt s4.shadow 18 = pairAt e.reg 18 := by
      rw [hpair, hreg]
      exact Device.gpio_plain (hpins3.trans (hpins2.trans (hpins1.trans hplain)))
    refine ⟨e, henv4, fun r hr => ?_⟩
    rcases hr with hbegun | hr
    · exact hm4.coherent.2 e acks n henv4 r hbegun
    · exact read_of_pairAt_eq hgpio hr

end Sys2Proof.Machine
end

section
/-! PROOF. U3, the sampling tick (spec/42_debounce.md R161 to R164): O47 (what a sample does to each counter), O48 (which signals it posts or
holds, channel after channel) and O49 (a confirmed edge takes N samples, on one channel), from one closed form of a channel's sample. -/
namespace Sys2Proof.Machine

/-! ## The counter -/

/-- A counter measured towards the bound of one polarity: as it is towards the active one, negated towards the inactive one. It is its own
inverse, so that both polarities count upwards by one rule. -/
def towards (active : Bool) (c : Int) : Int := if active then c else -c

@[simp] theorem towards_towards (active : Bool) (c : Int) : towards active (towards active c) = c := by
  cases active <;> simp [towards]

theorem towards_not (active : Bool) (c : Int) : towards (!active) c = -towards active c := by
  cases active <;> simp [towards]

/-- Both polarities of the step of R162 in one: towards its own bound, a sample counts up from zero at least, to N at most. -/
theorem stepCount_towards {n c : Int} (hn : 1 ≤ n) (active : Bool) (hc : towards active c ≤ n) :
    stepCount n active c = (towards active (min (max (towards active c) 0 + 1) n), decide (max (towards active c) 0 + 1 = n)) := by
  cases active
  · simp only [towards, Bool.false_eq_true, if_false] at hc ⊢
    rw [stepCount_inactive hn]
    refine Prod.ext ?_ (decide_eq_decide.mpr (by omega))
    dsimp only
    split <;> [skip; split] <;> omega
  · simp only [towards, if_true] at hc ⊢
    rw [stepCount_active hn]
    refine Prod.ext ?_ rfl
    dsimp only
    split <;> [skip; split] <;> omega

/-- The step of R162 on a counter within ±N, in the words of the statements: reset to zero where the sample disagrees, one step towards the
sample's bound, never past it. -/
theorem stepCount_closed {n c : Int} (hn : 1 ≤ n) (hlow : -n ≤ c) (hhigh : c ≤ n) (active : Bool) :
    (stepCount n active c).1 = if active then min (max c 0 + 1) n else max (min c 0 - 1) (-n) := by
  cases active
  · rw [stepCount_towards hn false (show -c ≤ n by omega)]
    simp only [towards, Bool.false_eq_true, if_false]
    omega
  · rw [stepCount_towards hn true (show c ≤ n from hhigh)]
    rfl

/-- The signal the model's `Fire` takes from the counter step is the one the statements call confirmed (R163). -/
theorem confirmedEdge_eq {n : Nat} (hn : 1 ≤ n) (raw : Level) (ch : Channel) :
    confirmedEdge n raw ch = if (stepCount n (raw == ch.cfg.activeLevel) ch.cnt).2 then edgeSignal ch.cfg (raw == ch.cfg.activeLevel)
      else none := by
  have hbound : (1 : Int) ≤ n := by exact_mod_cast hn
  unfold confirmedEdge
  by_cases hside : raw = ch.cfg.activeLevel
  · simp [hside, stepCount_active hbound, edgeSignal, ite_and]
  · simp [hside, beq_eq_false_iff_ne.mpr hside, stepCount_inactive hbound, edgeSignal, ite_and]

/-! ## One channel -/

section
variable {n cap : Nat} {raw : Level} {ch : Channel} {g : Signal} {q : List Signal}

/-- A sample that confirms nothing steps the counter only. -/
theorem sampleChannel_unconfirmed (hn : 1 ≤ n) (h : confirmedEdge n raw ch = none) :
    sampleChannel n cap raw ch q = ({ ch with cnt := (stepCount n (raw == ch.cfg.activeLevel) ch.cnt).1 }, q) := by
  simp only [sampleChannel, ← confirmedEdge_eq hn raw ch, h]

/-- A sample that confirms an edge steps the counter and runs `PostOrHold` (R163, R183). -/
theorem sampleChannel_confirmed (hn : 1 ≤ n) (h : confirmedEdge n raw ch = some g) :
    sampleChannel n cap raw ch q = ({ ch with
      cnt := (stepCount n (raw == ch.cfg.activeLevel) ch.cnt).1
      held := (postOrHold cap g ch.held q).1 }, (postOrHold cap g ch.held q).2) := by
  simp only [sampleChannel, ← confirmedEdge_eq hn raw ch, h]

/-- An occupied retry slot takes the confirmed signal, and nothing is posted. -/
theorem sampleChannel_of_occupied (hn : 1 ≤ n) (hheld : ch.held = some g) :
    (sampleChannel n cap raw ch q).1.held = some ((confirmedEdge n raw ch).getD g) ∧ (sampleChannel n cap raw ch q).2 = q := by
  cases hedge : confirmedEdge n raw ch with
  | none => rw [sampleChannel_unconfirmed hn hedge]; exact ⟨hheld, rfl⟩
  | some sig => rw [sampleChannel_confirmed hn hedge, hheld]; exact ⟨rfl, rfl⟩

/-- With an empty retry slot what is confirmed is posted, given room for it. -/
theorem sampleChannel_of_room (hn : 1 ≤ n) (hheld : ch.held = none) (hroom : confirmedEdge n raw ch ≠ none → q.length < cap) :
    (sampleChannel n cap raw ch q).1.held = none ∧ (sampleChannel n cap raw ch q).2 = q ++ (confirmedEdge n raw ch).toList := by
  cases hedge : confirmedEdge n raw ch with
  | none => rw [sampleChannel_unconfirmed hn hedge]; exact ⟨hheld, by simp⟩
  | some sig =>
    rw [sampleChannel_confirmed hn hedge, hheld]
    simp [postOrHold, tryPost_room (hroom (by simp [hedge]))]

/-- With an empty retry slot the confirmed signal is held while the queue is full. -/
theorem sampleChannel_of_full (hn : 1 ≤ n) (hheld : ch.held = none) (hfull : cap ≤ q.length) :
    (sampleChannel n cap raw ch q).1.held = confirmedEdge n raw ch ∧ (sampleChannel n cap raw ch q).2 = q := by
  cases hedge : confirmedEdge n raw ch with
  | none => rw [sampleChannel_unconfirmed hn hedge]; exact ⟨hheld, rfl⟩
  | some sig => rw [sampleChannel_confirmed hn hedge, hheld]; simp [postOrHold, tryPost_full hfull]

end

/-- A sample of a channel writes its counter and its retry slot. -/
theorem sampleChannel_channel (n cap : Nat) (raw : Level) (ch : Channel) (q : List Signal) :
    (sampleChannel n cap raw ch q).1 = { ch with
      cnt := (stepCount n (raw == ch.cfg.activeLevel) ch.cnt).1
      held := (sampleChannel n cap raw ch q).1.held } := by
  rw [← sampleChannel_cnt n cap raw ch q, ← sampleChannel_cfg n cap raw ch q]

/-! ## All channels, in ascending order -/

/-- Each channel is sampled with the queue that the channels before it leave. -/
theorem sampleFrom_getElem? (n cap : Nat) (raw : Byte) (c k : Nat) (chs : List Channel) (q : List Signal) :
    (sampleFrom n cap raw c chs q).1[k]? = (chs[k]?).map fun ch =>
      (sampleChannel n cap (raw.getLsbD (c + k)) ch (sampleFrom n cap raw c (chs.take k) q).2).1 := by
  induction chs generalizing c k q with
  | nil => rfl
  | cons ch chs ih =>
    cases k with
    | zero => rfl
    | succ k =>
      simp only [sampleFrom, List.getElem?_cons_succ, List.take_succ_cons]
      rw [ih, show c + 1 + k = c + (k + 1) by omega]

/-- Taking what fits of `a` and then what still fits of `b` is taking what fits of both. -/
theorem append_take_room {α : Type} (cap : Nat) (q a b : List α) :
    (q ++ a.take (cap - q.length)) ++ b.take (cap - (q ++ a.take (cap - q.length)).length)
      = q ++ (a ++ b).take (cap - q.length) := by
  rw [List.append_assoc, List.take_append, List.length_append, List.length_take]
  congr 3
  omega

/-- Of what a channel with an empty retry slot confirms, the queue takes what fits. -/
theorem sampleChannel_queue_of_empty {n cap : Nat} {raw : Level} {ch : Channel} {q : List Signal} (hn : 1 ≤ n)
    (hheld : ch.held = none) :
    (sampleChannel n cap raw ch q).2 = q ++ (confirmedEdge n raw ch).toList.take (cap - q.length) := by
  rcases Nat.lt_or_ge q.length cap with hroom | hfull
  · have hfits : (confirmedEdge n raw ch).toList.length ≤ cap - q.length := by
      have := Option.length_toList_le (o := confirmedEdge n raw ch)
      omega
    rw [(sampleChannel_of_room hn hheld fun _ => hroom).2, List.take_of_length_le hfits]
  · rw [(sampleChannel_of_full hn hheld hfull).2, Nat.sub_eq_zero_of_le hfull, List.take_zero, List.append_nil]

/-- The queue takes the postings in order, as many as fit (R161, R183). -/
theorem sampleFrom_queue {n cap : Nat} (hn : 1 ≤ n) (raw : Byte) (c : Nat) (chs : List Channel) (q : List Signal) :
    (sampleFrom n cap raw c chs q).2 = q ++ (postings n raw c chs).take (cap - q.length) := by
  induction chs generalizing c q with
  | nil => simp [sampleFrom, postings]
  | cons ch chs ih =>
    simp only [sampleFrom, postings, ih]
    cases hheld : ch.held with
    | none => simp only [sampleChannel_queue_of_empty hn hheld, append_take_room]
    | some g => rw [(sampleChannel_of_occupied hn hheld).2]; rfl

/-- A sample leaves room in the queue exactly when the postings need less than the room there was. -/
theorem length_sampleFrom_queue_lt {n cap : Nat} (hn : 1 ≤ n) (raw : Byte) (c : Nat) (chs : List Channel) (q : List Signal) :
    (sampleFrom n cap raw c chs q).2.length < cap ↔ (postings n raw c chs).length < cap - q.length := by
  rw [sampleFrom_queue hn, List.length_append, List.length_take]
  omega

/-! ## The operation -/

/-- The state SAMPLE leaves (R161). -/
def State.afterSample (raw : Byte) (s : State) : State :=
  { s with
    chans := (sampleFrom s.cfg.nDeb s.cfg.qcap raw 0 s.chans s.queue).1
    queue := (sampleFrom s.cfg.nDeb s.cfg.qcap raw 0 s.chans s.queue).2 }.setResult .ok

theorem exec_sample (raw : Byte) (s : State) : exec (.sample raw) s = .next (s.afterSample raw) := rfl

@[simp] theorem State.afterSample_cfg (raw : Byte) (s : State) : (s.afterSample raw).cfg = s.cfg := rfl

/-- Channel `c` after SAMPLE: sampled with the queue that the channels before it leave. -/
theorem State.afterSample_channel {s : State} {c : Nat} {ch : Channel} (raw : Byte) (hc : s.chans[c]? = some ch) :
    (s.afterSample raw).chans[c]? = some (sampleChannel s.cfg.nDeb s.cfg.qcap (raw.getLsbD c) ch
      (sampleFrom s.cfg.nDeb s.cfg.qcap raw 0 (s.chans.take c) s.queue).2).1 := by
  have hsampled := sampleFrom_getElem? s.cfg.nDeb s.cfg.qcap raw 0 c s.chans s.queue
  rw [hc, Nat.zero_add] at hsampled
  exact hsampled

/-- Settles O47: each channel keeps its configuration, and its counter makes the step of `stepCount_closed`. -/
theorem sampleStepsEveryCounter : Obligations.SampleStepsEveryCounter := by
  intro raw s hn
  refine ⟨rfl, s.afterSample raw, exec_sample raw s, rfl, sampleFrom_length _ _ _ _ _ _, fun c ch hc hlow hhigh => ?_⟩
  have hchan := State.afterSample_channel raw hc
  rw [sampleChannel_channel, stepCount_closed (by exact_mod_cast hn) hlow hhigh] at hchan
  simp only [beq_iff_eq] at hchan
  exact ⟨_, hchan⟩

/-- Settles O48: the queue takes the postings as far as there is room, and a channel with an empty slot holds its signal when the postings
of the channels before it have used that room up. -/
theorem samplePostsConfirmedEdges : Obligations.SamplePostsConfirmedEdges := by
  intro raw s hn _
  refine ⟨s.afterSample raw, exec_sample raw s, sampleFrom_queue hn raw 0 s.chans s.queue, fun c ch hc =>
    ⟨_, State.afterSample_channel raw hc, fun g hheld => (sampleChannel_of_occupied hn hheld).1, fun hheld => ?_⟩⟩
  have hlast := length_sampleFrom_queue_lt (cap := s.cfg.qcap) hn raw 0 (s.chans.take c) s.queue
  split
  · next hroom => exact (sampleChannel_of_room hn hheld fun _ => hlast.mpr hroom).1
  · next hfull => exact (sampleChannel_of_full hn hheld (not_lt.mp fun hroom => hfull (hlast.mp hroom))).1

/-! ## A run of equal samples on one channel -/

/-- On a build with one channel SAMPLE is the sample of that channel. -/
theorem State.afterSample_singleton {s : State} {ch : Channel} (raw : Byte) (hchans : s.chans = [ch]) :
    (s.afterSample raw).chans = [(sampleChannel s.cfg.nDeb s.cfg.qcap (raw.getLsbD 0) ch s.queue).1]
      ∧ (s.afterSample raw).queue = (sampleChannel s.cfg.nDeb s.cfg.qcap (raw.getLsbD 0) ch s.queue).2 := by
  simp only [State.afterSample, hchans]
  exact ⟨rfl, rfl⟩

/-- One sample of a build with one channel whose retry slot is empty, with room in the queue if the sample reaches the bound. -/
theorem State.afterSample_one {s : State} {ch : Channel} {raw : Byte} {active : Bool} (hn : 1 ≤ s.cfg.nDeb) (hchans : s.chans = [ch])
    (hheld : ch.held = none) (hside : (raw.getLsbD 0 == ch.cfg.activeLevel) = active)
    (hc : towards active ch.cnt ≤ (s.cfg.nDeb : Int))
    (hroom : max (towards active ch.cnt) 0 + 1 = (s.cfg.nDeb : Int) → s.queue.length < s.cfg.qcap) :
    (s.afterSample raw).chans = [{ ch with cnt := towards active (min (max (towards active ch.cnt) 0 + 1) s.cfg.nDeb) }]
      ∧ (s.afterSample raw).queue = s.queue
        ++ if max (towards active ch.cnt) 0 + 1 = (s.cfg.nDeb : Int) then (edgeSignal ch.cfg active).toList else [] := by
  have hstep := stepCount_towards (by exact_mod_cast hn) active hc
  have hedge := confirmedEdge_eq hn (raw.getLsbD 0) ch
  rw [hside, hstep] at hedge
  simp only [decide_eq_true_eq] at hedge
  obtain ⟨hslot, hposted⟩ := sampleChannel_of_room (cap := s.cfg.qcap) (q := s.queue) hn hheld fun hconfirmed => by
    by_cases hreached : max (towards active ch.cnt) 0 + 1 = (s.cfg.nDeb : Int)
    · exact hroom hreached
    · exact absurd (by rw [hedge, if_neg hreached]) hconfirmed
  obtain ⟨hchan, hqueue⟩ := State.afterSample_singleton raw hchans
  refine ⟨by rw [hchan, sampleChannel_channel, hslot, hside, hstep, hheld], ?_⟩
  rw [hqueue, hposted, hedge]
  split <;> rfl

theorem repeatExec_sample (raw : Byte) (k : Nat) (s : State) :
    repeatExec (.sample raw) k s = .next ((State.afterSample raw)^[k] s) := by
  induction k generalizing s with
  | zero => rfl
  | succ k ih => exact ih (s.afterSample raw)

/-- `t` is where `k` samples of one polarity take `s`, whose one channel is `ch`: the count is `k`, at most N, and the one signal is posted
from the N-th sample on (R164 (b)). -/
structure Counted (active : Bool) (ch : Channel) (s : State) (k : Nat) (t : State) : Prop where
  cfg   : t.cfg = s.cfg
  chans : t.chans = [{ ch with cnt := towards active (min k s.cfg.nDeb : Nat) }]
  queue : t.queue = s.queue ++ if s.cfg.nDeb ≤ k then (edgeSignal ch.cfg active).toList else []

section
variable {s t : State} {ch : Channel} {raw : Byte} {active : Bool} {k : Nat}

/-- The first sample of the polarity the counter does not stand on. -/
theorem Counted.first (hn : 1 ≤ s.cfg.nDeb) (hchans : s.chans = [ch]) (hheld : ch.held = none)
    (hroom : s.queue.length < s.cfg.qcap) (hside : (raw.getLsbD 0 == ch.cfg.activeLevel) = active) (hc : towards active ch.cnt ≤ 0) :
    Counted active ch s 1 (s.afterSample raw) := by
  obtain ⟨hchan, hqueue⟩ := State.afterSample_one hn hchans hheld hside (by omega) fun _ => hroom
  have hcount : min (max (towards active ch.cnt) 0 + 1) (s.cfg.nDeb : Int) = (min 1 s.cfg.nDeb : Nat) := by omega
  have hreached : max (towards active ch.cnt) 0 + 1 = (s.cfg.nDeb : Int) ↔ s.cfg.nDeb ≤ 1 := by omega
  exact ⟨rfl, by rw [hchan, hcount], by simp only [hqueue, hreached]⟩

/-- One more sample: the signal is posted when it is the N-th, and then the queue still had its room. -/
theorem Counted.next (h : Counted active ch s k t) (hk : 1 ≤ k) (hn : 1 ≤ s.cfg.nDeb) (hheld : ch.held = none)
    (hroom : s.queue.length < s.cfg.qcap) (hside : (raw.getLsbD 0 == ch.cfg.activeLevel) = active) :
    Counted active ch s (k + 1) (t.afterSample raw) := by
  obtain ⟨hcfg, hchans, hqueue⟩ := h
  have hreached : max ((min k s.cfg.nDeb : Nat) : Int) 0 + 1 = (s.cfg.nDeb : Int) ↔ k + 1 = s.cfg.nDeb := by omega
  have hone := State.afterSample_one (s := t) (raw := raw) (active := active) (by rw [hcfg]; exact hn) hchans hheld hside
  simp only [towards_towards, hcfg, hreached] at hone
  obtain ⟨hchan, hposted⟩ := hone (by omega) fun hlast => by
    rw [hqueue, if_neg (by omega), List.append_nil]
    exact hroom
  have hcount : min (max ((min k s.cfg.nDeb : Nat) : Int) 0 + 1) (s.cfg.nDeb : Int) = (min (k + 1) s.cfg.nDeb : Nat) := by omega
  refine ⟨hcfg, by rw [hchan, hcount], ?_⟩
  rw [hposted, hqueue, List.append_assoc]
  congr 1
  rcases Nat.lt_trichotomy (k + 1) s.cfg.nDeb with hbefore | hlast | hafter
  · rw [if_neg (by omega), if_neg (by omega), if_neg (by omega), List.nil_append]
  · rw [if_neg (by omega), if_pos hlast, if_pos (by omega), List.nil_append]
  · rw [if_pos (by omega), if_neg (by omega), if_pos (by omega), List.append_nil]

/-- R164 (b), (c): `k` samples of the polarity the counter does not stand on. -/
theorem counted_iterate (hk : 1 ≤ k) (hn : 1 ≤ s.cfg.nDeb) (hchans : s.chans = [ch]) (hheld : ch.held = none)
    (hroom : s.queue.length < s.cfg.qcap) (hside : (raw.getLsbD 0 == ch.cfg.activeLevel) = active) (hc : towards active ch.cnt ≤ 0) :
    Counted active ch s k ((State.afterSample raw)^[k] s) := by
  induction k, hk using Nat.le_induction with
  | base => exact .first hn hchans hheld hroom hside hc
  | succ k hk ih =>
    rw [Function.iterate_succ_apply']
    exact ih.next hk hn hheld hroom hside

/-- R164 (d): after a run shorter than N, a sample of the other polarity posts nothing and leaves the counter one step from zero. -/
theorem Counted.broken (h : Counted active ch s k t) (hk : k < s.cfg.nDeb) (hn : 2 ≤ s.cfg.nDeb) (hheld : ch.held = none)
    (hside : (raw.getLsbD 0 == ch.cfg.activeLevel) = !active) :
    (t.afterSample raw).queue = s.queue ∧ (t.afterSample raw).chans = [{ ch with cnt := towards active (-1) }] := by
  obtain ⟨hcfg, hchans, hqueue⟩ := h
  have hreset : max (-((min k s.cfg.nDeb : Nat) : Int)) 0 + 1 = 1 := by omega
  have hearly : (1 : Int) ≠ (s.cfg.nDeb : Int) := by omega
  have hone := State.afterSample_one (s := t) (raw := raw) (active := !active) (by rw [hcfg]; omega) hchans hheld hside
  simp only [towards_not, towards_towards, hcfg, hreset, hearly, if_false, List.append_nil] at hone
  obtain ⟨hchan, hposted⟩ := hone (by omega) False.elim
  have hcount : -towards active (min 1 (s.cfg.nDeb : Int)) = towards active (-1) := by
    rw [min_eq_left (by omega)]
    cases active <;> rfl
  exact ⟨by rw [hposted, hqueue, if_neg (by omega), List.append_nil], by rw [hchan, hcount]⟩

end

/-- R164 (b) to (d) for either polarity. -/
theorem debounce_run {s : State} {ch : Channel} {raw : Byte} {active : Bool} {k : Nat} (hk : 1 ≤ k) (hn : 1 ≤ s.cfg.nDeb)
    (hchans : s.chans = [ch]) (hheld : ch.held = none) (hroom : s.queue.length < s.cfg.qcap)
    (hside : (raw.getLsbD 0 == ch.cfg.activeLevel) = active) (hc : towards active ch.cnt ≤ 0) :
    ∃ t, repeatExec (.sample raw) k s = .next t ∧ t.chans = [{ ch with cnt := towards active (min k s.cfg.nDeb : Nat) }]
      ∧ t.queue = s.queue ++ (if s.cfg.nDeb ≤ k then (edgeSignal ch.cfg active).toList else [])
      ∧ (k < s.cfg.nDeb → ∀ back : Byte, (back.getLsbD 0 == ch.cfg.activeLevel) = (!active) → 2 ≤ s.cfg.nDeb →
          ∃ u, exec (.sample back) t = .next u ∧ u.queue = s.queue ∧ u.chans = [{ ch with cnt := towards active (-1) }]) := by
  have hrun := counted_iterate hk hn hchans hheld hroom hside hc
  exact ⟨_, repeatExec_sample raw k s, hrun.chans, hrun.queue, fun hshort back hback hn2 =>
    ⟨_, exec_sample back _, hrun.broken hshort hn2 hheld hback⟩⟩

theorem edgeSignal_active_toList (c : ChannelCfg) :
    (edgeSignal c true).toList = if c.emitActive = true then [c.sigActive] else [] := by
  simp only [edgeSignal, if_true]
  split <;> rfl

theorem edgeSignal_inactive_toList (c : ChannelCfg) :
    (edgeSignal c false).toList = if c.emitInactive = true then [c.sigInactive] else [] := by
  simp only [edgeSignal, Bool.false_eq_true, if_false]
  split <;> rfl

/-- Settles O49: a run towards the active bound and one towards the inactive bound are one run, measured towards its own bound. -/
theorem debounceNeedsNSamples : Obligations.DebounceNeedsNSamples := by
  intro s ch raw k hchans hheld hroom hn hk _ _
  constructor
  · intro hside hc
    obtain ⟨t, ht, hcount, hqueue, hback⟩ := debounce_run hk hn hchans hheld hroom (beq_iff_eq.mpr hside) hc
    refine ⟨t, ht, hcount, by rw [hqueue, edgeSignal_active_toList, ite_and], fun hshort back hother => ?_⟩
    exact hback hshort back (beq_eq_false_iff_ne.mpr hother)
  · intro hside hc
    obtain ⟨t, ht, hcount, hqueue, hback⟩ :=
      debounce_run hk hn hchans hheld hroom (beq_eq_false_iff_ne.mpr hside) (Int.neg_nonpos_of_nonneg hc)
    refine ⟨t, ht, hcount, by rw [hqueue, edgeSignal_inactive_toList, ite_and], fun hshort back hsame => ?_⟩
    exact hback hshort back (beq_iff_eq.mpr hsame)

end Sys2Proof.Machine
end

section
/-! PROOF. U4, the queue and the timer events (spec/43_dispatcher_actuator.md R181 to R186): O50 (POST), O52 (RETRYTICK), O53 (MINTICK), O54 (the
countdown to the off signal) and O55 (LEVELTICK). -/
namespace Sys2Proof.Machine

/-! ## PostOrHold (R183) -/

theorem postOrHold_of_room {cap : Nat} {held : Option Signal} {q : List Signal} (g : Signal) (hheld : held = none)
    (hroom : q.length < cap) : postOrHold cap g held q = (none, q ++ [g]) := by
  simp only [hheld, postOrHold, tryPost_room hroom]

theorem postOrHold_of_no_room {cap : Nat} {held : Option Signal} {q : List Signal} (g : Signal) (h : held ≠ none ∨ cap ≤ q.length) :
    postOrHold cap g held q = (some g, q) := by
  rcases postOrHold_cases cap g held q with ⟨-, heq⟩ | ⟨hheld, hroom, -⟩ | ⟨-, -, heq⟩
  · exact heq
  · exact absurd h (not_or.mpr ⟨not_not_intro hheld, not_le.mpr hroom⟩)
  · exact heq

section
variable {s : State} (g : Signal)

theorem postAct_of_room (hheld : s.heldAct = none) (hroom : s.queue.length < s.cfg.qcap) :
    postAct g s = { s with queue := s.queue ++ [g] } := by
  rw [postAct, postOrHold_of_room g hheld hroom, ← hheld]

theorem postAct_of_no_room (h : s.heldAct ≠ none ∨ s.cfg.qcap ≤ s.queue.length) : postAct g s = { s with heldAct := some g } := by
  rw [postAct, postOrHold_of_no_room g h]

theorem postLvl_of_room (hheld : s.heldLvl = none) (hroom : s.queue.length < s.cfg.qcap) :
    postLvl g s = { s with queue := s.queue ++ [g] } := by
  rw [postLvl, postOrHold_of_room g hheld hroom, ← hheld]

theorem postLvl_of_no_room (h : s.heldLvl ≠ none ∨ s.cfg.qcap ≤ s.queue.length) : postLvl g s = { s with heldLvl := some g } := by
  rw [postLvl, postOrHold_of_no_room g h]

end

/-! ## POST -/

theorem exec_post_room {kind : Byte} {param : Word} {g : Signal} {s : State} (hg : signalOf kind param = some g)
    (hroom : s.queue.length < s.cfg.qcap) :
    exec (.post kind param) s = .next ({ s with queue := s.queue ++ [g] }.setResult (.okFlag true)) := by
  simp only [exec, execPost, hg, tryPost_room hroom, finish_eq]

theorem exec_post_full {kind : Byte} {param : Word} {g : Signal} {s : State} (hg : signalOf kind param = some g)
    (hfull : s.cfg.qcap ≤ s.queue.length) : exec (.post kind param) s = .next (s.setResult .queueFull) := by
  simp only [exec, execPost, hg, tryPost_full hfull, finish_eq]

/-- Settles O50: the signal of the operands is posted or rejected, and operands that give none are refused. -/
theorem postEnqueuesOrRefuses : Obligations.PostEnqueuesOrRefuses := by
  refine ⟨fun kind param g s h => ?_, fun kind param s => ⟨rfl, fun h => exec_refused ?_ (by simp)⟩⟩
  · have hg : signalOf kind param = some g := by
      rcases h with ⟨rfl, hparam, rfl⟩ | ⟨rfl, rfl⟩ | ⟨rfl, hparam, rfl⟩ | ⟨rfl, rfl⟩
      · exact if_pos hparam
      · rfl
      · exact if_pos hparam
      · rfl
    exact ⟨exec_post_room hg, exec_post_full hg⟩
  · simp only [Instr.wellFormed, Bool.or_eq_false_iff, Bool.and_eq_false_iff, decide_eq_false_iff_not]
    rcases h with rfl | hkind | ⟨rfl | rfl, hparam⟩
    · exact ⟨⟨.inl (by decide), by decide⟩, by decide⟩
    · omega
    · exact ⟨⟨.inr (by omega), by decide⟩, by decide⟩
    · exact ⟨⟨.inr (by omega), by decide⟩, by decide⟩

/-! ## RETRYTICK -/

section
variable {slot : Byte} {s : State} {p : Producer} {g : Signal} (hp : producerOf s.nch slot = some p)
include hp

theorem exec_retrytick_empty (hslot : s.retry p = none) : exec (.retrytick slot) s = .next (s.setResult (.okFlag false)) := by
  simp only [exec, execRetrytick, hp, hslot, finish_eq]

theorem exec_retrytick_room {u : State} (hslot : s.retry p = some g) (hroom : s.queue.length < s.cfg.qcap)
    (hclear : State.setRetry { s with queue := s.queue ++ [g] } p none = u) :
    exec (.retrytick slot) s = .next (u.setResult (.okFlag true)) := by
  simp only [exec, execRetrytick, hp, hslot, tryPost_room hroom, finish_eq, hclear]

theorem exec_retrytick_full (hslot : s.retry p = some g) (hfull : s.cfg.qcap ≤ s.queue.length) :
    exec (.retrytick slot) s = .next (s.setResult .queueFull) := by
  simp only [exec, execRetrytick, hp, hslot, tryPost_full hfull, finish_eq]

end

theorem retry_channel {s : State} {c : Nat} {ch : Channel} (hc : s.chans[c]? = some ch) : s.retry (.dbn c) = ch.held := by
  simp only [State.retry, hc, Option.bind_some]

/-- Writing a channel's retry slot sets that channel. -/
theorem setRetry_channel {s : State} {c : Nat} {ch : Channel} (v : Option Signal) (hc : s.chans[c]? = some ch) :
    s.setRetry (.dbn c) v = { s with chans := s.chans.set c { ch with held := v } } := by
  have hset : s.chans.modify c (fun ch => { ch with held := v }) = s.chans.set c { ch with held := v } := by
    rw [List.modify_eq_set_getElem?, hc]
    rfl
  rw [State.setRetry, hset]

/-- Settles O52: the slot number names its producer, whose slot and the queue decide. -/
theorem retrytickDeliversTheHeldSignal : Obligations.RetrytickDeliversTheHeldSignal := by
  intro slot s hnch
  refine ⟨rfl, fun hchan h8 h9 => exec_refused ?_ (by simp), fun ch hch => ?_, ?_, ?_⟩
  · simp only [Instr.wellFormed, Bool.or_eq_false_iff, decide_eq_false_iff_not]
    omega
  · obtain ⟨hlt, -⟩ := List.getElem?_eq_some_iff.mp hch
    have hp : producerOf s.nch slot = some (.dbn slot.toNat) := if_pos hlt
    have hslot := retry_channel hch
    exact ⟨fun hheld => exec_retrytick_empty hp (hslot.trans hheld),
      fun g hheld hroom => exec_retrytick_room hp (hslot.trans hheld) hroom (setRetry_channel none hch),
      fun g hheld => exec_retrytick_full hp (hslot.trans hheld)⟩
  · rintro rfl
    have hp : producerOf s.nch 8 = some .act := if_neg (by simpa using hnch)
    exact ⟨exec_retrytick_empty hp, fun g hheld hroom => exec_retrytick_room hp hheld hroom rfl, fun g => exec_retrytick_full hp⟩
  · rintro rfl
    have hp : producerOf s.nch 9 = some .lvl := if_neg (by simp; omega)
    exact ⟨exec_retrytick_empty hp, fun g hheld hroom => exec_retrytick_room hp hheld hroom rfl, fun g => exec_retrytick_full hp⟩

/-! ## LEVELTICK -/

/-- Settles O55: LEVELTICK is the level timer's post. -/
theorem leveltickPostsOrHolds : Obligations.LeveltickPostsOrHolds := by
  intro s
  have htick : exec .leveltick s = .next ((postLvl ⟨.levelSample, 0⟩ s).setResult .ok) := rfl
  refine ⟨rfl, fun hheld hroom => ?_, fun h => ?_⟩
  · rw [htick, postLvl_of_room _ hheld hroom]
    rfl
  · rw [htick, postLvl_of_no_room _ h]
    rfl

/-! ## MINTICK -/

theorem exec_mintick_disarmed {s : State} (harmed : s.minArmed = false) : exec .mintick s = .next (s.setResult (.okFlag false)) := by
  simp only [exec, execMintick, harmed, Bool.false_eq_true, if_false, finish_eq]

section
variable {s : State} (harmed : s.minArmed = true)
include harmed

theorem exec_mintick_counts (hmore : 2 ≤ s.actCountdown.toNat) :
    exec .mintick s = .next ({ s with actCountdown := s.actCountdown - 1 }.setResult (.okFlag true)) := by
  obtain ⟨t, ht⟩ := exec_next .mintick s
  rcases exec_mintick_cases ht with ⟨hoff, -⟩ | ⟨-, -, rfl⟩ | ⟨-, hlast, -⟩
  · rw [harmed] at hoff; cases hoff
  · exact ht
  · omega

theorem exec_mintick_last {u : State} (hlast : s.actCountdown.toNat ≤ 1)
    (hpost : postAct ⟨.actSet, 0⟩ { s with actCountdown := 0, minArmed := false } = u) :
    exec .mintick s = .next (u.setResult (.okFlag true)) := by
  subst hpost
  obtain ⟨t, ht⟩ := exec_next .mintick s
  rcases exec_mintick_cases ht with ⟨hoff, -⟩ | ⟨-, hmore, -⟩ | ⟨-, -, rfl⟩
  · rw [harmed] at hoff; cases hoff
  · omega
  · exact ht

theorem exec_mintick_posts (hlast : s.actCountdown.toNat ≤ 1) (hheld : s.heldAct = none) (hroom : s.queue.length < s.cfg.qcap) :
    exec .mintick s = .next ({ s with
      actCountdown := 0, minArmed := false, queue := s.queue ++ [(⟨.actSet, 0⟩ : Signal)] }.setResult (.okFlag true)) :=
  exec_mintick_last harmed hlast (postAct_of_room _ hheld hroom)

end

theorem toNat_countdown_pred {n : Half} (h : 1 ≤ n.toNat) : (n - 1).toNat + 1 = n.toNat := by
  bv_omega

/-- Settles O53: the three cases of `exec_mintick_cases`, the last by what `PostOrHold` does. -/
theorem mintickCountsDown : Obligations.MintickCountsDown :=
  fun _ => ⟨rfl, exec_mintick_disarmed,
    fun harmed hmore => ⟨_, toNat_countdown_pred (by omega), exec_mintick_counts harmed hmore⟩,
    exec_mintick_posts,
    fun harmed hlast h => exec_mintick_last harmed hlast (postAct_of_no_room _ h)⟩

/-! ## The countdown to the off signal (R184) -/

theorem repeatExec_succ {i : Instr} {s t : State} (k : Nat) (h : exec i s = .next t) : repeatExec i (k + 1) s = repeatExec i k t := by
  simp only [repeatExec, h]

theorem repeatExec_mintick_disarmed {s : State} (k : Nat) (harmed : s.minArmed = false) :
    ∃ r, repeatExec .mintick k s = .next { s with res := r } := by
  induction k generalizing s with
  | zero => exact ⟨s.res, rfl⟩
  | succ k ih =>
    rw [repeatExec_succ k (exec_mintick_disarmed harmed)]
    exact ih harmed

/-- Settles O54, by induction on the ticks: a tick before the last counts down by one, the last posts, and from there the timer is
disarmed. -/
theorem minuteTicksReachOff : Obligations.MinuteTicksReachOff := by
  intro s k
  induction k generalizing s with
  | zero => exact fun harmed hpos hheld _ => ⟨s, rfl, rfl, rfl, hheld, fun _ => ⟨harmed, rfl⟩, fun h => by omega⟩
  | succ k ih =>
    intro harmed hpos hheld hroom
    by_cases hmore : 2 ≤ s.actCountdown.toNat
    · have hpred := toNat_countdown_pred hpos
      rw [repeatExec_succ k (exec_mintick_counts harmed hmore)]
      obtain ⟨t, hrun, hcount, hon, hslot, hbefore, hafter⟩ :=
        ih ({ s with actCountdown := s.actCountdown - 1 }.setResult (.okFlag true)) harmed (by simp; omega) hheld hroom
      simp only [setResult_actCountdown, setResult_queue] at hcount hbefore hafter
      exact ⟨t, hrun, by omega, hon, hslot, fun h => hbefore (by omega), fun h => hafter (by omega)⟩
    · rw [repeatExec_succ k (exec_mintick_posts harmed (by omega) hheld hroom)]
      obtain ⟨r, hrun⟩ := repeatExec_mintick_disarmed (s := { s with
        actCountdown := 0, minArmed := false, queue := s.queue ++ [(⟨.actSet, 0⟩ : Signal)] }.setResult (.okFlag true)) k rfl
      exact ⟨_, hrun, by simp; omega, rfl, hheld, fun h => by omega, fun _ => ⟨rfl, rfl⟩⟩

end Sys2Proof.Machine
end

section
/-! PROOF. U4, the handlers (spec/43_dispatcher_actuator.md R182, R188 to R196): O51 (DISPATCH takes the head), O56 (the actuator), O57 (the level
sample) and O58 (door and upgrade). A handler's bus access is the operation DWRITE or DREAD16 itself, run beside the handler's records. -/
namespace Sys2Proof.Machine

/-! ## DISPATCH -/

theorem exec_dispatch_nil {s : State} (hq : s.queue = []) : exec .dispatch s = .next (s.setResult (.okFlag false)) := by
  simp only [exec, execDispatch, hq, finish_eq]

theorem exec_dispatch_cons {s : State} {g : Signal} {rest : List Signal} (hq : s.queue = g :: rest) :
    exec .dispatch s = .next ((handleSignal g { s with queue := rest }).setResult (.okFlag true)) := by
  simp only [exec, execDispatch, hq, finish_eq]

/-- Settles O51: whatever the handler of the head did is within `HandlerEffect`, which reaches none of these fields. -/
theorem dispatchConsumesTheHead : Obligations.DispatchConsumesTheHead := by
  refine fun s => ⟨rfl, exec_dispatch_nil, fun g rest hq => ⟨_, exec_dispatch_cons hq, ?_⟩⟩
  rw [(handleSignal_effect g { s with queue := rest }).frame]
  exact ⟨rfl, rfl, rfl, rfl, rfl, rfl, rfl, rfl⟩

/-- Settles O58: both handlers stay off the bus; the answer taken is the environment's next, if it has one. -/
theorem doorAndUpgradeHandlers : Obligations.DoorAndUpgradeHandlers := by
  refine ⟨fun s param rest hq => exec_dispatch_cons hq, fun s param rest hq =>
    ⟨s.env.answerUpgrade.1, s.env.answerUpgrade.2, exec_dispatch_cons hq, Env.answerUpgrade_slave s.env, fun b bs hack => ?_⟩⟩
  simp only [Env.answerUpgrade, hack, and_self]

/-! ## A handler's bus access as the operation it invokes (R13) -/

/-- The state `u` with the records a handler writes beside the bus, and the result record that only the outermost operation writes, as
`h` has them. -/
def State.withRecords (u h : State) : State :=
  { u with res := h.res, dspErr := h.dspErr, delayLog := h.delayLog, pub := h.pub }

/-- `h` after `NoteErr` on the recorded result of an operation that left `u` (R194). -/
def State.noting (h u : State) : State := { h with dspErr := notedErr u.res.status u.res.index h.dspErr }

/-- The bus does not use those records. -/
theorem withRecords_blind (h : State) : Blind (fun u => u.withRecords h) :=
  ⟨fun _ => rfl, fun _ => rfl, fun _ => rfl, fun _ => rfl, fun _ => rfl, fun _ _ _ _ _ => rfl⟩

theorem setResult_blind (r : Result) : Blind (fun u => u.setResult r) :=
  ⟨fun _ => rfl, fun _ => rfl, fun _ => rfl, fun _ => rfl, fun _ => rfl, fun _ _ _ _ _ => rfl⟩

/-- The state the command DWRITE of a pin parameter leaves. -/
def State.afterDwrite (u : State) (pin : BitVec 4) (level : Level) : State :=
  (dwriteBit pin.toNat level u).2.setResult (dwriteBit pin.toNat level u).1

/-- The state the command DREAD16 leaves. -/
def State.afterDread16 (u : State) : State := (dread16 u).2.setResult (dread16 u).1

theorem exec_dwrite_level (pin : BitVec 4) (level : Level) (u : State) :
    exec (.dwrite (pin.setWidth 8) (if level then 1 else 0)) u = .next (u.afterDwrite pin level) :=
  exec_dwrite_pin pin level u

theorem exec_dwrite_inverse (pin : BitVec 4) (level : Level) (u : State) :
    exec (.dwrite (pin.setWidth 8) (if level then 0 else 1)) u = .next (u.afterDwrite pin (!level)) := by
  rw [← exec_dwrite_level]
  cases level <;> rfl

theorem exec_dread16 (u : State) : exec .dread16 u = .next u.afterDread16 := rfl

theorem handlerWrite_withRecords (pin : BitVec 4) (level : Level) (u h : State) :
    handlerWrite pin level (u.withRecords h)
      = ((dwriteBit pin.toNat level u).1, (u.afterDwrite pin level).withRecords (h.noting (u.afterDwrite pin level))) := by
  rw [handlerWrite_eq, (withRecords_blind h).dwriteBit]
  rfl

theorem handlerRead_withRecords (u h : State) :
    handlerRead (u.withRecords h) = ((dread16 u).1, u.afterDread16.withRecords (h.noting u.afterDread16)) := by
  rw [handlerRead_eq, (withRecords_blind h).dread16]
  rfl

/-- A DWRITE is a run of the bus: it leaves everything else of the block alone. -/
theorem dwriteBit_runs (pin : Nat) (level : Level) (u : State) :
    ∃ w m, Runs u (dwriteBit pin level u).2 w ⟨true, true⟩ m :=
  ⟨_, _, (dwrite16_spec _ u).2.2⟩

theorem afterDwrite_delayLog (u : State) (pin : BitVec 4) (level : Level) : (u.afterDwrite pin level).delayLog = u.delayLog := by
  obtain ⟨_, _, hruns⟩ := dwriteBit_runs pin.toNat level u
  exact hruns.delayLog

theorem afterDwrite_pub (u : State) (pin : BitVec 4) (level : Level) : (u.afterDwrite pin level).pub = u.pub := by
  obtain ⟨_, _, hruns⟩ := dwriteBit_runs pin.toNat level u
  exact hruns.pub

/-- Where both logs agree, only the result and the sticky record are put in. -/
theorem withRecords_of_logs {u h : State} (hdelay : u.delayLog = h.delayLog) (hpub : u.pub = h.pub) :
    u.withRecords h = { u with res := h.res, dspErr := h.dspErr } := by
  rw [State.withRecords, ← hdelay, ← hpub]

/-! ## The level sample -/

section
variable {u h u1 u2 u3 : State} {c : Config} (hcfg : u.cfg = c) (hdrive : u.afterDwrite c.lvlPin c.lvlActive = u1)
include hcfg hdrive

/-- R190 when the sensors could not be driven: the drive pin is put back, nothing is read or published. -/
theorem handleLevelSample_of_not_driven (hrelease : u1.afterDwrite c.lvlPin (!c.lvlActive) = u3) (hfail : u1.res.status ≠ .ok) :
    handleLevelSample (u.withRecords h) = u3.withRecords ((h.noting u1).noting u3) := by
  have hcfg' : (u.withRecords h).cfg = c := hcfg
  have hstatus : (dwriteBit c.lvlPin.toNat c.lvlActive u).1.status ≠ .ok := by rw [← hdrive] at hfail; exact hfail
  simp only [handleLevelSample, hcfg', handlerWrite_withRecords, if_neg hstatus, hdrive, hrelease]

/-- R190 when the sensors were driven: the settle delay, the read, and the drive pin put back; a read that succeeded is published. -/
theorem handleLevelSample_of_driven (hread : u1.afterDread16 = u2)
    (hrelease : u2.afterDwrite c.lvlPin (!c.lvlActive) = u3) (hok : u1.res.status = .ok) :
    handleLevelSample (u.withRecords h) = u3.withRecords { h with
      dspErr := notedErr u3.res.status u3.res.index (notedErr u2.res.status u2.res.index h.dspErr)
      delayLog := h.delayLog ++ [c.tSettleMs]
      pub := if u2.res.status = .ok then h.pub ++ [(c.nameLevel, dec (percent (levelPattern c u2.res.value)))] else h.pub } := by
  have hcfg' : (u.withRecords h).cfg = c := hcfg
  have hstatus : (dwriteBit c.lvlPin.toNat c.lvlActive u).1.status = .ok := by rw [← hdrive] at hok; exact hok
  have hnoted : h.noting u1 = h := by rw [State.noting, hok]; rfl
  have hdelay : delayMs c.tSettleMs (u1.withRecords h) = u1.withRecords (delayMs c.tSettleMs h) := rfl
  have hreadStatus : (dread16 u1).1.status = u2.res.status := by rw [← hread]; rfl
  have hreadValue : (dread16 u1).1.value = u2.res.value := by rw [← hread]; rfl
  simp only [handleLevelSample, hcfg', handlerWrite_withRecords, if_pos hstatus, hdrive, hnoted, hdelay, handlerRead_withRecords, hread,
    hrelease, hreadStatus, hreadValue]
  split <;> rfl

end

/-- The percentage of a read is ten times the number of contiguous set sensor bits from bit 0 on (R191). -/
theorem percent_levelPattern (c : Config) (v : Half) : ∃ n, percent (levelPattern c v) = 10 * n ∧ n ≤ 10
    ∧ (∀ k, k < n → (v.getLsbD (k + c.lvlShift) ^^ c.lvlInvert.getLsbD k) = true)
    ∧ (n = 10 ∨ (v.getLsbD (n + c.lvlShift) ^^ c.lvlInvert.getLsbD n) = false) := by
  obtain ⟨-, hle, hset, hend⟩ := onesFrom_spec (levelPattern c v) 10 0
  refine ⟨_, rfl, by omega, fun k hk => ?_, ?_⟩
  · rw [← levelPattern_bit c v k (by omega)]
    exact hset k (Nat.zero_le k) hk
  · by_cases hall : onesFrom (levelPattern c v) 10 0 = 10
    · exact .inl hall
    · rw [← levelPattern_bit c v _ (by omega)]
      exact .inr (hend.resolve_left (by omega))

/-- Settles O57: the handler on the rest of the queue, its bus accesses the commands themselves. -/
theorem levelSampleHandler : Obligations.LevelSampleHandler := by
  intro s param rest hq
  have hcall : exec .dispatch s = .next ((handleLevelSample (State.withRecords { s with queue := rest } s)).setResult (.okFlag true)) :=
    exec_dispatch_cons hq
  have hdrive := exec_dwrite_level s.cfg.lvlPin s.cfg.lvlActive { s with queue := rest }
  have hdelay := afterDwrite_delayLog { s with queue := rest } s.cfg.lvlPin s.cfg.lvlActive
  have hpub := afterDwrite_pub { s with queue := rest } s.cfg.lvlPin s.cfg.lvlActive
  generalize hu1 : State.afterDwrite { s with queue := rest } s.cfg.lvlPin s.cfg.lvlActive = u1 at hdrive hdelay hpub
  refine ⟨u1, hdrive, fun hfail => ⟨_, exec_dwrite_inverse _ _ _, ?_⟩, fun hok => ?_⟩
  · rw [hcall, handleLevelSample_of_not_driven rfl hu1 rfl hfail, withRecords_of_logs]
    · rfl
    · exact (afterDwrite_delayLog u1 _ _).trans hdelay
    · exact (afterDwrite_pub u1 _ _).trans hpub
  · obtain ⟨n, hpercent, hle, hset, hend⟩ := percent_levelPattern s.cfg u1.afterDread16.res.value
    refine ⟨_, _, n, exec_dread16 _, exec_dwrite_inverse _ _ _, hle, hset, hend, ?_⟩
    rw [hcall, handleLevelSample_of_driven rfl hu1 rfl rfl hok, hpercent]
    rfl

/-! ## The actuator -/

theorem actOn_blind (on : Bool) : Blind (fun u => { u with actOn := on }) :=
  ⟨fun _ => rfl, fun _ => rfl, fun _ => rfl, fun _ => rfl, fun _ => rfl, fun _ _ _ _ _ => rfl⟩

theorem afterDwrite_actDuration (u : State) (pin : BitVec 4) (level : Level) : (u.afterDwrite pin level).actDuration = u.actDuration := by
  obtain ⟨_, _, hruns⟩ := dwriteBit_runs pin.toNat level u
  exact hruns.actDuration

/-- DWRITE of a handler that has set `act_on`. -/
theorem handlerWrite_actOn (pin : BitVec 4) (level : Level) (on : Bool) (u : State) :
    (handlerWrite pin level { u with actOn := on }).2 =
      { u.afterDwrite pin level with
        actOn := on
        dspErr := notedErr (u.afterDwrite pin level).res.status (u.afterDwrite pin level).res.index u.dspErr
        res := u.res } := by
  obtain ⟨_, _, hruns⟩ := dwriteBit_runs pin.toNat level u
  rw [handlerWrite_eq, (actOn_blind on).dwriteBit, ← hruns.res]
  rfl

/-- Both actuator handlers in one (R188, R189): the DWRITE of the pump pin, and beside it the sticky record, the publication and the
timer. -/
theorem handleSignal_actSet {param : Word} {on : Bool} (u : State) (hon : on = decide (param = 1)) :
    handleSignal ⟨.actSet, param⟩ u =
      { u.afterDwrite u.cfg.pumpPin (on == u.cfg.pumpActive) with
        actOn := on
        pub := u.pub ++ [(u.cfg.nameAct, if on then u.cfg.valOn else u.cfg.valOff)]
        actCountdown := if on then u.actDuration else 0
        minArmed := on
        dspErr := notedErr (u.afterDwrite u.cfg.pumpPin (on == u.cfg.pumpActive)).res.status
          (u.afterDwrite u.cfg.pumpPin (on == u.cfg.pumpActive)).res.index u.dspErr
        res := u.res } := by
  cases on with
  | true =>
    have hparam : param = 1 := of_decide_eq_true hon.symm
    simp only [handleSignal, hparam, if_true, handleActOn, handlerWrite_actOn, publish, afterDwrite_pub, afterDwrite_actDuration,
      Bool.true_beq]
  | false =>
    have hparam : param ≠ 1 := of_decide_eq_false hon.symm
    simp only [handleSignal, hparam, if_false, handleActOff, handlerWrite_actOn, publish, afterDwrite_pub, Bool.false_beq,
      Bool.false_eq_true]

/-- Settles O56: the handler on the rest of the queue. -/
theorem actuatorHandlers : Obligations.ActuatorHandlers := by
  intro s param rest on level hq hon hlevel
  refine ⟨_, exec_dwrite_level _ _ _, ?_⟩
  rw [exec_dispatch_cons hq, handleSignal_actSet _ hon, hlevel]
  rfl

end Sys2Proof.Machine
end

section
/-! PROOF. The configuration port (spec/10_state.md R42, spec/43_dispatcher_actuator.md R187, R197): O59 (what WRCFG writes) and O60 (what RDCFG
returns). -/
namespace Sys2Proof.Machine

/-! ## WRCFG -/

/-- Settles O59: the number picks the register, and a number outside the three is refused. -/
theorem wrcfgWritesTheRegisters : Obligations.WrcfgWritesTheRegisters := by
  refine fun reg w s => ⟨rfl, ?_, ?_, ?_, fun h => exec_refused (decide_eq_false (by omega)) (by simp)⟩
  all_goals
    rintro rfl
    rfl

/-! ## The words of the register map, as numbers -/

/-- Concatenation, with the low part's width as the weight of the high part. -/
theorem toNat_append_add {m n : Nat} (x : BitVec m) (y : BitVec n) : (x ++ y).toNat = x.toNat * 2 ^ n + y.toNat := by
  rw [BitVec.toNat_append, ← Nat.shiftLeft_add_eq_or_of_lt y.isLt, Nat.shiftLeft_eq]

theorem toNat_bit {n : Nat} (b : Bool) (hn : 0 < n) : (bit b : BitVec n).toNat = b.toNat := by
  cases b
  · exact BitVec.toNat_zero
  · exact BitVec.toNat_one hn

theorem toNat_dspErrWord (e : DspErr) :
    (dspErrWord e).toNat = e.flag.toNat * 65536 + e.status.code.toNat * 256 + e.index.toNat := by
  simp only [dspErrWord, toNat_append_add, toNat_bit _ Nat.one_pos, BitVec.ofNat_eq_ofNat, BitVec.toNat_zero]
  omega

theorem toNat_actStateWord (s : State) :
    (actStateWord s).toNat = s.minArmed.toNat * 131072 + s.actOn.toNat * 65536 + s.actCountdown.toNat := by
  simp only [actStateWord, toNat_append_add, toNat_bit _ Nat.one_pos, BitVec.ofNat_eq_ofNat, BitVec.toNat_zero]
  omega

theorem toNat_i2cStateWord (h : I2c) :
    (i2cStateWord h).toNat = h.lastSda.toNat * 131072 + h.lastScl.toNat * 65536 + h.sdaPin.toNat * 256 + h.sclPin.toNat := by
  simp only [i2cStateWord, toNat_append_add, toNat_bit _ Nat.one_pos, BitVec.ofNat_eq_ofNat, BitVec.toNat_zero]
  omega

/-! ## QUEUE_STATE bit by bit -/

theorem toNat_queueStateWord_mod (s : State) (h : s.queue.length < 256) : (queueStateWord s).toNat % 256 = s.queue.length := by
  simp only [queueStateWord, toNat_append_add, BitVec.toNat_ofNat]
  omega

theorem getLsbD_queueStateWord_gap (s : State) {k : Nat} (hlow : 8 ≤ k) (hhigh : k < 16) : (queueStateWord s).getLsbD k = false := by
  simp only [queueStateWord, BitVec.getLsbD_append, BitVec.ofNat_eq_ofNat, BitVec.getLsbD_zero]
  rw [if_neg (by omega), if_pos (by omega)]

theorem getLsbD_queueStateWord_slot (s : State) (p : Nat) : (queueStateWord s).getLsbD (16 + p) = (occupancy s).getLsbD p := by
  simp only [queueStateWord, BitVec.getLsbD_append, BitVec.ofNat_eq_ofNat, BitVec.getLsbD_zero]
  rw [if_neg (by omega), if_neg (by omega), show 16 + p - 8 - 8 = p by omega]
  split
  · rfl
  · next h => exact (BitVec.getLsbD_of_ge _ _ (by omega)).symm

/-- A flag at bit `k` of the occupancy. -/
theorem getLsbD_flagAt (b : Bool) {k j : Nat} (hj : j < 10) : (if b then 1#10 <<< k else 0).getLsbD j = (b && decide (j = k)) := by
  cases b
  · simp
  · rw [if_pos rfl, BitVec.getLsbD_shiftLeft, BitVec.getLsbD_one]
    simp only [hj, decide_true, Bool.true_and, ← Bool.decide_and, ← decide_not, decide_eq_decide]
    omega

/-- Bit `c` of the occupancy is the retry slot of channel `c`; bits 8 and 9 are the timers' (R42). -/
theorem getLsbD_occupancy_channel (s : State) {c : Nat} (hc : c < 8) : (occupancy s).getLsbD c = s.occupied (.dbn c) := by
  simp only [occupancy, BitVec.getLsbD_or, getLsbD_flagAt _ (show c < 10 by omega)]
  interval_cases c <;> simp

theorem getLsbD_occupancy_act (s : State) : (occupancy s).getLsbD 8 = s.heldAct.isSome := by
  simp only [occupancy, BitVec.getLsbD_or, getLsbD_flagAt _ (show 8 < 10 by omega)]
  simp [State.occupied, State.retry]

theorem getLsbD_occupancy_lvl (s : State) : (occupancy s).getLsbD 9 = s.heldLvl.isSome := by
  simp only [occupancy, BitVec.getLsbD_or, getLsbD_flagAt _ (show 9 < 10 by omega)]
  simp [State.occupied, State.retry]

theorem occupied_channel_iff (s : State) (c : Nat) :
    s.occupied (.dbn c) = true ↔ ∃ ch g, s.chans[c]? = some ch ∧ ch.held = some g := by
  simp only [State.occupied, State.retry, Option.isSome_iff_exists, Option.bind_eq_some_iff]
  exact exists_comm.trans (by simp)

/-! ## The map -/

/-- Above the fixed registers stand the channels' counters and the shadow (R42). -/
theorem configWord_of_ge (s : State) {reg : Byte} (h : 8 ≤ reg.toNat) : configWord s reg =
    if 0x10 ≤ reg.toNat ∧ reg.toNat < 0x10 + s.nch then (s.cnt (reg.toNat - 0x10)).map (BitVec.ofInt 32)
    else if 0x20 ≤ reg.toNat ∧ reg.toNat ≤ 0x35 then some ((Memory.read s.shadow (reg.toNat - 0x20)).setWidth 32)
    else none := by
  have hne : ∀ n : Byte, n.toNat ≤ 7 → reg ≠ n := by
    rintro n hn rfl
    omega
  rw [configWord, if_neg (hne 0 (by decide)), if_neg (hne 1 (by decide)), if_neg (hne 2 (by decide)), if_neg (hne 3 (by decide)),
    if_neg (hne 4 (by decide)), if_neg (hne 5 (by decide)), if_neg (hne 6 (by decide)), if_neg (hne 7 (by decide))]

theorem configWord_counter {s : State} {reg : Byte} {c : Nat} {ch : Channel} (hc : s.chans[c]? = some ch) (hreg : reg.toNat = 0x10 + c) :
    configWord s reg = some (BitVec.ofInt 32 ch.cnt) := by
  obtain ⟨hlt, -⟩ := List.getElem?_eq_some_iff.mp hc
  have hin : 0x10 ≤ reg.toNat ∧ reg.toNat < 0x10 + s.nch := by rw [State.nch]; omega
  rw [configWord_of_ge s (by omega), if_pos hin, hreg, Nat.add_sub_cancel_left, State.cnt, hc]
  rfl

theorem configWord_shadow {s : State} {reg : Byte} {i : Nat} (hnch : s.nch ≤ 8) (hi : i ≤ 21) (hreg : reg.toNat = 0x20 + i) :
    configWord s reg = some ((Memory.read s.shadow i).setWidth 32) := by
  rw [configWord_of_ge s (by omega), if_neg (by omega), if_pos (by omega), hreg, Nat.add_sub_cancel_left]

theorem configWord_some {s : State} {reg : Byte} (hnch : s.nch ≤ 8) (h : (Instr.rdcfg reg).wellFormed s.nch = true) :
    ∃ w, configWord s reg = some w := by
  simp only [Instr.wellFormed, Bool.or_eq_true, Bool.and_eq_true, decide_eq_true_eq] at h
  rcases h with (hfixed | ⟨hlow, hhigh⟩) | ⟨hlow, hhigh⟩
  · have hreg : reg = 0 ∨ reg = 1 ∨ reg = 2 ∨ reg = 3 ∨ reg = 4 ∨ reg = 5 ∨ reg = 6 ∨ reg = 7 := by bv_omega
    rcases hreg with rfl | rfl | rfl | rfl | rfl | rfl | rfl | rfl <;> exact ⟨_, rfl⟩
  · exact ⟨_, configWord_counter (List.getElem?_eq_getElem (i := reg.toNat - 0x10) (by rw [State.nch] at hhigh; omega)) (by omega)⟩
  · exact ⟨_, configWord_shadow (i := reg.toNat - 0x20) hnch (by omega) (by omega)⟩

/-! ## RDCFG -/

theorem exec_rdcfg_word {reg : Byte} {s : State} {w : Word} (h : configWord s reg = some w) :
    exec (.rdcfg reg) s = .next ({ s with res := { s.res with word := w } }.setResult .ok) := by
  simp only [exec, execRdcfg, h, finish_eq]

/-- The counter of a channel within 32 bits reads as itself (R42). -/
theorem toInt_ofInt_counter {c : Int} (hlow : -2147483648 ≤ c) (hhigh : c < 2147483648) : (BitVec.ofInt 32 c).toInt = c := by
  rw [BitVec.toInt_ofInt]
  exact Int.bmod_eq_of_le (by omega) (by omega)

/-- Settles O60: the word of the map at each number, then its fields. -/
theorem rdcfgReadsTheMap : Obligations.RdcfgReadsTheMap := by
  intro reg s hnch
  refine ⟨rfl, exec_rdcfg_refused, fun hwf => ?_⟩
  obtain ⟨w, hw⟩ := configWord_some hnch hwf
  have hword : ∀ {v}, configWord s reg = some v → w = v := fun hv => Option.some.inj (hw.symm.trans hv)
  refine ⟨w, exec_rdcfg_word hw, ?_, ?_, ?_, ?_, ?_, ?_, ?_, ?_, fun c ch hc hreg hlow hhigh => ?_, fun i hi hreg => ?_⟩
  · rintro rfl
    rw [hword rfl]
    exact BitVec.toNat_setWidth_of_le (by decide)
  · rintro rfl
    exact hword rfl
  · rintro rfl
    rw [hword rfl, toNat_dspErrWord]
  · rintro rfl
    rw [hword rfl, toNat_actStateWord]
  · rintro rfl
    rw [hword rfl, toNat_bit _ (by decide)]
  · rintro rfl
    rw [hword rfl, toNat_i2cStateWord]
  · rintro rfl
    rw [hword rfl]
    refine ⟨toNat_queueStateWord_mod s, fun k hlow hhigh => ?_, fun k hk => ?_, fun c hc => ?_, ?_, ?_⟩
    · exact getLsbD_queueStateWord_gap s hlow hhigh
    · rw [show k = 16 + (k - 16) by omega, getLsbD_queueStateWord_slot]
      exact BitVec.getLsbD_of_ge _ _ (by omega)
    · rw [getLsbD_queueStateWord_slot, getLsbD_occupancy_channel s hc]
      exact occupied_channel_iff s c
    · exact (getLsbD_queueStateWord_slot s 8).trans (getLsbD_occupancy_act s)
    · exact (getLsbD_queueStateWord_slot s 9).trans (getLsbD_occupancy_lvl s)
  · rintro rfl
    rw [hword rfl, toNat_bit _ (by decide)]
  · rw [hword (configWord_counter hc hreg), toInt_ofInt_counter hlow hhigh]
  · rw [hword (configWord_shadow hnch hi hreg)]
    exact BitVec.toNat_setWidth_of_le (by decide)

end Sys2Proof.Machine
end

section
/-! PROOF. The exceptions (spec/60_exceptions.md R220 to R230): O11 (nothing halts), O22 (an event that is not enabled), O19 (the callback
context), O7 (when INVALID_ARG is returned), O15 (the idle bus) and O33 (the first byte not acknowledged decides). -/
namespace Sys2Proof.Machine

/-! ## Nothing is fatal (R223) -/

theorem step_next (s : State) : ∃ t, step s = .next t := by
  cases hdec : decode s.cmd with
  | ok i rest =>
    obtain ⟨t, ht⟩ := exec_next i (accept rest s)
    exact ⟨_, step_of_decode_ok hdec ht⟩
  | illegal op rest => exact ⟨_, step_of_decode_illegal hdec⟩
  | incomplete => exact ⟨_, step_of_decode_incomplete hdec⟩

/-- Settles O11: every operation ends, and a step runs one, rejects an opcode byte or waits. -/
theorem nothingIsFatal : Obligations.NothingIsFatal := ⟨exec_next, step_next⟩

/-! ## The callback context (R230) -/

/-- Settles O19: the frame of the callback operations. -/
theorem callbackContextStaysOffTheBus : Obligations.CallbackContextStaysOffTheBus := fun _ _ _ => exec_callbackFrame

/-! ## Accepted operands

The converses of the refusals: an operand the spec accepts is read. -/

theorem flagOf_some : ∀ a : Byte, a.toNat ≤ 1 → ∃ b, flagOf a = some b := by unfold flagOf; decide

/-- POST's operands that R96 accepts give a signal. -/
theorem signalOf_some {kind : Byte} {param : Word} {nch : Nat} (h : (Instr.post kind param).wellFormed nch = true) :
    ∃ g, signalOf kind param = some g := by
  simp only [Instr.wellFormed, Bool.or_eq_true, Bool.and_eq_true, decide_eq_true_eq] at h
  have hkind : kind = 1 ∧ param ≤ 1 ∨ kind = 2 ∨ kind = 3 ∧ param ≤ 1 ∨ kind = 4 := by bv_omega
  rcases hkind with ⟨rfl, hparam⟩ | rfl | ⟨rfl, hparam⟩ | rfl
  · exact ⟨_, if_pos hparam⟩
  · exact ⟨_, rfl⟩
  · exact ⟨_, if_pos hparam⟩
  · exact ⟨_, rfl⟩

/-- A slot number that R93 accepts names a producer (R37). -/
theorem producerOf_some {slot : Byte} {nch : Nat} (h : (Instr.retrytick slot).wellFormed nch = true) :
    ∃ p, producerOf nch slot = some p := by
  simp only [Instr.wellFormed, Bool.or_eq_true, decide_eq_true_eq] at h
  by_cases hchan : slot.toNat < nch
  · exact ⟨_, if_pos hchan⟩
  · obtain rfl | rfl : slot = 8 ∨ slot = 9 := by bv_omega
    · exact ⟨_, if_neg hchan⟩
    · exact ⟨_, if_neg hchan⟩

/-- A number of the map reads a register, for any number of channels: where more than 16 would reach into the shadow's numbers, the
counter is read (R42). -/
theorem configWord_of_wellFormed {s : State} {reg : Byte} (h : (Instr.rdcfg reg).wellFormed s.nch = true) :
    ∃ w, configWord s reg = some w := by
  by_cases hchan : 0x10 ≤ reg.toNat ∧ reg.toNat < 0x10 + s.nch
  · exact ⟨_, configWord_counter (List.getElem?_eq_getElem (i := reg.toNat - 0x10) (by rw [State.nch] at hchan; omega)) (by omega)⟩
  · simp only [Instr.wellFormed, Bool.or_eq_true, Bool.and_eq_true, decide_eq_true_eq, hchan, or_false] at h
    rcases h with hfixed | hshadow
    · have hreg : reg = 0 ∨ reg = 1 ∨ reg = 2 ∨ reg = 3 ∨ reg = 4 ∨ reg = 5 ∨ reg = 6 ∨ reg = 7 := by bv_omega
      rcases hreg with rfl | rfl | rfl | rfl | rfl | rfl | rfl | rfl <;> exact ⟨_, rfl⟩
    · exact ⟨_, by rw [configWord_of_ge s (by omega), if_neg hchan, if_pos hshadow]⟩

/-! ## Events that are not enabled (R224, R225) -/

/-- Settles O22: MINTICK disarmed, and RETRYTICK on a slot that holds nothing; every other operation is always enabled. -/
theorem disabledEventIsNoOp : Obligations.DisabledEventIsNoOp := by
  intro i s hwf hoff
  cases i <;> try cases hoff
  case mintick => exact exec_mintick_disarmed hoff
  case retrytick slot =>
    obtain ⟨p, hp⟩ := producerOf_some hwf
    simp only [State.enabled, hp, State.occupied, Option.isSome_eq_false_iff, Option.isNone_iff_eq_none] at hoff
    exact exec_retrytick_empty hp hoff

/-! ## What an accepted operation ends with (R97, R130, R140) -/

theorem WriteStatus.accepted {k : Nat} {status : Status} {index : Byte} (h : WriteStatus k status index) : status ≠ .invalidArg := by
  rcases h with ⟨rfl, -⟩ | ⟨rfl, -⟩ | ⟨rfl, -⟩ | ⟨rfl, -⟩ <;> decide

theorem ReadStatus.accepted {status : Status} {index : Byte} (h : ReadStatus status index) : status ≠ .invalidArg := by
  rcases h with ⟨rfl, -⟩ | ⟨rfl, -⟩ | ⟨rfl, -⟩ <;> decide

/-- A procedure of the driver ended: not with INVALID_ARG, and with both lines released. -/
def EndsIdle (p : Result × State) : Prop := p.1.status ≠ .invalidArg ∧ p.2.BusIdle

theorem xwrite_endsIdle (i : Nat) {data : List Byte} (hlen : data.length ≤ 255) (s : State) : EndsIdle (xwrite i data s) := by
  obtain ⟨hends, -, hruns⟩ := xwrite_spec i data s hlen
  exact ⟨hends.accepted, hruns.lines⟩

theorem dread16_endsIdle (s : State) : EndsIdle (dread16 s) := by
  obtain ⟨hends, -, _, -, hruns⟩ := dread16_spec s
  exact ⟨hends.accepted, hruns.lines⟩

/-- PINMODE ends with its direction burst or with its pull-up burst (R132). -/
theorem pinMode_endsIdle (pin : Nat) (m : PinMode) (s : State) : EndsIdle (pinMode pin m s) := by
  by_cases hdir : (xwrite 0 (portBytes (dirPair pin m s)) s).1.status = .ok
  · rw [pinMode_of_confirmed hdir]
    exact xwrite_endsIdle 12 (by simp) _
  · rw [pinMode_of_failed hdir]
    exact xwrite_endsIdle 0 (by simp) s

/-- A driver operation with accepted operands ends as its procedure does. -/
theorem exec_driver_accepted {i : Instr} {s : State} (hi : Instr.isDriver i = true) (hwf : i.wellFormed s.nch = true) :
    ∃ p, exec i s = finishWith p ∧ EndsIdle p := by
  cases i <;> try cases hi
  all_goals simp only [Instr.wellFormed, Bool.and_eq_true, ← Bool.decide_or, decide_eq_true_eq] at hwf
  case begin a b dirA dirB puA puB polA polB =>
    obtain ⟨hst, hidle⟩ := xwrite_endsIdle 0 (data := (List.range 14).map (Memory.read (beginShadow dirA dirB puA puB polA polB)))
      (by simp) (beginStart a b dirA dirB puA puB polA polB s)
    exact ⟨(_, _), rfl, hst, hidle⟩
  case pinmode pin mode =>
    obtain ⟨hpin, hmode⟩ := hwf
    obtain ⟨m, hm⟩ := Option.isSome_iff_exists.mp (pinModeOf_isSome mode hmode)
    exact ⟨_, exec_pinmode s hpin hm, pinMode_endsIdle _ m s⟩
  case pudctl pin pud =>
    obtain ⟨hpin, hpud⟩ := hwf
    exact ⟨_, exec_pudctl s hpin (pudBitOf_some hpud), xwrite_endsIdle _ (by simp) s⟩
  case dread16 => exact ⟨_, rfl, dread16_endsIdle s⟩
  case dread pin => exact ⟨(_, _), exec_dread s hwf, dread16_endsIdle s⟩
  case dwrite16 v => exact ⟨_, rfl, xwrite_endsIdle _ (by simp) s⟩
  case dwrite pin level =>
    obtain ⟨hpin, hlevel⟩ := hwf
    obtain ⟨l, hl⟩ := flagOf_some level hlevel
    exact ⟨_, exec_dwrite s hpin hl, xwrite_endsIdle _ (by simp) s⟩
  case dumpregs =>
    obtain ⟨hends, -, -, hruns⟩ := xread_spec 0 nReg false s
    exact ⟨(_, _), rfl, hends.accepted, hruns.lines⟩

/-- The operation ends with a status other than INVALID_ARG. -/
def EndsAccepted (i : Instr) (s : State) : Prop := ∃ u r, exec i s = finish r u ∧ r.status ≠ .invalidArg

/-- A line primitive that is not refused ends with OK (R122). -/
theorem exec_engine_accepted {i : Instr} {s : State} (hi : Instr.isEngine i = true) (hwf : i.wellFormed s.nch = true) :
    EndsAccepted i s := by
  cases i <;> try cases hi
  case setlines a => exact ⟨_, _, exec_setlines s (of_decide_eq_true hwf), nofun⟩
  case sendack low =>
    obtain ⟨l, hl⟩ := flagOf_some low (of_decide_eq_true hwf)
    exact ⟨sendAck l s, .ok, by simp only [exec, execSendack, hl], nofun⟩
  all_goals exact ⟨_, _, rfl, nofun⟩

/-- A callback operation that is not refused ends with OK or QUEUE_FULL (R181, R185). -/
theorem exec_callback_accepted {i : Instr} {s : State} (hi : Instr.isCallback i = true) (hwf : i.wellFormed s.nch = true) :
    EndsAccepted i s := by
  cases i <;> try cases hi
  case sample raw => exact ⟨_, _, rfl, nofun⟩
  case post kind param =>
    obtain ⟨g, hg⟩ := signalOf_some hwf
    rcases Nat.lt_or_ge s.queue.length s.cfg.qcap with hroom | hfull
    · exact ⟨_, _, exec_post_room hg hroom, nofun⟩
    · exact ⟨_, _, exec_post_full hg hfull, nofun⟩
  case mintick =>
    obtain ⟨t, ht⟩ := exec_next .mintick s
    rcases exec_mintick_cases ht with ⟨-, rfl⟩ | ⟨-, -, rfl⟩ | ⟨-, -, rfl⟩ <;> exact ⟨_, _, ht, nofun⟩
  case retrytick slot =>
    obtain ⟨p, hp⟩ := producerOf_some hwf
    cases hslot : s.retry p with
    | none => exact ⟨_, _, exec_retrytick_empty hp hslot, nofun⟩
    | some g =>
      rcases Nat.lt_or_ge s.queue.length s.cfg.qcap with hroom | hfull
      · exact ⟨_, _, exec_retrytick_room hp hslot hroom rfl, nofun⟩
      · exact ⟨_, _, exec_retrytick_full hp hslot hfull, nofun⟩
  case leveltick => exact ⟨_, _, rfl, nofun⟩

/-- DISPATCH ends with OK whatever its handler met (R182). -/
theorem exec_dispatch_accepted (s : State) : EndsAccepted .dispatch s := by
  cases hq : s.queue with
  | nil => exact ⟨_, _, exec_dispatch_nil hq, nofun⟩
  | cons g rest => exact ⟨_, _, exec_dispatch_cons hq, nofun⟩

/-- WRCFG to a writable number ends with OK (R187). -/
theorem exec_wrcfg_accepted {reg : Byte} {w : Word} {s : State} (hwf : (Instr.wrcfg reg w).wellFormed s.nch = true) :
    EndsAccepted (.wrcfg reg w) s := by
  have hreg : reg.toNat ≤ 2 := of_decide_eq_true hwf
  obtain rfl | rfl | rfl : reg = 0 ∨ reg = 1 ∨ reg = 2 := by bv_omega
  · exact ⟨_, _, rfl, nofun⟩
  · exact ⟨_, _, rfl, nofun⟩
  · exact ⟨_, _, rfl, nofun⟩

/-- An operation whose operands the spec accepts does not end with INVALID_ARG. -/
theorem exec_accepted {i : Instr} {s : State} (hwf : i.wellFormed s.nch = true) : EndsAccepted i s := by
  rcases instr_kinds i with (heng | hdrv) | hcb | rfl | ⟨reg, w, rfl⟩ | ⟨reg, rfl⟩
  · exact exec_engine_accepted heng hwf
  · obtain ⟨⟨r, u⟩, hp, hst, -⟩ := exec_driver_accepted hdrv hwf
    exact ⟨u, r, hp, hst⟩
  · exact exec_callback_accepted hcb hwf
  · exact exec_dispatch_accepted s
  · exact exec_wrcfg_accepted hwf
  · obtain ⟨w, hw⟩ := configWord_of_wellFormed hwf
    exact ⟨_, _, exec_rdcfg_word hw, nofun⟩

/-- An operation with an operand out of range ends with INVALID_ARG: RDCFG with the word 0, the others with nothing else changed. -/
theorem exec_refused_status {i : Instr} {s t : State} (hwf : i.wellFormed s.nch = false) (h : exec i s = .next t) :
    t.res.status = .invalidArg := by
  by_cases hrd : ∃ reg, i = .rdcfg reg
  · obtain ⟨reg, rfl⟩ := hrd
    rw [exec_rdcfg_refused hwf] at h
    cases h; rfl
  · rw [exec_refused hwf (not_exists.mp hrd)] at h
    cases h; rfl

/-- Settles O7: refused operands end with INVALID_ARG, and accepted ones with another status. -/
theorem invalidArgIffOperandsOutOfRange : Obligations.InvalidArgIffOperandsOutOfRange := by
  intro i s t h
  refine ⟨fun hst => ?_, fun hwf => exec_refused_status hwf h⟩
  by_contra hwf
  obtain ⟨u, r, hu, hr⟩ := exec_accepted (Bool.eq_true_of_not_eq_false hwf)
  rw [finish_next (hu.symm.trans h)] at hst
  exact hr hst

/-! ## The idle bus (R223, R139) -/

theorem exec_driver_idle {i : Instr} {s t : State} (hi : Instr.isDriver i = true) (hwf : i.wellFormed s.nch = true)
    (h : exec i s = .next t) : t.BusIdle := by
  obtain ⟨p, hp, -, hidle⟩ := exec_driver_accepted hi hwf
  rw [finish_next (hp.symm.trans h)]
  exact hidle

/-- From the idle bus every operation but a line primitive leaves it idle: refused operations, the callback operations and the
configuration port drive nothing, and every handler ends its bus accesses. -/
theorem exec_keeps_idle {i : Instr} {s t : State} (hi : Instr.isEngine i = false) (hidle : s.BusIdle) (h : exec i s = .next t) :
    t.BusIdle := by
  rcases instr_kinds i with (heng | hdrv) | hcb | rfl | ⟨reg, w, rfl⟩ | ⟨reg, rfl⟩
  · rw [hi] at heng; cases heng
  · cases hwf : i.wellFormed s.nch with
    | true => exact exec_driver_idle hdrv hwf h
    | false =>
      rw [exec_driver_refused hwf hdrv] at h
      cases h; exact hidle
  · rw [(exec_callbackFrame hcb h).1]; exact hidle
  · rcases exec_dispatch_cases s t h with ⟨-, rfl⟩ | ⟨g, rest, -, rfl⟩
    · exact hidle
    · exact (handleSignal_effect g { s with queue := rest }).idle hidle
  · rw [exec_wrcfg_frame h]; exact hidle
  · rw [exec_rdcfg_frame h]; exact hidle

/-- Settles O15: an accepted driver operation ends with STOP, and what is not a line primitive keeps an idle bus. -/
theorem busIdleAfterEveryOperation : Obligations.BusIdleAfterEveryOperation :=
  fun _ _ _ h => ⟨fun hi hwf => exec_driver_idle hi hwf h, fun hi hidle => exec_keeps_idle hi hidle h⟩

/-! ## The first byte not acknowledged (R227)

Both transactions against an oracle, byte by byte. -/

section
variable {s : State} {rest : List Level} {a : List Bool} {n : Nat} (i k : Nat) (data : List Byte) (u : Bool)

/-- The address byte is not acknowledged. -/
theorem transactions_oracle_nakAddr (h : s.env = ⟨.oracle (true :: rest), a, n⟩) :
    (xwrite i data s).1 = ⟨.nakAddr, 0, 0⟩ ∧ (xread i k u s).1 = ⟨⟨.nakAddr, 0, 0⟩, []⟩ := by
  obtain ⟨haddr, -⟩ := sendAcked_oracle (writeAddr s.cfg) (start_env_oracle h)
  simp only [xwrite, xread, haddr, Bool.not_true, Bool.false_eq_true, if_false, and_self]

/-- The register pointer is not acknowledged. -/
theorem transactions_oracle_nakPtr (h : s.env = ⟨.oracle (false :: true :: rest), a, n⟩) :
    (xwrite i data s).1 = ⟨.nakPtr, 0, 0⟩ ∧ (xread i k u s).1 = ⟨⟨.nakPtr, 0, 0⟩, []⟩ := by
  obtain ⟨haddr, henv⟩ := sendAcked_oracle (writeAddr s.cfg) (start_env_oracle h)
  obtain ⟨hptr, -⟩ := sendAcked_oracle (regPtr s.cfg i) henv
  simp only [xwrite, xread, haddr, hptr, Bool.not_false, Bool.not_true, Bool.false_eq_true, if_true, if_false, and_self]

/-- A write whose address and pointer are acknowledged ends as its data loop does, which the rest of the script decides. -/
theorem xwrite_oracle_addressed (h : s.env = ⟨.oracle (false :: false :: rest), a, n⟩) :
    ∃ v : State, v.env = ⟨.oracle rest, a, n⟩ ∧ (xwrite i data s).1 = (writeBytes i 0 data v).1 := by
  obtain ⟨haddr, henv⟩ := sendAcked_oracle (writeAddr s.cfg) (start_env_oracle h)
  obtain ⟨hptr, hv⟩ := sendAcked_oracle (regPtr s.cfg i) henv
  refine ⟨_, hv, ?_⟩
  simp only [xwrite, haddr, hptr, Bool.not_false, if_true]

/-- A read whose second address byte, after the repeated START, is not acknowledged. -/
theorem xread_oracle_nakReadAddr (h : s.env = ⟨.oracle (false :: false :: true :: rest), a, n⟩) :
    (xread i k u s).1 = ⟨⟨.nakAddr, 1, 0⟩, []⟩ := by
  obtain ⟨haddr, henv⟩ := sendAcked_oracle (writeAddr s.cfg) (start_env_oracle h)
  obtain ⟨hptr, henv⟩ := sendAcked_oracle (regPtr s.cfg i) henv
  obtain ⟨hread, -⟩ := sendAcked_oracle (readAddr s.cfg) (start_env_oracle henv)
  simp only [xread, haddr, hptr, hread, Bool.not_false, Bool.not_true, Bool.false_eq_true, if_true, if_false]

end

/-- Settles O33: the script's first level that is high meets the address, the pointer, a data byte or the read address; without one the
write is confirmed and the read gives the bytes. -/
theorem firstMissingAckDecides : Obligations.FirstMissingAckDecides := by
  intro i data s u rest a n _ _
  refine ⟨transactions_oracle_nakAddr i _ data u, transactions_oracle_nakPtr i _ data u, fun m hm h => ?_, fun h => ?_,
    xread_oracle_nakReadAddr i _ u, fun h => (xread_oracle i u data rest s h).1⟩
  · obtain ⟨v, hv, heq⟩ := xwrite_oracle_addressed i data h
    rw [heq, (writeBytes_oracle_nak i 0 data m rest v hm hv).1, Nat.zero_add]
  · obtain ⟨v, hv, heq⟩ := xwrite_oracle_addressed i data h
    exact heq.trans (writeBytes_oracle_ok i 0 data rest v hv).1

end Sys2Proof.Machine
end

section
/-! PROOF. The slot counts of spec/70_reset_and_hazards.md R270 (O34): the transactions by their waveforms, the operations by their
transactions, the handlers by the operations they invoke (R13). -/
namespace Sys2Proof.Machine

/-! ## The transactions -/

/-- A write burst has the slots of START and STOP, and 29 for each byte sent, however it ended. -/
theorem burstSlots_sentBytes_length (c : Config) (p : Slot) (i : Nat) (data : List Byte) (status : Status) (index : Byte) :
    (burstSlots p (sentBytes c i data status index)).length = 6 + 29 * (sentBytes c i data status index).length := by
  cases status <;> exact burstSlots_length p _ _

theorem sentBytes_nakData_length (c : Config) (i : Nat) {data : List Byte} {index : Byte} (h : index.toNat < data.length) :
    (sentBytes c i data .nakData index).length = 3 + index.toNat := by
  simp only [sentBytes, List.length_cons, List.length_take]
  omega

section
variable {i k : Nat} {data : List Byte} {update : Bool} {s : State}

theorem newSlots_xwrite_length_sent (hlen : data.length ≤ 255) : (newSlots s (xwrite i data s).2).length
    = 6 + 29 * (sentBytes s.cfg i data (xwrite i data s).1.status (xwrite i data s).1.index).length := by
  rw [newSlots_runs (xwrite_spec i data s hlen).2.2, burstSlots_sentBytes_length]

theorem newSlots_xwrite_length_nakAddr (hlen : data.length ≤ 255) (h : (xwrite i data s).1.status = .nakAddr) :
    (newSlots s (xwrite i data s).2).length = 35 := by
  rw [newSlots_xwrite_length_sent hlen, h]
  rfl

theorem newSlots_xwrite_length_nakPtr (hlen : data.length ≤ 255) (h : (xwrite i data s).1.status = .nakPtr) :
    (newSlots s (xwrite i data s).2).length = 64 := by
  rw [newSlots_xwrite_length_sent hlen, h]
  rfl

theorem newSlots_xwrite_length_nakData (hlen : data.length ≤ 255) (h : (xwrite i data s).1.status = .nakData) :
    (newSlots s (xwrite i data s).2).length = 93 + 29 * (xwrite i data s).1.index.toNat := by
  have hends := (xwrite_spec i data s hlen).1
  have hindex : (xwrite i data s).1.index.toNat < data.length := by simpa [WriteStatus, h] using hends
  rw [newSlots_xwrite_length_sent hlen, h, sentBytes_nakData_length s.cfg i hindex]
  omega

theorem newSlots_xread_length_nakAddr (h : (xread i k update s).1.result.status = .nakAddr)
    (hindex : (xread i k update s).1.result.index = 0) : (newSlots s (xread i k update s).2).length = 35 := by
  rw [newSlots_runs (xread_spec i k update s).2.2.2, h, hindex]
  rfl

theorem newSlots_xread_length_nakPtr (h : (xread i k update s).1.result.status = .nakPtr) :
    (newSlots s (xread i k update s).2).length = 64 := by
  rw [newSlots_runs (xread_spec i k update s).2.2.2, h]
  rfl

theorem newSlots_xread_length_nakReadAddr (h : (xread i k update s).1.result.status = .nakAddr)
    (hindex : (xread i k update s).1.result.index = 1) : (newSlots s (xread i k update s).2).length = 96 := by
  rw [newSlots_runs (xread_spec i k update s).2.2.2, h, hindex]
  rfl

end

/-! ## The operations -/

section
variable {s t : State}

/-- Recording the result drives no slot. -/
theorem newSlots_length_of_finish {r : Result} {u : State} {n : Nat} (hf : finish r u = .next t)
    (h : r.status = .ok → (newSlots s u).length = n) : t.res.status = .ok → (newSlots s t).length = n := by
  rw [finish_next hf]
  exact h

theorem newSlots_xwrite_pair_length {i : Nat} {v : Half} :
    (xwrite i (portBytes v) s).1.status = .ok → (newSlots s (xwrite i (portBytes v) s).2).length = 122 :=
  newSlots_xwrite_length (by simp)

/-- An acknowledged PINMODE is two acknowledged bursts of a pair (R132). -/
theorem newSlots_pinMode_length (pin : Nat) (m : PinMode) (hok : (pinMode pin m s).1.status = .ok) :
    (newSlots s (pinMode pin m s).2).length = 244 := by
  by_cases hdir : (xwrite 0 (portBytes (dirPair pin m s)) s).1.status = .ok
  · rw [pinMode_of_confirmed hdir] at hok ⊢
    have hlen (v : Half) : (portBytes v).length ≤ 255 := by simp
    rw [newSlots_length_trans (xwrite_oneBurst 0 _ s (hlen _)).grows (xwrite_oneBurst 12 _ _ (hlen _)).grows,
      newSlots_xwrite_pair_length hdir, newSlots_xwrite_pair_length hok]
  · rw [pinMode_of_failed hdir] at hok
    exact absurd hok hdir

theorem newSlots_dread16_length : (dread16 s).1.status = .ok → (newSlots s (dread16 s).2).length = 142 :=
  newSlots_xread_length

theorem newSlots_exec_begin_length {a b dirA dirB puA puB polA polB : Byte}
    (h : exec (.begin a b dirA dirB puA puB polA polB) s = .next t) (hok : t.res.status = .ok) : (newSlots s t).length = 471 := by
  obtain ⟨-, status, index, sh, t', u, hexec, -, -, ht, -, -, -, -, -, -, hcount⟩ :=
    beginWritesFourteenRegisters a b dirA dirB puA puB polA polB s
  obtain rfl := Host.Outcome.next.inj (hexec.symm.trans h)
  rw [ht] at hok
  exact hcount hok

theorem newSlots_exec_pinmode_length {pin mode : Byte} (h : exec (.pinmode pin mode) s = .next t) :
    t.res.status = .ok → (newSlots s t).length = 244 := by
  simp only [exec, execPinmode] at h
  split at h
  · exact newSlots_length_of_finish h (newSlots_pinMode_length _ _)
  all_goals exact newSlots_length_of_finish h nofun

theorem newSlots_exec_pudctl_length {pin pud : Byte} (h : exec (.pudctl pin pud) s = .next t) :
    t.res.status = .ok → (newSlots s t).length = 122 := by
  simp only [exec, execPudctl] at h
  split at h
  · exact newSlots_length_of_finish h newSlots_xwrite_pair_length
  all_goals exact newSlots_length_of_finish h nofun

theorem newSlots_exec_dwrite16_length {v : Half} (h : exec (.dwrite16 v) s = .next t) :
    t.res.status = .ok → (newSlots s t).length = 122 :=
  newSlots_length_of_finish h newSlots_xwrite_pair_length

theorem newSlots_exec_dwrite_length {pin level : Byte} (h : exec (.dwrite pin level) s = .next t) :
    t.res.status = .ok → (newSlots s t).length = 122 := by
  simp only [exec, execDwrite] at h
  split at h
  · exact newSlots_length_of_finish h newSlots_xwrite_pair_length
  all_goals exact newSlots_length_of_finish h nofun

theorem newSlots_exec_dread16_length (h : exec .dread16 s = .next t) : t.res.status = .ok → (newSlots s t).length = 142 :=
  newSlots_length_of_finish h newSlots_dread16_length

theorem newSlots_exec_dread_length {pin : Byte} (h : exec (.dread pin) s = .next t) :
    t.res.status = .ok → (newSlots s t).length = 142 := by
  simp only [exec, execDread] at h
  split at h
  · exact newSlots_length_of_finish h newSlots_dread16_length
  · exact newSlots_length_of_finish h nofun

theorem newSlots_exec_dumpregs_length (h : exec .dumpregs s = .next t) : t.res.status = .ok → (newSlots s t).length = 602 :=
  newSlots_length_of_finish h newSlots_xread_length

/-! ## The handlers -/

/-- The sticky record stays clear only where every noted result was OK (R194). -/
theorem notedErr_flag_eq_false {status : Status} {index : Byte} {e : DspErr} :
    (notedErr status index e).flag = false ↔ status = .ok ∧ e.flag = false := by
  rw [notedErr]
  split <;> simp [*]

theorem newSlots_dispatch_actSet_length {p : Word} {rest : List Signal} (hq : s.queue = ⟨.actSet, p⟩ :: rest)
    (h : exec .dispatch s = .next t) (hflag : t.dspErr.flag = false) : (newSlots s t).length = 122 := by
  obtain ⟨u, hwrite, hdispatch⟩ := actuatorHandlers s p rest _ _ hq rfl rfl
  obtain rfl := Host.Outcome.next.inj (hdispatch.symm.trans h)
  have hcount := newSlots_exec_dwrite_length hwrite (notedErr_flag_eq_false.mp hflag).1
  exact hcount

/-- An undisturbed level sample is DWRITE, DREAD16 and DWRITE (R190): 122 + 142 + 122 slots. -/
theorem newSlots_dispatch_levelSample_length {p : Word} {rest : List Signal} (hq : s.queue = ⟨.levelSample, p⟩ :: rest)
    (h : exec .dispatch s = .next t) (hflag : t.dspErr.flag = false) : (newSlots s t).length = 386 := by
  obtain ⟨u1, hdrive, hfailed, hdriven⟩ := levelSampleHandler s p rest hq
  by_cases hok : u1.res.status = .ok
  · obtain ⟨u2, u3, n, hread, hrelease, -, -, -, hdispatch⟩ := hdriven hok
    obtain rfl := Host.Outcome.next.inj (hdispatch.symm.trans h)
    obtain ⟨hok3, hflag⟩ := notedErr_flag_eq_false.mp hflag
    obtain ⟨hok2, -⟩ := notedErr_flag_eq_false.mp hflag
    have grows {i : Instr} {a b : State} (hexec : exec i a = .next b) : a.wave <+: b.wave := (exec_outputsGrow hexec).1
    calc (newSlots s u3).length
      _ = (newSlots { s with queue := rest } u1).length + ((newSlots u1 u2).length + (newSlots u2 u3).length) := by
          rw [← newSlots_length_trans (grows hread) (grows hrelease),
            ← newSlots_length_trans (grows hdrive) ((grows hread).trans (grows hrelease))]
          rfl
      _ = 122 + (142 + 122) := by
          rw [newSlots_exec_dwrite_length hdrive hok, newSlots_exec_dread16_length hread hok2,
            newSlots_exec_dwrite_length hrelease hok3]
  · obtain ⟨u3, -, hdispatch⟩ := hfailed hok
    obtain rfl := Host.Outcome.next.inj (hdispatch.symm.trans h)
    obtain ⟨-, hflag⟩ := notedErr_flag_eq_false.mp hflag
    exact absurd (notedErr_flag_eq_false.mp hflag).1 hok

end

/-- Settles O34: the transactions however they ended, the acknowledged operations, and the handlers whose bus accesses all succeeded. -/
theorem slotCounts : Obligations.SlotCounts := by
  refine ⟨fun i data s _ hrange => ?_, fun i k u s _ _ => ?_, fun i s t h hok => ?_, fun s t h _ hflag => ?_⟩
  · have hlen : data.length ≤ 255 := by omega
    exact ⟨newSlots_xwrite_length hlen, newSlots_xwrite_length_nakAddr hlen, newSlots_xwrite_length_nakPtr hlen,
      newSlots_xwrite_length_nakData hlen⟩
  · exact ⟨newSlots_xread_length, newSlots_xread_length_nakAddr, newSlots_xread_length_nakPtr, newSlots_xread_length_nakReadAddr⟩
  · refine ⟨?_, ?_, ?_, ?_, ?_⟩
    · rintro ⟨a, b, c, d, e, f, g, k, rfl⟩
      exact newSlots_exec_begin_length h hok
    · rintro ⟨pin, mode, rfl⟩
      exact newSlots_exec_pinmode_length h hok
    · rintro (⟨pin, pud, rfl⟩ | ⟨v, rfl⟩ | ⟨pin, level, rfl⟩)
      exacts [newSlots_exec_pudctl_length h hok, newSlots_exec_dwrite16_length h hok, newSlots_exec_dwrite_length h hok]
    · rintro (rfl | ⟨pin, rfl⟩)
      exacts [newSlots_exec_dread16_length h hok, newSlots_exec_dread_length h hok]
    · rintro rfl
      exact newSlots_exec_dumpregs_length h hok
  · exact ⟨fun ⟨_, _, hq⟩ => newSlots_dispatch_actSet_length hq h hflag,
      fun ⟨_, _, hq⟩ => newSlots_dispatch_levelSample_length hq h hflag⟩

end Sys2Proof.Machine
end
